-- ==== Sys2Proof/Word.lean ====
section
/-! DEFINITION. Word.lean: the widths the spec gives its values (20_memory.md R39). -/

namespace Sys2Proof

/-- A data byte, register address, device number or glyph slot number: 8 bits (R39). -/
abbrev Byte := BitVec 8

/-- A frame: 16 bits, address in 15:8 and data in 7:0 (R34, R53). -/
abbrev Frame := BitVec 16

/-- A host register or command word: 32 bits (R24, R60). -/
abbrev Word := BitVec 32

/-- An 8×8 glyph: 64 bits, pixel (row y, column x) at bit 8y + x (R20). -/
abbrev Glyph := BitVec 64

end Sys2Proof
end

