-- ==== Sys2Proof/Syntax.lean ====
section
/-! DEFINITION. Syntax.lean: the command set (30_encoding.md R64), one constructor per row of the opcode table, with the
fields its format names (R61, R62). Field names: `scr` is S, `adr` is A, `dat` is D, `frm` is F. -/

namespace Sys2Proof

/-- A decoded command (R64). -/
inductive Instr where
  | nop
  | sessionOpen
  | sessionSend (frm : Frame)
  | sessionClose
  | countDevices
  | rawExchange (frm : Frame)
  | rawClose
  | chipSetPending (scr : Byte) (frm : Frame)
  | getPending (scr : Byte)
  | chipLatch (scr : Byte)
  | getLatched (scr adr : Byte)
  | setRegister (scr adr dat : Byte)
  | resetRegisters
  /-- `coord` is the flag K; `adr` the column, `dat` the column byte or the row (R141). -/
  | setLed (scr : Byte) (coord : Bool) (adr dat : Byte)
  /-- `adr` is the column, `dat` the row (R144). -/
  | resetLedAt (scr adr dat : Byte)
  | setRow (scr dat : Byte)
  /-- `scr` is the glyph slot, `half` the flag H (R150). -/
  | loadGlyph (scr : Byte) (half : Bool)
  /-- `dat` is the glyph slot (R153). -/
  | setLetter (scr dat : Byte)
  | setWord (dat : Byte)
  | cycleSteps
  | cycleSet
  | setCycle (wrap : Bool)
  | getCycle
  | setCycleDelay
  | getCycleDelay
  deriving DecidableEq, Repr

end Sys2Proof
end

