-- ==== Sys2Proof/WellFormed.lean ====
section
/-! DEFINITION. WellFormed.lean: which commands a block of `n` devices accepts beyond the opcode map: the glyph slot of
LOAD_GLYPH and of SET_LETTER is below N (30_encoding.md R65). Every other operand value is legal (R66). -/

namespace Sys2Proof

/-- The slot checks of R65 for a block of `n` devices. -/
def Instr.wf (n : Nat) : Instr → Bool
  | .loadGlyph scr _ => decide (scr.toNat < n)
  | .setLetter _ dat => decide (dat.toNat < n)
  | .nop | .sessionOpen | .sessionSend _ | .sessionClose | .countDevices | .rawExchange _ | .rawClose
  | .chipSetPending _ _ | .getPending _ | .chipLatch _ | .getLatched _ _ | .setRegister _ _ _ | .resetRegisters
  | .setLed _ _ _ _ | .resetLedAt _ _ _ | .setRow _ _ | .setWord _ | .cycleSteps | .cycleSet | .setCycle _
  | .getCycle | .setCycleDelay | .getCycleDelay => true

end Sys2Proof
end

