-- ==== Sys2Proof/Decode.lean ====
section
/-! DEFINITION. Decode.lean: the command word of 30_encoding.md (R60 to R66): fields, formats and masks, the opcode map,
decoding, encoding. Decoding is total; a word that is no command is rejected under a name of `Illegal`. -/

namespace Sys2Proof

/-- Why R65 answers ILLEGAL for a word. All three have the one effect of R180. -/
inductive Illegal where
  /-- The OP value is not in the opcode map (R66). -/
  | unassignedOp
  /-- The OP value is assigned and a must-be-zero bit is set (R62, R66). -/
  | mustBeZero
  /-- The glyph slot of LOAD_GLYPH or SET_LETTER is not below N (R65). -/
  | glyphSlot
  deriving DecidableEq, Repr

/-- The formats of R62. -/
inductive Format where
  | N | F | S | SF | SA | SAD | SKAD | SD | SH | D | W
  deriving DecidableEq, Repr

/-- The mask column of R62: 1 at the opcode and at every must-be-zero bit. -/
def Format.mask : Format → Word
  | .N    => 0xFFFFFFFF
  | .F    => 0xFFFF0000
  | .S    => 0xFC03FFFF
  | .SF   => 0xFC030000
  | .SA   => 0xFC0300FF
  | .SAD  => 0xFC030000
  | .SKAD => 0xFC020000
  | .SD   => 0xFC03FF00
  | .SH   => 0xFC01FFFF
  | .D    => 0xFFFFFF00
  | .W    => 0xFFFFFFFE

/-- Field OP, bits 31:26 (R61). -/
def opField (w : Word) : BitVec 6 := w.extractLsb' 26 6
/-- Field S, bits 25:18 (R61). -/
def sField (w : Word) : Byte := w.extractLsb' 18 8
/-- Field H, bit 17 (R61). -/
def hField (w : Word) : Bool := w.getLsbD 17
/-- Field K, bit 16 (R61). -/
def kField (w : Word) : Bool := w.getLsbD 16
/-- Field A, bits 15:8 (R61). -/
def aField (w : Word) : Byte := w.extractLsb' 8 8
/-- Field D, bits 7:0 (R61). -/
def dField (w : Word) : Byte := w.extractLsb' 0 8
/-- Field F, bits 15:0 (R61). -/
def fField (w : Word) : Frame := w.extractLsb' 0 16
/-- Field W, bit 0 (R61). -/
def wField (w : Word) : Bool := w.getLsbD 0

/-- A row of the opcode map R64: opcode, mnemonic, format and the command its fields make. -/
structure Row where
  op : BitVec 6
  mnemonic : String
  fmt : Format
  build : Word → Instr

/-- R64, the transport and chip rows. -/
def opTableLow : List Row :=
  [ ⟨0x00, "NOP", .N, fun _ => .nop⟩,
    ⟨0x01, "SESSION_OPEN", .N, fun _ => .sessionOpen⟩,
    ⟨0x02, "SESSION_SEND", .F, fun w => .sessionSend (fField w)⟩,
    ⟨0x03, "SESSION_CLOSE", .N, fun _ => .sessionClose⟩,
    ⟨0x04, "COUNT_DEVICES", .N, fun _ => .countDevices⟩,
    ⟨0x05, "RAW_EXCHANGE", .F, fun w => .rawExchange (fField w)⟩,
    ⟨0x06, "RAW_CLOSE", .N, fun _ => .rawClose⟩,
    ⟨0x08, "CHIP_SET_PENDING", .SF, fun w => .chipSetPending (sField w) (fField w)⟩,
    ⟨0x09, "GET_PENDING", .S, fun w => .getPending (sField w)⟩,
    ⟨0x0A, "CHIP_LATCH", .S, fun w => .chipLatch (sField w)⟩,
    ⟨0x0B, "GET_LATCHED", .SA, fun w => .getLatched (sField w) (aField w)⟩ ]

/-- R64, the chain, pixel, glyph, scroll and configuration rows. -/
def opTableHigh : List Row :=
  [ ⟨0x10, "SET_REGISTER", .SAD, fun w => .setRegister (sField w) (aField w) (dField w)⟩,
    ⟨0x11, "RESET_REGISTERS", .N, fun _ => .resetRegisters⟩,
    ⟨0x18, "SET_LED", .SKAD, fun w => .setLed (sField w) (kField w) (aField w) (dField w)⟩,
    ⟨0x19, "RESET_LED_AT", .SAD, fun w => .resetLedAt (sField w) (aField w) (dField w)⟩,
    ⟨0x1A, "SET_ROW", .SD, fun w => .setRow (sField w) (dField w)⟩,
    ⟨0x1B, "LOAD_GLYPH", .SH, fun w => .loadGlyph (sField w) (hField w)⟩,
    ⟨0x1C, "SET_LETTER", .SD, fun w => .setLetter (sField w) (dField w)⟩,
    ⟨0x1D, "SET_WORD", .D, fun w => .setWord (dField w)⟩,
    ⟨0x20, "CYCLE_STEPS", .N, fun _ => .cycleSteps⟩,
    ⟨0x21, "CYCLE_SET", .N, fun _ => .cycleSet⟩,
    ⟨0x22, "SET_CYCLE", .W, fun w => .setCycle (wField w)⟩,
    ⟨0x23, "GET_CYCLE", .N, fun _ => .getCycle⟩,
    ⟨0x24, "SET_CYCLE_DELAY", .N, fun _ => .setCycleDelay⟩,
    ⟨0x25, "GET_CYCLE_DELAY", .N, fun _ => .getCycleDelay⟩ ]

/-- The opcode map R64. -/
def opTable : List Row := opTableLow ++ opTableHigh

/-- `match = OP << 26` (R62). -/
def matchWord (op : BitVec 6) : Word := op.setWidth 32 <<< 26

/-- R62: a word matches a row when `(word & mask) == match`. -/
def Row.accepts (r : Row) (w : Word) : Bool := w &&& r.fmt.mask == matchWord r.op

/-- The part of R65 that no parameter enters: the row of R64 with the word's OP, if its must-be-zero bits are zero.
Looking the row up by OP is R65's search, since every mask covers bits 31:26 and every row has its own OP. -/
def decodeWord (w : Word) : Except Illegal Instr :=
  match opTable.find? (fun r => r.op == opField w) with
  | none => .error .unassignedOp
  | some r => if r.accepts w then .ok (r.build w) else .error .mustBeZero

/-- R65 for a block of `n` devices: the opcode map, then the glyph slot checks. -/
def decode (n : Nat) (w : Word) : Except Illegal Instr :=
  match decodeWord w with
  | .error e => .error e
  | .ok i => if i.wf n then .ok i else .error .glyphSlot

/-- The word with the fields of R61: OP : S : H : K : A : D. -/
def cmdWord (op : BitVec 6) (s : Byte) (h k : Bool) (a d : Byte) : Word :=
  matchWord op ||| s.setWidth 32 <<< 18 ||| (BitVec.ofBool h).setWidth 32 <<< 17 |||
    (BitVec.ofBool k).setWidth 32 <<< 16 ||| a.setWidth 32 <<< 8 ||| d.setWidth 32

/-- The word of a command with a frame: OP : S : 00 : F (R61). -/
def frameWord (op : BitVec 6) (s : Byte) (f : Frame) : Word :=
  matchWord op ||| s.setWidth 32 <<< 18 ||| f.setWidth 32

/-- The command word of a command (R61, R62, R64). -/
def encode : Instr → Word
  | .nop => cmdWord 0x00 0 false false 0 0
  | .sessionOpen => cmdWord 0x01 0 false false 0 0
  | .sessionSend frm => frameWord 0x02 0 frm
  | .sessionClose => cmdWord 0x03 0 false false 0 0
  | .countDevices => cmdWord 0x04 0 false false 0 0
  | .rawExchange frm => frameWord 0x05 0 frm
  | .rawClose => cmdWord 0x06 0 false false 0 0
  | .chipSetPending scr frm => frameWord 0x08 scr frm
  | .getPending scr => cmdWord 0x09 scr false false 0 0
  | .chipLatch scr => cmdWord 0x0A scr false false 0 0
  | .getLatched scr adr => cmdWord 0x0B scr false false adr 0
  | .setRegister scr adr dat => cmdWord 0x10 scr false false adr dat
  | .resetRegisters => cmdWord 0x11 0 false false 0 0
  | .setLed scr coord adr dat => cmdWord 0x18 scr false coord adr dat
  | .resetLedAt scr adr dat => cmdWord 0x19 scr false false adr dat
  | .setRow scr dat => cmdWord 0x1A scr false false 0 dat
  | .loadGlyph scr half => cmdWord 0x1B scr half false 0 0
  | .setLetter scr dat => cmdWord 0x1C scr false false 0 dat
  | .setWord dat => cmdWord 0x1D 0 false false 0 dat
  | .cycleSteps => cmdWord 0x20 0 false false 0 0
  | .cycleSet => cmdWord 0x21 0 false false 0 0
  | .setCycle wrap => cmdWord 0x22 0 false false 0 (BitVec.setWidth 8 (BitVec.ofBool wrap))
  | .getCycle => cmdWord 0x23 0 false false 0 0
  | .setCycleDelay => cmdWord 0x24 0 false false 0 0
  | .getCycleDelay => cmdWord 0x25 0 false false 0 0

/-- The command word in the opcode table's bit numbering: `nbits` bits of `w`, every higher bit zero. -/
def tableWord (nbits w : Nat) : Word := BitVec.ofNat 32 (w % 2 ^ nbits)

/-- What the decoder reads from a word of the opcode table. The slot checks of R65 need the block's N and are applied
where a step decodes (`decode`), so that this answer is the same for every N. -/
def decodeTableWord (nbits w : Nat) : Option Instr :=
  (decodeWord (tableWord nbits w)).toOption

end Sys2Proof
end

