-- ==== Sys2Proof/Config.lean ====
section
/-! DEFINITION. Config.lean: what is fixed at construction (00_scope.md R5) and the free values the spec leaves open
(93_implementation_defined.md). -/

namespace Sys2Proof

/-- GLYPH_RENDER (R5, U7): the spec's default map (R151), or any other map, which is then the opaque
`Config.customRender`. -/
inductive Render where
  | byDefault
  | custom
  deriving DecidableEq, Repr

/-- The construction parameters of R5. They are fixed: no step and no reset changes them (R195, R199). HALF_PERIOD_NS is
the separate constant `Config.halfPeriodNs`; NREG = 16 and FRAME_W = 16 are the types; SENTINEL is `Config.sentinel`. -/
structure Params where
  /-- `N`, the number of chained devices: 1..255 (R5, D6). -/
  n : Nat
  /-- `COL(1) .. COL(8)`, in order (R5, R56). -/
  cols : Vector Byte 8
  addrDecodeMode : Byte
  addrIntensity : Byte
  addrScanLimit : Byte
  addrShutdown : Byte
  addrDisplayTest : Byte
  rvDecodeOff : Byte
  rvIntensityMax : Byte
  rvScanLimitAll : Byte
  rvShutdownRun : Byte
  rvDisplayTestOff : Byte
  render : Render
  deriving DecidableEq, Repr

/-- The address parameters of R5, column registers first. -/
def Params.addresses (p : Params) : List Byte :=
  p.cols.toList ++ [p.addrDecodeMode, p.addrIntensity, p.addrScanLimit, p.addrShutdown, p.addrDisplayTest]

/-- The constraints R5 puts on the parameters: N in 1..255, and the addresses pairwise distinct, each in 1..15. -/
abbrev Params.Legal (p : Params) : Prop :=
  (1 ≤ p.n ∧ p.n ≤ 255) ∧ p.addresses.Nodup ∧ ∀ a ∈ p.addresses, 1 ≤ a.toNat ∧ a.toNat ≤ 15

/-- The defaults of R5 and R56 for everything but N (PRESUMED by the spec itself from the driven chip family, G1 and
G2; log 6), with N given. -/
def Params.withDevices (n : Nat) : Params where
  n := n
  cols := #v[1, 2, 3, 4, 5, 6, 7, 8]
  addrDecodeMode := 0x09
  addrIntensity := 0x0A
  addrScanLimit := 0x0B
  addrShutdown := 0x0C
  addrDisplayTest := 0x0F
  rvDecodeOff := 0x00
  rvIntensityMax := 0x0F
  rvScanLimitAll := 0x07
  rvShutdownRun := 0x01
  rvDisplayTestOff := 0x00
  render := .byDefault

/-- The parameters `State.reset` is built with: four devices, as in the spec's program P1 (DESIGN CHOICE: R5 leaves N
open in 1..255; unsafe only for a claim about `State.reset` itself; log 5). -/
def Params.default : Params := Params.withDevices 4

/-- The `k`-th DIN sample of a run when the environment has given none (R6(3), U1): a FREE VALUE, nothing constrains it
(log 4). -/
opaque Config.freeDin : Nat → Bool

/-- A GLYPH_RENDER other than the spec's default (R5, U7): glyph and column number 1..8 to column byte; a FREE VALUE
(log 8). -/
opaque Config.customRender : Glyph → Nat → Byte

/-- HALF_PERIOD_NS less one: OPEN (R5, R91, U4), a FREE VALUE (log 7). -/
opaque Config.halfPeriodPred : Nat

/-- HALF_PERIOD_NS: a positive integer, otherwise open (R5, D7). -/
def Config.halfPeriodNs : Nat := Config.halfPeriodPred + 1

/-- SENTINEL, the device-count sentinel data byte (R5, R107). -/
def Config.sentinel : Byte := 0xFF

/-- How many dummy exchanges of COUNT_DEVICES one transition holds at most (DESIGN CHOICE, safe: the command goes on
from where it stands in the next step; log 3). It is above every N that R5 allows. -/
def Config.countBudget : Nat := 256

end Sys2Proof
end

