-- ==== Sys2Proof/Machine/State.lean ====
section
/-! DEFINITION. Machine/State.lean: the block's state (10_state.md), the host's and the chain's inputs, what the outside
sees, and the reset state (R31). Plain data throughout. -/

namespace Sys2Proof.Machine

/-- The block's output pins (R22). -/
inductive OutPin where
  | clk
  | dout
  | loadN
  deriving DecidableEq, Repr

/-- What the chain side of the block shows (R8(a)): a pin event, a wait event or a sample event of R10, or a reset. -/
inductive Event where
  /-- `Pin(P) <- b` (R10). -/
  | pin (p : OutPin) (b : Bool)
  /-- `Wait(HALF_PERIOD_NS)` (R91). -/
  | waitHalf
  /-- `Wait(t)` with `t` nanoseconds: the inter-step wait of the scroll commands (R30, R168). -/
  | waitDelay (ns : Word)
  /-- `Sample()` with the bit it drew (R10). -/
  | sample (b : Bool)
  /-- The reset input was taken: the pins went to their reset levels at once (R195, R196; log 10). -/
  | reset
  deriving DecidableEq, Repr

/-- The four host registers (R24). -/
inductive HostReg where
  | cmd
  | arg
  | result
  | status
  deriving DecidableEq, Repr

/-- What can come from outside: a host access of one whole word (R24), or the reset input (R195). -/
inductive Input where
  | write (r : HostReg) (v : Word)
  | read (r : HostReg)
  | reset
  deriving DecidableEq, Repr

/-- One coming input and when it lands. `during = none`: once no command runs. `during = some d`: after `d` more events of
the running command, in whichever of its transitions they fall, and before BUSY falls if it has fewer; if no command runs,
at once. (Log 1, 2.) -/
structure Arrival where
  input : Input
  during : Option Nat
  deriving DecidableEq, Repr

/-- What the controller is doing; BUSY is "not idle" (R25, R28). `elapsed` counts the events of the present transition
that are over when the last access landed (log 2). -/
inductive Activity where
  | idle
  /-- A CMD write of `w` was accepted and the command has not ended (R25). -/
  | accepted (w : Word) (elapsed : Nat)
  /-- COUNT_DEVICES is inside its loop with the count `n` (R107, R108(c)). -/
  | counting (n : Word) (elapsed : Nat)
  deriving DecidableEq, Repr

/-- The latched registers of one chip, addresses 0..15 (R14). -/
abbrev LatFile := Vector Frame 16

/-- The block (R13, R31), its parameters (R5), its coming inputs and what it has shown (R8). -/
structure State where
  /-- The construction parameters (R5): no step changes them. -/
  par : Params
  /-- LAT, chip index 0 first (R14). -/
  lat : List LatFile
  /-- PEND, chip index 0 first (R16). -/
  pend : List Frame
  /-- WRAP (R18). -/
  wrap : Bool
  /-- CYCLE_DELAY (R19). -/
  cycleDelay : Word
  /-- GLYPH, slot 0 first (R20). -/
  glyph : List Glyph
  /-- EN (R21). -/
  en : Bool
  /-- Pin CLK (R22). -/
  clk : Bool
  /-- Pin DOUT (R22). -/
  dout : Bool
  /-- Pin LOAD_N (R22). -/
  loadN : Bool
  /-- ARG (R26). -/
  arg : Word
  /-- RESULT (R27). -/
  result : Word
  /-- STATUS.ILL (R28). -/
  ill : Bool
  /-- STATUS.OVR (R28). -/
  ovr : Bool
  /-- The running command, BUSY among it (R25, R28). -/
  activity : Activity
  /-- The model's own: host accesses and resets to come, oldest first (log 1). -/
  inbox : List Arrival
  /-- The model's own: DIN samples the environment has fixed, next one first (log 4). -/
  dinIn : List Bool
  /-- The model's own: how many DIN samples have been drawn (log 4). -/
  drawn : Nat
  /-- The model's own record: every event so far, newest first (R8(a), log 9). -/
  trace : List Event
  /-- The model's own record: every value the host has read, newest first (R8(b), log 9). -/
  returned : List (HostReg × Word)
  deriving DecidableEq, Repr

/-- A reason for the machine to stop with a fault: there is none, "No exception is ever raised" (R179; log 21). -/
inductive Fault where
  deriving DecidableEq, Repr

/-- A reason to give an instruction no meaning. -/
inductive Refusal where
  /-- The interface's own constructor: raised by an arm of `exec` for an instruction with no meaning yet; no arm raises
  it, every command has its meaning. Raising it would be safe. -/
  | notModelled (mnemonic : String)
  deriving DecidableEq, Repr

/-- The state after construction or reset with parameters `p` (R31, R195): nothing outstanding, nothing shown. -/
def State.resetWith (p : Params) : State where
  par := p
  lat := List.replicate p.n (Vector.replicate 16 0)
  pend := List.replicate p.n 0
  wrap := true
  cycleDelay := 50
  glyph := List.replicate p.n 0
  en := false
  clk := false
  dout := false
  loadN := true
  arg := 0
  result := 0
  ill := false
  ovr := false
  activity := .idle
  inbox := []
  dinIn := []
  drawn := 0
  trace := []
  returned := []

/-- The machine right after reset (R31, R195), with the default parameters. -/
def State.reset : State := State.resetWith Params.default

end Sys2Proof.Machine
end

