-- ==== Sys2Proof/Machine/Flags.lean ====
section
/-! DEFINITION. Machine/Flags.lean: the STATUS word and its flags (10_state.md R28, R29; 60_exceptions.md R180, R184).
The block has no condition codes (R13). -/

namespace Sys2Proof.Machine

/-- STATUS.BUSY: 1 while a command executes (R25, R28). -/
def State.busy (s : State) : Bool :=
  match s.activity with
  | .idle => false
  | .accepted _ _ => true
  | .counting _ _ => true

/-- STATUS as the host reads it: OVR, ILL, EN, BUSY in bits 3..0, bits 31:4 read as 0 (R28). -/
def State.statusWord (s : State) : Word :=
  (BitVec.ofBool s.ovr).setWidth 32 <<< 3 ||| (BitVec.ofBool s.ill).setWidth 32 <<< 2 |||
    (BitVec.ofBool s.en).setWidth 32 <<< 1 ||| (BitVec.ofBool s.busy).setWidth 32

/-- An illegal command word: ILL is set and nothing else changes (R180). -/
def illegalWord (s : State) : State := { s with ill := true }

/-- A CMD or ARG write while BUSY = 1: OVR is set and the word is dropped (R29). -/
def overrun (s : State) : State := { s with ovr := true }

/-- A host write to STATUS: bit 2 clears ILL, bit 3 clears OVR, every other bit is ignored (R28, R184). -/
def writeStatus (v : Word) (s : State) : State :=
  { s with ill := s.ill && !v.getLsbD 2, ovr := s.ovr && !v.getLsbD 3 }

end Sys2Proof.Machine
end

