-- ==== Sys2Proof/Machine/Operands.lean ====
section
/-! DEFINITION. Machine/Operands.lean: how an operand names a chip, a register, a column, a row, a pixel or a data byte:
the frame packing (R53), the parameter maps COL, RV and GLYPH_RENDER (R56, R58, R151), ROWMASK (R59), ChipOf (R113) and the
reads of the mirror (R115, R116, R140). -/

namespace Sys2Proof.Machine

/-- `pack(a, d) = (a << 8) | d` (R53). -/
def pack (a d : Byte) : Frame := a.setWidth 16 <<< 8 ||| d.setWidth 16

/-- `addr(f) = f[15:8]` (R53). -/
def addrOf (f : Frame) : Byte := f.extractLsb' 8 8

/-- `data(f) = f[7:0]` (R53). -/
def dataOf (f : Frame) : Byte := f.extractLsb' 0 8

/-- `COL(c)`, c in 1..8: the register address of column c (R5, R56). -/
def col (p : Params) (c : Nat) : Byte := (p.cols[c - 1]?).getD 0

/-- `RV(a)`: the reset data byte of register address a (R58). -/
def resetByte (p : Params) (a : Byte) : Byte :=
  if a = p.addrDecodeMode then p.rvDecodeOff
  else if a = p.addrIntensity then p.rvIntensityMax
  else if a = p.addrScanLimit then p.rvScanLimitAll
  else if a = p.addrShutdown then p.rvShutdownRun
  else if a = p.addrDisplayTest then p.rvDisplayTestOff
  else 0

/-- `ROWMASK(r) = 1 << (r − 1)`, r in 1..8 (R59). -/
def rowMask (r : Byte) : Byte := 1#8 <<< (r.toNat - 1)

/-- Columns and rows are numbered 1..8 (R59, R61). -/
def inOneToEight (v : Byte) : Bool := decide (1 ≤ v.toNat ∧ v.toNat ≤ 8)

/-- The default glyph map of R151: bit y of column c's byte is pixel `G[8y + (c − 1)]`. -/
def defaultColumnByte (g : Glyph) (c : Nat) : Byte :=
  [7, 6, 5, 4, 3, 2, 1, 0].foldl (fun byte y => byte.shiftConcat (g.getLsbD (8 * y + (c - 1)))) 0#8

/-- `ColumnByte(G, c)` under the block's GLYPH_RENDER (R5, R151). -/
def columnByte (p : Params) (g : Glyph) (c : Nat) : Byte :=
  match p.render with
  | .byDefault => defaultColumnByte g c
  | .custom => Config.customRender g c

/-- `ChipOf(s)`: device number to chip index, an out-of-range number degrades to device 1 (R113). -/
def chipOf (n : Nat) (scr : Byte) : Nat :=
  if 1 ≤ scr.toNat ∧ scr.toNat ≤ n then scr.toNat - 1 else 0

/-- A read of one chip's latched registers: 0 for an address above 15 (R115). -/
def regAt (r : LatFile) (a : Byte) : Frame := (r[a.toNat]?).getD 0

/-- `GetLatched(i, a)` (R115). Every use has i < N; elsewhere the answer is 0 (log 17). -/
def State.latched (s : State) (i : Nat) (a : Byte) : Frame :=
  match s.lat[i]? with
  | some r => regAt r a
  | none => 0

/-- `GetPending(i)` (R116). Every use has i < N; elsewhere the answer is 0 (log 17). -/
def State.pending (s : State) (i : Nat) : Frame := (s.pend[i]?).getD 0

/-- `GLYPH[g]` (R20). Every use has g < N (R65, R157); elsewhere the answer is 0 (log 17). -/
def State.glyphAt (s : State) (g : Nat) : Glyph := (s.glyph[g]?).getD 0

/-- `LowByteAt(s, a)`: the column byte of device s, 0x00 for a device number out of range (R140). -/
def State.lowByteAt (s : State) (scr : Byte) (a : Byte) : Byte :=
  if 1 ≤ scr.toNat ∧ scr.toNat ≤ s.par.n then dataOf (s.latched (scr.toNat - 1) a) else 0

/-- The new column byte of chip i in a scroll step: the byte shifted left by one, with bit 7 of the next-nearer chip
entering at bit 0; chip 0 receives bit 7 of the farthest chip if WRAP = 1 and 0 otherwise (R160). -/
def State.scrolledByte (s : State) (a : Byte) (i : Nat) : Byte :=
  let carry : Bool :=
    if 1 ≤ i then (s.latched (i - 1) a).getLsbD 7
    else s.wrap && (s.latched (s.par.n - 1) a).getLsbD 7
  (dataOf (s.latched i a)).shiftConcat carry

/-- The `j`-th DIN sample to come: the one the environment has fixed, or a free draw (R6(3), U1; log 4). -/
def State.draw (s : State) (j : Nat) : Bool := (s.dinIn[j]?).getD (Config.freeDin (s.drawn + j))

end Sys2Proof.Machine
end

