-- ==== Sys2Proof/Machine/Ops.lean ====
section
/-! DEFINITION. Machine/Ops.lean: the shared operations. Pins, waits and samples (R10); the transport's Open, Close and
Exchange (R92 to R94); the chip registers' writes (R114, R116); ChainSend and ChainClose (R98, R99); sessions and WriteChip
(R97, R125); the reset (R195).

The block takes no exception and returns from none (R179, R183). What stands in that place is `illegalWord` (R180) and
`overrun` (R29) of Machine/Flags.lean, and the reset `resetKeepingRecord` below. -/

namespace Sys2Proof.Machine

/-- Record an event (R8). -/
def State.emit (e : Event) (s : State) : State := { s with trace := e :: s.trace }

/-- `Pin(CLK) <- b`. -/
def driveClk (b : Bool) (s : State) : State := { s with clk := b, trace := .pin .clk b :: s.trace }

/-- `Pin(DOUT) <- b`. -/
def driveDout (b : Bool) (s : State) : State := { s with dout := b, trace := .pin .dout b :: s.trace }

/-- `EN <- b` and, with no wait, `Pin(LOAD_N) <- ~b` through the polarity adapter (R90). -/
def driveEnable (b : Bool) (s : State) : State :=
  { s with en := b, loadN := !b, trace := .pin .loadN (!b) :: s.trace }

/-- `Wait(HALF_PERIOD_NS)` (R91): an event, no other change. -/
def waitHalf (s : State) : State := s.emit .waitHalf

/-- `Wait(CYCLE_DELAY)` (R168, R169): an event carrying the number, no other change. -/
def waitDelay (s : State) : State := s.emit (.waitDelay s.cycleDelay)

/-- `Sample()`: the next DIN draw and the state after it (R10). -/
def sample (s : State) : Bool × State :=
  (s.draw 0,
   { s with dinIn := s.dinIn.tail, drawn := s.drawn + 1, trace := .sample (s.draw 0) :: s.trace })

/-- `Open()` (R92). -/
def openLine (s : State) : State := driveEnable true s

/-- `Close()` (R93). -/
def closeLine (s : State) : State := waitHalf (driveEnable false (waitHalf s))

/-- The loop of `Exchange` over the `k` bits still to send: `t` the transmit shift value, `r` the receive value (R94). -/
def exchangeBits : Nat → Frame → Frame → State → Frame × State
  | 0, _, r, s => (r, s)
  | k + 1, t, r, s =>
    let (b, s) := sample (waitHalf (driveClk true (waitHalf (driveDout (t.getLsbD 15) s))))
    exchangeBits k (t.shiftConcat false) (r.shiftConcat b) (driveClk false s)

/-- `Exchange(out) -> in` (R94): 16 bit periods, most significant bit first. -/
def exchange (out : Frame) (s : State) : Frame × State := exchangeBits 16 out 0 s

/-- The pending registers after one chain send of `f`: each takes its nearer neighbour's value, the nearest takes `f`,
the farthest value is discarded (R98). -/
def shiftIn (f : Frame) (pend : List Frame) : List Frame := (f :: pend).take pend.length

/-- `ChainSend(f) -> in`: the mirror shift, then the exchange (R98, R46). -/
def chainSend (f : Frame) (s : State) : Frame × State :=
  exchange f { s with pend := shiftIn f s.pend }

/-- `Latch` on one chip: the whole frame goes into the slot its address byte names, an address above 15 does nothing
(R114, C1). -/
def latchInto (f : Frame) (r : LatFile) : LatFile :=
  if h : (addrOf f).toNat < 16 then r.set (addrOf f).toNat f h else r

/-- `Latch(i)` (R114). -/
def latchChip (i : Nat) (s : State) : State :=
  { s with lat := s.lat.modify i (latchInto (s.pending i)) }

/-- The latch of every chip at a chain close. Each latch reads only its own chip's pending register, so the order of
R99's loop does not matter and all latch at once. -/
def latchAll (s : State) : State := { s with lat := List.zipWith latchInto s.pend s.lat }

/-- `ChainClose()`: the physical close, then the latch of every chip (R99). -/
def chainClose (s : State) : State := latchAll (closeLine s)

/-- `for j = n downto 1: ChainSend(f j)`, the returned frames discarded (R125, R131, R160). -/
def sendDown (f : Nat → Frame) : Nat → State → State
  | 0, s => s
  | j + 1, s => sendDown f j (chainSend (f (j + 1)) s).2

/-- A session of N frames, the frame `f j` for device j: open, send from device N down to device 1, chain close
(R97, R125). -/
def session (f : Nat → Frame) (s : State) : State :=
  chainClose (sendDown f s.par.n (openLine s))

/-- The frame WriteChip sends at loop index `j`: the real frame where `j = k`, the no-op frame elsewhere (R54, R125). -/
def chipFrame (k : Nat) (f : Frame) (j : Nat) : Frame := if j = k then f else 0

/-- `WriteChip(k, a, d)` (R125). -/
def writeChip (k : Nat) (a d : Byte) (s : State) : State := session (chipFrame k (pack a d)) s

/-- The eight column numbers in ascending order. -/
def columns : List Nat := [1, 2, 3, 4, 5, 6, 7, 8]

/-- `SetLetter(s, G)`: the eight column bytes of a glyph into one device, column 8 first (R152, R153). -/
def setLetterOn (k : Nat) (g : Glyph) (s : State) : State :=
  columns.reverse.foldl (fun s c => writeChip k (col s.par c) (columnByte s.par g c) s) s

/-- One column session of a scroll step: N real frames, the new bytes computed from the values before the session
(R160, R161). -/
def scrollColumn (s : State) (c : Nat) : State :=
  session (fun j => pack (col s.par c) (s.scrolledByte (col s.par c) (j - 1))) s

/-- `ScrollStep()`: one session per column, then the extra Open and ChainClose with no frame (R160). -/
def scrollStep (s : State) : State := chainClose (openLine (columns.foldl scrollColumn s))

/-- `CycleSteps(n)`: n scroll steps with a wait of CYCLE_DELAY between two steps (R168). -/
def cycleStepsOf : Nat → State → State
  | 0, s => s
  | 1, s => scrollStep s
  | n + 2, s => cycleStepsOf (n + 1) (waitDelay (scrollStep s))

/-- One address pass of RESET_REGISTERS: a session of N frames `pack(a, RV(a))` (R131). -/
def resetPass (s : State) (a : Nat) : State :=
  session (fun _ => pack (BitVec.ofNat 8 a) (resetByte s.par (BitVec.ofNat 8 a))) s

/-- The flush of RESET_REGISTERS: sessions of one no-op frame each (R131, R133). -/
def flush : Nat → State → State
  | 0, s => s
  | m + 1, s => flush m (chainClose (chainSend 0 (openLine s)).2)

/-- The loop of COUNT_DEVICES for at most `budget` more dummy exchanges, `n` counted so far (R107). Where the sentinel
comes back the line is closed, the mirror is not latched, and RESULT is the count; where the budget ends first the command
is still running (R108(c); log 3). -/
def countLoop : Nat → Word → State → State
  | 0, n, s => { s with activity := .counting n 0 }
  | budget + 1, n, s =>
    let (r, s) := exchange 0 s
    if dataOf r = Config.sentinel then { closeLine s with result := n + 1 }
    else countLoop budget (n + 1) s

/-- The command in progress is over: BUSY falls (R25). -/
def State.retire (s : State) : State := { s with activity := .idle }

/-- The reset input: every piece of the block's state takes its value of R31; the parameters stay (R195), and so do the
outside world's side, what is still to come and what has been shown (log 10). A running command is over at once (R196). -/
def resetKeepingRecord (s : State) : State :=
  { State.resetWith s.par with
    inbox := s.inbox
    dinIn := s.dinIn
    drawn := s.drawn
    trace := .reset :: s.trace
    returned := s.returned }

end Sys2Proof.Machine
end

