-- ==== Sys2Proof/Machine/ChainWrite.lean ====
section
/-! DEFINITION. Machine/ChainWrite.lean: SET_REGISTER and RESET_REGISTERS of 42_chain_write.md (R129 to R133). -/

namespace Sys2Proof.Machine
open Host (Outcome)

/-- SET_REGISTER s, a, d (R129). -/
def execSetRegister (scr adr dat : Byte) (s : State) : Outcome State Fault Refusal :=
  .next (writeChip scr.toNat adr dat s)

/-- RESET_REGISTERS (R131): one address pass per address 0..15, then N flush sessions. -/
def execResetRegisters (s : State) : Outcome State Fault Refusal :=
  .next (flush s.par.n ((List.range 16).foldl resetPass s))

end Sys2Proof.Machine
end

