-- ==== Sys2Proof/Machine/ChipRegs.lean ====
section
/-! DEFINITION. Machine/ChipRegs.lean: the chip-level commands of 41_chip_register_model.md (R118 to R121). They act on the
mirror only; no pin changes. -/

namespace Sys2Proof.Machine
open Host (Outcome)

/-- CHIP_SET_PENDING s, f (R118). -/
def execChipSetPending (scr : Byte) (frm : Frame) (s : State) : Outcome State Fault Refusal :=
  .next { s with pend := s.pend.set (chipOf s.par.n scr) frm }

/-- GET_PENDING s (R119). -/
def execGetPending (scr : Byte) (s : State) : Outcome State Fault Refusal :=
  .next { s with result := (s.pending (chipOf s.par.n scr)).setWidth 32 }

/-- CHIP_LATCH s (R120). -/
def execChipLatch (scr : Byte) (s : State) : Outcome State Fault Refusal :=
  .next (latchChip (chipOf s.par.n scr) s)

/-- GET_LATCHED s, a (R121). -/
def execGetLatched (scr adr : Byte) (s : State) : Outcome State Fault Refusal :=
  .next { s with result := (s.latched (chipOf s.par.n scr) adr).setWidth 32 }

end Sys2Proof.Machine
end

