-- ==== Sys2Proof/Machine/GlyphCmds.lean ====
section
/-! DEFINITION. Machine/GlyphCmds.lean: LOAD_GLYPH, SET_LETTER and SET_WORD of 43_pixel_glyph.md (R149 to R157). A glyph
slot not below N makes the word illegal (R65): a step does not let such a command reach its meaning, and the meanings give
it the illegal word's effect (R180; log 12). -/

namespace Sys2Proof.Machine
open Host (Outcome)

/-- One half of a glyph replaced: half 0 is rows 0..3, half 1 is rows 4..7 (R150). -/
def withHalf (g : Glyph) (half : Bool) (v : Word) : Glyph :=
  if half then v.setWidth 64 <<< 32 ||| (g.extractLsb' 0 32).setWidth 64
  else (g.extractLsb' 32 32).setWidth 64 <<< 32 ||| v.setWidth 64

/-- LOAD_GLYPH slot, half (R150). -/
def execLoadGlyph (scr : Byte) (half : Bool) (s : State) : Outcome State Fault Refusal :=
  if scr.toNat < s.par.n then
    .next { s with glyph := s.glyph.set scr.toNat (withHalf (s.glyphAt scr.toNat) half s.arg) }
  else .next (illegalWord s)

/-- SET_LETTER s, slot (R153). -/
def execSetLetter (scr dat : Byte) (s : State) : Outcome State Fault Refusal :=
  if dat.toNat < s.par.n then .next (setLetterOn scr.toNat (s.glyphAt dat.toNat) s)
  else .next (illegalWord s)

/-- The loop of SET_WORD for the devices up to `k` of a word of `len` characters: device j gets slot `len − j` (R156). -/
def wordTo (len : Nat) : Nat → State → State
  | 0, s => s
  | k + 1, s =>
    let s := wordTo len k s
    setLetterOn (k + 1) (s.glyphAt (len - (k + 1))) s

/-- SET_WORD length (R156): the length is trimmed to N. -/
def execSetWord (dat : Byte) (s : State) : Outcome State Fault Refusal :=
  let len := min dat.toNat s.par.n
  .next (wordTo len len s)

end Sys2Proof.Machine
end

