-- ==== Sys2Proof/Machine/Pixel.lean ====
section
/-! DEFINITION. Machine/Pixel.lean: SET_LED, RESET_LED_AT and SET_ROW of 43_pixel_glyph.md (R141 to R148). -/

namespace Sys2Proof.Machine
open Host (Outcome)

/-- SET_LED (R141): a column outside 1..8, or with K = 1 a row outside 1..8, does nothing. -/
def execSetLed (scr : Byte) (coord : Bool) (adr dat : Byte) (s : State) : Outcome State Fault Refusal :=
  if inOneToEight adr then
    let a := col s.par adr.toNat
    if coord then
      if inOneToEight dat then .next (writeChip scr.toNat a (s.lowByteAt scr a ||| rowMask dat) s)
      else .next s
    else .next (writeChip scr.toNat a dat s)
  else .next s

/-- RESET_LED_AT (R144): a row outside 1..8 zeroes the column (C4), a column outside 1..8 does nothing. -/
def execResetLedAt (scr adr dat : Byte) (s : State) : Outcome State Fault Refusal :=
  if inOneToEight adr then
    let a := col s.par adr.toNat
    .next (writeChip scr.toNat a (if inOneToEight dat then s.lowByteAt scr a &&& ~~~(rowMask dat) else 0) s)
  else .next s

/-- The write of column `c` in SET_ROW: bit c − 1 of the row bits is OR'ed into bit 0 of the column byte (R147). -/
def rowColumn (scr dat : Byte) (s : State) (c : Nat) : State :=
  let a := col s.par c
  writeChip scr.toNat a (s.lowByteAt scr a ||| (BitVec.ofBool (dat.getLsbD (c - 1))).setWidth 8) s

/-- SET_ROW s, rowbits (R147). -/
def execSetRow (scr dat : Byte) (s : State) : Outcome State Fault Refusal :=
  .next (columns.foldl (rowColumn scr dat) s)

end Sys2Proof.Machine
end

