-- ==== Sys2Proof/Machine/Scroll.lean ====
section
/-! DEFINITION. Machine/Scroll.lean: the scroll and configuration commands of 44_scroll_config.md (R168 to R174). -/

namespace Sys2Proof.Machine
open Host (Outcome)

/-- CYCLE_STEPS (R168): the step count is ARG, unsigned. -/
def execCycleSteps (s : State) : Outcome State Fault Refusal := .next (cycleStepsOf s.arg.toNat s)

/-- CYCLE_SET (R170): a full cycle of 8 × N steps. -/
def execCycleSet (s : State) : Outcome State Fault Refusal := .next (cycleStepsOf (8 * s.par.n) s)

/-- SET_CYCLE w (R171). -/
def execSetCycle (wrap : Bool) (s : State) : Outcome State Fault Refusal := .next { s with wrap := wrap }

/-- GET_CYCLE (R172). -/
def execGetCycle (s : State) : Outcome State Fault Refusal :=
  .next { s with result := (BitVec.ofBool s.wrap).setWidth 32 }

/-- SET_CYCLE_DELAY (R173): ARG read as a signed number, a negative one clamped to 0. -/
def execSetCycleDelay (s : State) : Outcome State Fault Refusal :=
  .next { s with cycleDelay := if s.arg.toInt < 0 then 0 else s.arg }

/-- GET_CYCLE_DELAY (R174). -/
def execGetCycleDelay (s : State) : Outcome State Fault Refusal := .next { s with result := s.cycleDelay }

end Sys2Proof.Machine
end

