-- ==== Sys2Proof/Machine/Session.lean ====
section
/-! DEFINITION. Machine/Session.lean: the transport and session commands of 40_transport.md (R101 to R108). -/

namespace Sys2Proof.Machine
open Host (Outcome)

/-- NOP (R101). -/
def execNop (s : State) : Outcome State Fault Refusal := .next s

/-- SESSION_OPEN (R102). -/
def execSessionOpen (s : State) : Outcome State Fault Refusal := .next (openLine s)

/-- SESSION_SEND f (R103): RESULT is the frame sampled. -/
def execSessionSend (frm : Frame) (s : State) : Outcome State Fault Refusal :=
  let (r, s) := chainSend frm s
  .next { s with result := r.setWidth 32 }

/-- SESSION_CLOSE (R104). -/
def execSessionClose (s : State) : Outcome State Fault Refusal := .next (chainClose s)

/-- COUNT_DEVICES (R107): open, inject the sentinel, then count dummy exchanges. -/
def execCountDevices (s : State) : Outcome State Fault Refusal :=
  .next (countLoop Config.countBudget 0 (exchange (pack 0 Config.sentinel) (openLine s)).2)

/-- RAW_EXCHANGE f (R105): the mirror is not shifted. -/
def execRawExchange (frm : Frame) (s : State) : Outcome State Fault Refusal :=
  let (r, s) := exchange frm s
  .next { s with result := r.setWidth 32 }

/-- RAW_CLOSE (R106): the mirror is not latched. -/
def execRawClose (s : State) : Outcome State Fault Refusal := .next (closeLine s)

end Sys2Proof.Machine
end

