-- ==== Sys2Proof/Machine/Dispatch.lean ====
section
/-! DEFINITION. Machine/Dispatch.lean: one arm per command, each one call of its meaning. -/

namespace Sys2Proof.Machine
open Sys2Proof

def exec (i : Instr) (s : State) : Host.Outcome State Fault Refusal :=
  match i with
  | .nop => Sys2Proof.Machine.execNop s
  | .sessionOpen => Sys2Proof.Machine.execSessionOpen s
  | .sessionSend frm => Sys2Proof.Machine.execSessionSend frm s
  | .sessionClose => Sys2Proof.Machine.execSessionClose s
  | .countDevices => Sys2Proof.Machine.execCountDevices s
  | .rawExchange frm => Sys2Proof.Machine.execRawExchange frm s
  | .rawClose => Sys2Proof.Machine.execRawClose s
  | .chipSetPending scr frm => Sys2Proof.Machine.execChipSetPending scr frm s
  | .getPending scr => Sys2Proof.Machine.execGetPending scr s
  | .chipLatch scr => Sys2Proof.Machine.execChipLatch scr s
  | .getLatched scr adr => Sys2Proof.Machine.execGetLatched scr adr s
  | .setRegister scr adr dat => Sys2Proof.Machine.execSetRegister scr adr dat s
  | .resetRegisters => Sys2Proof.Machine.execResetRegisters s
  | .setLed scr coord adr dat => Sys2Proof.Machine.execSetLed scr coord adr dat s
  | .resetLedAt scr adr dat => Sys2Proof.Machine.execResetLedAt scr adr dat s
  | .setRow scr dat => Sys2Proof.Machine.execSetRow scr dat s
  | .loadGlyph scr half => Sys2Proof.Machine.execLoadGlyph scr half s
  | .setLetter scr dat => Sys2Proof.Machine.execSetLetter scr dat s
  | .setWord dat => Sys2Proof.Machine.execSetWord dat s
  | .cycleSteps => Sys2Proof.Machine.execCycleSteps s
  | .cycleSet => Sys2Proof.Machine.execCycleSet s
  | .setCycle wrap => Sys2Proof.Machine.execSetCycle wrap s
  | .getCycle => Sys2Proof.Machine.execGetCycle s
  | .setCycleDelay => Sys2Proof.Machine.execSetCycleDelay s
  | .getCycleDelay => Sys2Proof.Machine.execGetCycleDelay s

end Sys2Proof.Machine
end

