-- ==== Sys2Proof/Machine/Trace.lean ====
section
/-! DEFINITION. Machine/Trace.lean: readings of the event record: durations (R209, R210), samples, the level of the enable
line, and the frame-level view of R96. Event lists here run oldest first; `State.trace` runs newest first. -/

namespace Sys2Proof.Machine

/-- The least duration of an event in nanoseconds (R91, R210): waits are lower bounds, nothing else takes stated time. -/
def Event.ns : Event → Nat
  | .waitHalf => Config.halfPeriodNs
  | .waitDelay t => t.toNat
  | .pin _ _ => 0
  | .sample _ => 0
  | .reset => 0

/-- Half-period waits in a list of events (R209). -/
def halfPeriods (evs : List Event) : Nat := evs.countP (· = .waitHalf)

/-- The inter-step waits in a list of events (R168). -/
def delays (evs : List Event) : List Word :=
  evs.filterMap fun e => match e with
    | .waitDelay t => some t
    | .pin _ _ => none
    | .waitHalf => none
    | .sample _ => none
    | .reset => none

/-- How many DIN samples a list of events holds. -/
def sampleCount (evs : List Event) : Nat :=
  evs.countP fun e => match e with
    | .sample _ => true
    | .pin _ _ => false
    | .waitHalf => false
    | .waitDelay _ => false
    | .reset => false

/-- EN after a list of events (oldest first), from its value before: LOAD_N shows it inverted (R90), a reset clears it
(R195). -/
def enAfter (en : Bool) (evs : List Event) : Bool :=
  evs.foldl (fun b e => match e with
    | .pin .loadN v => !v
    | .pin .clk _ => b
    | .pin .dout _ => b
    | .waitHalf => b
    | .waitDelay _ => b
    | .sample _ => b
    | .reset => false) en

/-- The frame-level events of R96, with the inter-step wait it asks to keep. -/
inductive FrameEvent where
  | opened
  | frame (out inn : Frame)
  | closed
  | delay (ns : Word)
  deriving DecidableEq, Repr

/-- The six events of one bit period of an exchange (R94, R95): the bit sent and the bit sampled. -/
def bitEvents (out inn : Bool) : List Event :=
  [.pin .dout out, .waitHalf, .pin .clk true, .waitHalf, .sample inn, .pin .clk false]

/-- The bits of a frame in wire order, bit 15 first (R35). -/
def wireBits (f : Frame) : List Bool := (List.range 16).map fun j => f.getLsbD (15 - j)

/-- The pin-level events one frame-level event stands for (R92 to R96). -/
def FrameEvent.events : FrameEvent → List Event
  | .opened => [.pin .loadN false]
  | .frame out inn => (List.zipWith bitEvents (wireBits out) (wireBits inn)).flatten
  | .closed => [.waitHalf, .pin .loadN true, .waitHalf]
  | .delay t => [.waitDelay t]

/-- What the controller does on the line: the frame-level events of R96 less the received frames. -/
inductive LineAct where
  | opened
  | sent (f : Frame)
  | closed
  | delay (ns : Word)
  deriving DecidableEq, Repr

/-- The frame the sixteen DIN draws from the `off`-th on make: each draw enters bit 0 and the earlier ones move up, so
that the first one ends in bit 15 (R35, R94). -/
def State.drawnFrame (s : State) (off : Nat) : Frame :=
  (List.range 16).foldl (fun r j => r.shiftConcat (s.draw (off + j))) 0#16

/-- How many frames are exchanged. -/
def sentCount (acts : List LineAct) : Nat :=
  acts.countP fun a => match a with
    | .sent _ => true
    | .opened => false
    | .closed => false
    | .delay _ => false

/-- The frame-level events of a line activity that begins in state `s` after `off` draws: each exchange receives the next
sixteen draws. -/
def lineEvents (s : State) : Nat → List LineAct → List FrameEvent
  | _, [] => []
  | off, .opened :: as => .opened :: lineEvents s off as
  | off, .sent f :: as => .frame f (s.drawnFrame off) :: lineEvents s (off + 16) as
  | off, .closed :: as => .closed :: lineEvents s off as
  | off, .delay t :: as => .delay t :: lineEvents s off as

/-- Pin DOUT after a line activity: bit 0 of the last frame sent (R95). -/
def doutAfter (d : Bool) (acts : List LineAct) : Bool :=
  acts.foldl (fun b a => match a with
    | .sent f => f.getLsbD 0
    | .opened => b
    | .closed => b
    | .delay _ => b) d

/-- Device numbers N down to 1 (R125). -/
def devicesDown (n : Nat) : List Nat := (List.range' 1 n).reverse

/-- A session of one frame per device, farthest device first (R97, R125). -/
def sessionActs (n : Nat) (f : Nat → Frame) : List LineAct :=
  .opened :: (devicesDown n).map (fun j => .sent (f j)) ++ [.closed]

end Sys2Proof.Machine
end

