-- ==== Sys2Proof/Machine/HostPort.lean ====
section
/-! DEFINITION. Machine/HostPort.lean: the host's register interface (10_state.md R24 to R29). -/

namespace Sys2Proof.Machine

/-- The word offsets of the host registers (R24). -/
def HostReg.offset : HostReg → BitVec 2
  | .cmd => 0
  | .arg => 1
  | .result => 2
  | .status => 3

/-- The register at a word offset: all four offsets are implemented (R24, R32). -/
def HostReg.ofOffset (o : BitVec 2) : HostReg :=
  if o = 0 then .cmd else if o = 1 then .arg else if o = 2 then .result else .status

/-- What a host read of a register gives: CMD reads 0 (R24), STATUS is a view (R28). -/
def readReg (r : HostReg) (s : State) : Word :=
  match r with
  | .cmd => 0
  | .arg => s.arg
  | .result => s.result
  | .status => s.statusWord

/-- The host has read value `v` in register `r`: no side effect on the block (R29, R41), the value goes to the host's
record. -/
def State.answer (r : HostReg) (v : Word) (s : State) : State := { s with returned := (r, v) :: s.returned }

/-- A host write. CMD with BUSY = 0 starts a command (R25) and ARG with BUSY = 0 is stored (R26); both are dropped and set
OVR with BUSY = 1 (R29). RESULT ignores writes (R24); STATUS takes its write whatever BUSY is (R28, R184). -/
def hostWrite (r : HostReg) (v : Word) (s : State) : State :=
  match r with
  | .cmd => if s.busy then overrun s else { s with activity := .accepted v 0 }
  | .arg => if s.busy then overrun s else { s with arg := v }
  | .result => s
  | .status => writeStatus v s

/-- The events of the running transition that are over (log 2). -/
def State.elapsed (s : State) : Nat :=
  match s.activity with
  | .idle => 0
  | .accepted _ k => k
  | .counting _ k => k

/-- The running transition has come to its event number `k` (log 2). -/
def State.progressTo (k : Nat) (s : State) : State :=
  match s.activity with
  | .idle => s
  | .accepted w _ => { s with activity := .accepted w k }
  | .counting n _ => { s with activity := .counting n k }

end Sys2Proof.Machine
end

