-- ==== Sys2Proof/Machine/Fetch.lean ====
section
/-! DEFINITION. Machine/Fetch.lean: how an accepted command word runs (R25, R65, R180), how a step goes on without an input,
and how an input lands, also during a command (R29, R181, R196). -/

namespace Sys2Proof.Machine
open Sys2Proof
open Host (Outcome)

/-- An accepted command word: an illegal one sets ILL, a legal one executes its command's rule (R25, R65, R180). -/
def runWord (w : Word) (s : State) : Outcome State Fault Refusal :=
  match decode s.par.n w with
  | .error _ => .next (illegalWord s)
  | .ok i => exec i s

/-- What the controller does when no input lands: an accepted command runs and BUSY falls with its end (R25, R52),
COUNT_DEVICES goes on with its loop (R107, R108(c)), an idle block waits (R197). -/
def advance (s : State) : Outcome State Fault Refusal :=
  match s.activity with
  | .idle => .next s
  | .accepted w _ => runWord w s.retire
  | .counting n _ => .next (countLoop Config.countBudget n s.retire)

/-- The state the running transition ends in if nothing lands in it. -/
def State.undisturbed (s : State) : State :=
  match advance s with
  | .next t => t
  | .fault _ => s
  | .refused _ => s

/-- The events of the running transition, oldest first. -/
def State.coming (s : State) : List Event :=
  (s.undisturbed.trace.take (s.undisturbed.trace.length - s.trace.length)).reverse

/-- Whether an input due after `d` more events of the running command falls in a later transition of it: the command goes
on after this transition, and the transition has fewer events (R40, R108(c); log 2, 3). -/
def State.fallsLater (s : State) (d : Nat) : Bool :=
  s.undisturbed.busy && decide (s.coming.length < s.elapsed + d)

/-- Whether an arrival waits: for the running command to end, or for a later transition of it. -/
def State.putsOff (s : State) (a : Arrival) : Bool :=
  match a.during with
  | none => true
  | some d => s.fallsLater d

/-- The arrival that lands now, and the ones after it: the oldest one, unless a command runs and it waits. -/
def State.nextArrival (s : State) : Option (Arrival × List Arrival) :=
  match s.inbox with
  | [] => none
  | a :: rest => if s.busy && s.putsOff a then none else some (a, rest)

/-- The running transition is taken before the oldest arrival lands: an arrival due so many events on is now due that many
fewer (log 2). -/
def State.carryOver (s : State) : State :=
  match s.inbox with
  | [] => s
  | ⟨_, none⟩ :: _ => s
  | ⟨a, some d⟩ :: rest => { s with inbox := ⟨a, some (s.elapsed + d - s.coming.length)⟩ :: rest }

/-- What a host read sees when the running transition has come to its event number `k`: EN follows the line (R28); RESULT
holds its old value until the last event is over, and past it, before BUSY falls, the new one (R27, R29, U8; log 2). ILL
is set as BUSY falls (R180; log 15). -/
def State.visibleAt (s : State) (k : Nat) : State :=
  { s with
    en := enAfter s.en (s.coming.take k)
    result := if s.coming.length < k then s.undisturbed.result else s.result }

/-- A reset when the running transition has come to its event number `k`: the events up to there have happened and their
samples are drawn, the command is over, and everything else of it is lost (R196; log 11). -/
def resetDuring (k : Nat) (s : State) : State :=
  let evs := s.coming.take k
  resetKeepingRecord
    { s with
      trace := evs.reverse ++ s.trace
      dinIn := s.dinIn.drop (sampleCount evs)
      drawn := s.drawn + sampleCount evs }

/-- An input lands: after `d` more events of the running transition, if one runs (log 2). -/
def land (a : Input) (d : Nat) (s : State) : State :=
  let k := s.elapsed + d
  match a with
  | .reset => resetDuring k s
  | .read r => (s.progressTo k).answer r (readReg r (s.visibleAt k))
  | .write r v => hostWrite r v (s.progressTo k)

end Sys2Proof.Machine
end

