-- ==== Sys2Proof/Machine/Step.lean ====
section
/-! DEFINITION. Machine/Step.lean: one step: the next input lands if it is due, and otherwise the controller goes on. -/

namespace Sys2Proof.Machine
open Sys2Proof

/-- One step of the block (R6, R25, R52): one host access or reset, or one command's transition. -/
def step (s : State) : Host.Outcome State Fault Refusal :=
  match s.nextArrival with
  | some (a, rest) => .next (land a.input (a.during.getD 0) { s with inbox := rest })
  | none => advance s.carryOver

/-- `s` with the CMD write of a table word just accepted (R25), so that the next step runs that command. The block fetches
no instruction (R33): the host's CMD write is what brings a command, and any access the host has outstanding is put off
until the command has ended (log 1). -/
def State.withFetchWord (s : State) (nbits w : Nat) : State :=
  { s with
    activity := .accepted (tableWord nbits w) 0
    inbox := s.inbox.map fun a => { a with during := none } }

end Sys2Proof.Machine
end

