-- ==== Sys2Proof/Machine/Asm.lean ====
section
/-! DEFINITION. Machine/Asm.lean: assembler syntax (30_encoding.md R67) and the pseudo-instructions (R68), as the host
writes they stand for. -/

namespace Sys2Proof.Machine
open Sys2Proof

/-- A mnemonic followed by its operands as decimal numbers, comma-separated (R67). -/
def asmText (mnemonic : String) : List Nat → String
  | [] => mnemonic
  | x :: xs => xs.foldl (fun t y => t ++ ", " ++ toString y) (mnemonic ++ " " ++ toString x)

/-- The mnemonic and the used fields of a command in R67's order. -/
def asmParts : Instr → String × List Nat
  | .nop => ("NOP", [])
  | .sessionOpen => ("SESSION_OPEN", [])
  | .sessionSend frm => ("SESSION_SEND", [frm.toNat])
  | .sessionClose => ("SESSION_CLOSE", [])
  | .countDevices => ("COUNT_DEVICES", [])
  | .rawExchange frm => ("RAW_EXCHANGE", [frm.toNat])
  | .rawClose => ("RAW_CLOSE", [])
  | .chipSetPending scr frm => ("CHIP_SET_PENDING", [scr.toNat, frm.toNat])
  | .getPending scr => ("GET_PENDING", [scr.toNat])
  | .chipLatch scr => ("CHIP_LATCH", [scr.toNat])
  | .getLatched scr adr => ("GET_LATCHED", [scr.toNat, adr.toNat])
  | .setRegister scr adr dat => ("SET_REGISTER", [scr.toNat, adr.toNat, dat.toNat])
  | .resetRegisters => ("RESET_REGISTERS", [])
  | .setLed scr false adr dat => ("SET_LED", [scr.toNat, adr.toNat, dat.toNat])
  | .setLed scr true adr dat => ("SET_LED", [scr.toNat, adr.toNat, dat.toNat, 1])
  | .resetLedAt scr adr dat => ("RESET_LED_AT", [scr.toNat, adr.toNat, dat.toNat])
  | .setRow scr dat => ("SET_ROW", [scr.toNat, dat.toNat])
  | .loadGlyph scr half => ("LOAD_GLYPH", [scr.toNat, half.toNat])
  | .setLetter scr dat => ("SET_LETTER", [scr.toNat, dat.toNat])
  | .setWord dat => ("SET_WORD", [dat.toNat])
  | .cycleSteps => ("CYCLE_STEPS", [])
  | .cycleSet => ("CYCLE_SET", [])
  | .setCycle wrap => ("SET_CYCLE", [wrap.toNat])
  | .getCycle => ("GET_CYCLE", [])
  | .setCycleDelay => ("SET_CYCLE_DELAY", [])
  | .getCycleDelay => ("GET_CYCLE_DELAY", [])

/-- The assembly text of a command (R67). -/
def asm (i : Instr) : String := asmText (asmParts i).1 (asmParts i).2

/-- `WARG v` (R67). -/
def warg (v : Word) : Input := .write .arg v
/-- `RRES` (R67). -/
def rres : Input := .read .result
/-- `RSTAT` (R67). -/
def rstat : Input := .read .status
/-- `WSTAT v` (R67). -/
def wstat (v : Word) : Input := .write .status v
/-- The CMD write of a command (R25). -/
def issue (i : Instr) : Input := .write .cmd (encode i)

/-- The pseudo-instructions of R68. -/
inductive Pseudo where
  | scroll
  | setDelay (v : Word)
  | steps (n : Word)
  | writeFrame (scr : Byte) (frm : Frame)
  | clearColumn (scr column : Byte)
  | flush
  | latchAll
  | glyph (slot : Byte) (lo hi : Word)
  deriving DecidableEq, Repr

/-- The expansions of R68. -/
def Pseudo.expand : Pseudo → List Input
  | .scroll => [warg 1, issue .cycleSteps]
  | .setDelay v => [warg v, issue .setCycleDelay]
  | .steps n => [warg n, issue .cycleSteps]
  | .writeFrame scr frm => [issue (.setRegister scr (frm.extractLsb' 8 8) (frm.extractLsb' 0 8))]
  | .clearColumn scr column => [issue (.setLed scr false column 0)]
  | .flush => [issue .sessionOpen, issue (.sessionSend 0), issue .sessionClose]
  | .latchAll => [issue .sessionOpen, issue .sessionClose]
  | .glyph slot lo hi =>
    [warg lo, issue (.loadGlyph slot false), warg hi, issue (.loadGlyph slot true)]

/-- Host actions that respect the busy hazard (R202): each lands once no command runs. -/
def politely (acts : List Input) : List Arrival := acts.map fun a => ⟨a, none⟩

end Sys2Proof.Machine
end

