-- ==== Sys2Proof/Safety.lean ====
section
/-! DEFINITION. Safety.lean: the terms claims are stated in: the invariant of the block, what a line activity leaves
unchanged, the pixels of the mirror, and a faithful chain as a source of DIN. -/

namespace Sys2Proof.Machine
open Sys2Proof

/-- The invariant every step keeps: legal parameters (R5), as many chips, pending registers and glyph slots as devices
(R14, R16, R20), a latched register zero or holding a frame with its own address (R15), LOAD_N = ~EN (R21, R90), CLK low
between commands (R22, R95), CYCLE_DELAY in 0..2^31 − 1 (R19), and the line open while COUNT_DEVICES loops (R107). -/
structure State.Inv (s : State) : Prop where
  legal : s.par.Legal
  latCount : s.lat.length = s.par.n
  pendCount : s.pend.length = s.par.n
  glyphCount : s.glyph.length = s.par.n
  latTag : ∀ i a, s.latched i a = 0 ∨ addrOf (s.latched i a) = a
  loadN : s.loadN = !s.en
  clkLow : s.clk = false
  delayRange : s.cycleDelay.toNat < 2 ^ 31
  countOpen : ∀ n k, s.activity = .counting n k → s.en = true

/-- The host's side is unchanged: parameters, ARG, ILL, OVR, what runs, what is to come, what the host has read. -/
structure SameHost (s t : State) : Prop where
  par : t.par = s.par
  arg : t.arg = s.arg
  ill : t.ill = s.ill
  ovr : t.ovr = s.ovr
  activity : t.activity = s.activity
  inbox : t.inbox = s.inbox
  returned : t.returned = s.returned

/-- WRAP, CYCLE_DELAY and the glyph slots are unchanged. -/
structure SameConfig (s t : State) : Prop where
  wrap : t.wrap = s.wrap
  cycleDelay : t.cycleDelay = s.cycleDelay
  glyph : t.glyph = s.glyph

/-- From `s` to `t` the line shows exactly `acts` (R8, R96): the events are recorded in order, and each exchange takes the
next sixteen DIN draws. -/
structure Shows (s t : State) (acts : List LineAct) : Prop where
  trace : t.trace = ((lineEvents s 0 acts).flatMap FrameEvent.events).reverse ++ s.trace
  drawn : t.drawn = s.drawn + 16 * sentCount acts
  dinIn : t.dinIn = s.dinIn.drop (16 * sentCount acts)
  dout : t.dout = doutAfter s.dout acts

/-- From `s` to `t` a chain command has shown `acts` on the line and ended with the line closed, and nothing but the mirror
and the line has changed: the host's side, the configuration, RESULT and the sizes of the mirror are as before. -/
structure ChainEffect (s t : State) (acts : List LineAct) : Prop where
  host : SameHost s t
  config : SameConfig s t
  result : t.result = s.result
  latCount : t.lat.length = s.lat.length
  pendCount : t.pend.length = s.pend.length
  shows : Shows s t acts
  en : t.en = false
  loadN : t.loadN = true
  clk : t.clk = false

/-- The column byte `B(i, c)` of R162. -/
def State.columnOf (s : State) (i c : Nat) : Byte := dataOf (s.latched i (col s.par c))

/-- Bit `p` of the shift register of column `c` that R162 describes: 8N bits, from bit 0 of device 1 to bit 7 of device
N. -/
def State.ringBit (s : State) (c p : Nat) : Bool := (s.columnOf (p / 8) c).getLsbD (p % 8)

/-- The lit pixels of a column byte. -/
def litBits (b : Byte) : Nat := (List.range 8).countP fun j => b.getLsbD j

/-- The number of 1 bits over all `B(i, c)` (R164). -/
def State.litCount (s : State) : Nat :=
  ((List.range s.par.n).map fun i => (columns.map fun c => litBits (s.columnOf i c)).sum).sum

/-- What a chain of shift registers `q` (device 1 first) returns, exchange by exchange,
while `out` is sent: the farthest device's frame comes back and the sent frame enters device 1 (R51). -/
def chainReturns : List Frame → List Frame → List Frame
  | _, [] => []
  | q, f :: out => (f :: q).getLast (by simp) :: chainReturns ((f :: q).dropLast) out

/-- The DIN samples of a chain with shift registers `q` while `out` is sent (R35, R51). -/
def chainDin (q out : List Frame) : List Bool := (chainReturns q out).flatMap wireBits

/-- R62, R64: opcode and mask of every row of the opcode map, written out from the spec's tables. -/
def specRows : List (Nat × Word) :=
  [(0x00, 0xFFFFFFFF), (0x01, 0xFFFFFFFF), (0x02, 0xFFFF0000), (0x03, 0xFFFFFFFF), (0x04, 0xFFFFFFFF),
   (0x05, 0xFFFF0000), (0x06, 0xFFFFFFFF), (0x08, 0xFC030000), (0x09, 0xFC03FFFF), (0x0A, 0xFC03FFFF),
   (0x0B, 0xFC0300FF), (0x10, 0xFC030000), (0x11, 0xFFFFFFFF), (0x18, 0xFC020000), (0x19, 0xFC030000),
   (0x1A, 0xFC03FF00), (0x1B, 0xFC01FFFF), (0x1C, 0xFC03FF00), (0x1D, 0xFFFFFF00), (0x20, 0xFFFFFFFF),
   (0x21, 0xFFFFFFFF), (0x22, 0xFFFFFFFE), (0x23, 0xFFFFFFFF), (0x24, 0xFFFFFFFF), (0x25, 0xFFFFFFFF)]

/-- R94, R95: the events of one exchange of `out` in state `s`, oldest first. -/
def exchangeEvents (out : Frame) (s : State) : List Event :=
  (List.range 16).flatMap fun j =>
    [.pin .dout (out.getLsbD (15 - j)), .waitHalf, .pin .clk true, .waitHalf, .sample (s.draw j), .pin .clk false]

/-- The mirror after the column bytes `byte c` were written to the columns `cs` of device `k`, one session each (R126, R127,
R148): those column registers of device k hold the new frames and its other registers are as before; slot 0 of every other
device holds 0x0000 and its other registers are as before. -/
def ColumnsWritten (s t : State) (k : Nat) (cs : List Nat) (byte : Nat → Byte) : Prop :=
  ∀ i < s.par.n,
    (i + 1 = k →
      (∀ c ∈ cs, t.latched i (col s.par c) = pack (col s.par c) (byte c)) ∧
      (∀ a, (∀ c ∈ cs, a ≠ col s.par c) → t.latched i a = s.latched i a)) ∧
    (i + 1 ≠ k → t.latched i 0 = 0 ∧ ∀ a, a ≠ 0 → t.latched i a = s.latched i a)

/-- Commands executed one after the other, each from the state the one before left (R45), as far as each answers a next
state. -/
def runCommands : List Instr → State → Host.Outcome State Fault Refusal
  | [], s => .next s
  | i :: is, s =>
    match exec i s with
    | .next t => runCommands is t
    | .fault r => .fault r
    | .refused r => .refused r

/-- The levels of the chain pins (R22). -/
structure PinLevels where
  clk : Bool
  dout : Bool
  loadN : Bool
  deriving DecidableEq, Repr

/-- The pin levels of reset (R22, R31). -/
def PinLevels.atReset : PinLevels := ⟨false, false, true⟩

/-- The pin levels after one more event, or `none` if the event breaks the discipline of R95: DOUT is driven only while CLK
is low, CLK is raised only while low and lowered only while high, DIN is sampled only while CLK is high, and LOAD_N moves
only while CLK is low (R207). -/
def PinLevels.after (p : PinLevels) : Event → Option PinLevels
  | .pin .dout b => if p.clk then none else some { p with dout := b }
  | .pin .clk b => if p.clk = b then none else some { p with clk := b }
  | .pin .loadN b => if p.clk then none else some { p with loadN := b }
  | .waitHalf => some p
  | .waitDelay _ => if p.clk then none else some p
  | .sample _ => if p.clk then some p else none
  | .reset => some PinLevels.atReset

/-- The pin levels after a list of events, newest first, that began at the levels of reset. -/
def pinsAfter : List Event → Option PinLevels
  | [] => some PinLevels.atReset
  | e :: es => (pinsAfter es).bind fun p => p.after e

/-- The pins hold the value last driven (R22), and the record has kept the discipline of R95. -/
def State.WireOk (s : State) : Prop := pinsAfter s.trace = some ⟨s.clk, s.dout, s.loadN⟩

/-- No input lands in this step: none is to come, or the next one waits, for the running command to end or for a later
transition of it. -/
def State.Undisturbed (s : State) : Prop := s.nextArrival = none

/-- An arrival marked `d` at the head of the inbox lands in this step: no command runs, or it is due after a number of
events that is within the running transition or, if the command ends with this transition, past it. -/
def State.LandsNow (s : State) (d : Option Nat) : Prop :=
  s.busy = false ∨ ∃ k, d = some k ∧ s.fallsLater k = false

end Sys2Proof.Machine
end

