-- ==== Sys2Proof/Certificates/Slice0/Obligations.lean ====
section
/-! DEFINITION. Certificates/Slice0/Obligations.lean: the statements for the provers, from the numbered rules of spec/. -/

open Sys2Proof Sys2Proof.Machine

/-! ### Encoding and decoding -/

/-- R61 to R65: the decoder reads every legal command back from its word, with every operand at every value. -/
def Obligations.DecodeOfEncode : Prop :=
  ∀ (n : Nat) (i : Instr), i.wf n = true → decode n (encode i) = .ok i

/-- R60 to R65: a word has one meaning. A word the decoder reads as a command is that command's word, and the command's
glyph slot is in range. -/
def Obligations.EncodeOfDecode : Prop :=
  ∀ (n : Nat) (w : Word) (i : Instr), decode n w = .ok i → encode i = w ∧ i.wf n = true

/-- R65: a word decodes exactly if `(word & mask) == OP << 26` for some row, and the glyph slot of LOAD_GLYPH (field S) and
of SET_LETTER (field D) is below N. -/
def Obligations.WordIsLegalExactlyByMaskAndMatch : Prop :=
  ∀ (n : Nat) (w : Word),
    (∃ i, decode n w = .ok i) ↔
      (∃ r ∈ specRows, w &&& r.2 = BitVec.ofNat 32 r.1 <<< 26) ∧
      (w.extractLsb' 26 6 = 0x1B → (w.extractLsb' 18 8).toNat < n) ∧
      (w.extractLsb' 26 6 = 0x1C → (w.extractLsb' 0 8).toNat < n)

/-- R66: the unassigned OP values are illegal, and so is an assigned OP with a must-be-zero bit set; an out-of-range S, A
or D value is not, but for the glyph slot of LOAD_GLYPH and SET_LETTER (R65). -/
def Obligations.ReservedWordsAreIllegal : Prop :=
  (∀ (n : Nat) (w : Word),
    (w.extractLsb' 26 6).toNat ∈ [0x07] ++ List.range' 0x0C 4 ++ List.range' 0x12 6 ++ [0x1E, 0x1F] ++ List.range' 0x26 26 →
      decode n w = .error .unassignedOp) ∧
  (∀ (n : Nat) (w : Word) (op : Nat) (mask : Word), (op, mask) ∈ specRows → (w.extractLsb' 26 6).toNat = op →
      w &&& mask ≠ BitVec.ofNat 32 op <<< 26 → decode n w = .error .mustBeZero) ∧
  (∀ (n : Nat) (scr adr dat : Byte) (coord : Bool) (frm : Frame),
    ∀ i ∈ [Instr.chipSetPending scr frm, .getPending scr, .chipLatch scr, .getLatched scr adr,
        .setRegister scr adr dat, .setLed scr coord adr dat, .resetLedAt scr adr dat, .setRow scr dat, .setWord dat],
      decode n (encode i) = .ok i) ∧
  (∀ (n : Nat) (scr dat : Byte), dat.toNat < n → decode n (encode (.setLetter scr dat)) = .ok (.setLetter scr dat))

/-- R69: the spec's nine encoding examples decode to the command they stand for (with N = 4 devices). -/
def Obligations.WrittenWordsDecode : Prop :=
  decode 4 0x00000000 = .ok .nop ∧
  decode 4 0x08000F08 = .ok (.sessionSend 0x0F08) ∧
  decode 4 0x4008035A = .ok (.setRegister 2 0x03 0x5A) ∧
  decode 4 0x60090304 = .ok (.setLed 2 true 3 4) ∧
  decode 4 0x60040880 = .ok (.setLed 1 false 8 0x80) ∧
  decode 4 0x2C100C00 = .ok (.getLatched 4 0x0C) ∧
  decode 4 0x6C060000 = .ok (.loadGlyph 1 true) ∧
  decode 4 0x88000000 = .ok (.setCycle false) ∧
  decode 4 0x80000000 = .ok .cycleSteps

/-! ### Reset, the step, the host interface -/

/-- R31, R195: every piece of state at reset, for every choice of parameters. What the model adds (nothing to come, nothing
drawn, nothing shown: log 1, 4, 9) is not stated here. -/
def Obligations.ResetValues : Prop :=
  ∀ p : Params, let s := State.resetWith p
    s.par = p ∧
    s.lat.length = p.n ∧ (∀ i a, s.latched i a = 0) ∧
    s.pend.length = p.n ∧ (∀ i, s.pending i = 0) ∧
    s.wrap = true ∧ s.cycleDelay = 50 ∧
    s.glyph.length = p.n ∧ (∀ g, s.glyphAt g = 0) ∧
    s.en = false ∧ s.clk = false ∧ s.dout = false ∧ s.loadN = true ∧
    s.arg = 0 ∧ s.result = 0 ∧ s.statusWord = 0 ∧ s.busy = false

/-- R15, R19, R90, R95: the invariant holds after reset for every legal choice of parameters, `State.reset` among them. -/
def Obligations.InvariantAtReset : Prop :=
  (∀ p : Params, p.Legal → (State.resetWith p).Inv ∧ (State.resetWith p).WireOk) ∧
  State.reset.Inv ∧ State.reset.WireOk

/-- R15, R19, R21, R90, R95: every step keeps the invariant: a latched register is zero or holds its own address, LOAD_N is
the inverse of EN, CLK is low between commands, CYCLE_DELAY is at most 2^31 − 1, the mirror keeps its size. -/
def Obligations.StepKeepsInvariant : Prop :=
  ∀ s t : State, s.Inv → step s = .next t → t.Inv

/-- R22, R95, R207: in every state that steps reach from a state with it, each pin holds the value last driven on it, every
pin write to DOUT and LOAD_N is made while CLK is low, and every DIN sample is taken while CLK is high. A reset is exempt: it
may land while CLK is high and puts all three pins at their reset levels at once, which the model records as the one event
`reset` (the model's choice, log 10). -/
def Obligations.StepKeepsPinDiscipline : Prop :=
  ∀ s t : State, s.Inv → s.WireOk → step s = .next t → t.WireOk

/-- R179: no exception is ever raised: every command and every step answers a next state, in every state. Two parts of this
are the model's choice: that COUNT_DEVICES always answers, since its run, which may never end (R52, R107), is cut into
transitions of at most 256 dummy exchanges (log 3), and that an illegal word sets ILL and is not refused, where R180 permits
both (log 12). -/
def Obligations.EveryStepAnswers : Prop :=
  (∀ (i : Instr) (s : State), ∃ t, exec i s = .next t) ∧ (∀ s : State, ∃ t, step s = .next t)

/-- R25: a step in which an accepted word runs is `exec` of the command the word decodes to. That this is the step after the
one that accepts the word, and that `exec` is given the state with BUSY already back at 0, where R25 clears BUSY after the
command, is the model's choice (log 1). The clause on the inputs: none is to come, or the next one waits for the command's
end. -/
def Obligations.StepRunsDecodedCommand : Prop :=
  ∀ (s : State) (w : Word) (k : Nat) (i : Instr), s.activity = .accepted w k →
    (s.inbox = [] ∨ ∃ a rest, s.inbox = a :: rest ∧ a.during = none) →
    decode s.par.n w = .ok i → step s = exec i { s with activity := .idle }

/-- R180: an illegal word sets ILL, BUSY is set and cleared as for any command, and nothing else changes. -/
def Obligations.IllegalWordSetsIllOnly : Prop :=
  ∀ (s : State) (w : Word) (k : Nat) (e : Illegal), s.activity = .accepted w k →
    (s.inbox = [] ∨ ∃ a rest, s.inbox = a :: rest ∧ a.during = none) →
    decode s.par.n w = .error e → step s = .next { s with activity := .idle, ill := true }

/-- R25, R26: while BUSY = 0 a CMD write is accepted, which sets BUSY and stores nothing else, and an ARG write is
stored. -/
def Obligations.IdleWritesAreTaken : Prop :=
  ∀ (s : State) (v : Word) (d : Option Nat) (rest : List Arrival), s.activity = .idle →
    (s.inbox = ⟨.write .cmd v, d⟩ :: rest →
      step s = .next { s with inbox := rest, activity := .accepted v 0 }) ∧
    (s.inbox = ⟨.write .arg v, d⟩ :: rest → step s = .next { s with inbox := rest, arg := v })

/-- R29: a CMD or ARG write that lands while BUSY = 1 is dropped and sets OVR. The running command is not disturbed: what it
will do is what it would have done, with OVR set. -/
def Obligations.BusyWritesAreDropped : Prop :=
  ∀ (s : State) (r : HostReg) (v : Word) (d : Nat) (rest : List Arrival), s.busy = true → r = .cmd ∨ r = .arg →
    s.inbox = ⟨.write r v, some d⟩ :: rest → s.LandsNow (some d) →
    ∃ t, step s = .next t ∧
      t = { s with inbox := rest, ovr := true, activity := t.activity } ∧ t.busy = true ∧
      ∃ u v, advance { s with inbox := rest } = .next u ∧ advance t = .next v ∧ v = { u with ovr := true }

/-- R24, R28, R184: a STATUS write clears ILL where bit 2 is 1 and OVR where bit 3 is 1, whatever BUSY is, and changes
nothing else; a RESULT write is ignored. Only the place the running command has come to (log 2) may move. -/
def Obligations.StatusAndResultWrites : Prop :=
  ∀ (s : State) (v : Word) (d : Option Nat) (rest : List Arrival), s.LandsNow d →
    (s.inbox = ⟨.write .status v, d⟩ :: rest →
      ∃ t, step s = .next t ∧ t.busy = s.busy ∧
        t = { s with
          inbox := rest
          activity := t.activity
          ill := if v.getLsbD 2 then false else s.ill
          ovr := if v.getLsbD 3 then false else s.ovr }) ∧
    (s.inbox = ⟨.write .result v, d⟩ :: rest →
      ∃ t, step s = .next t ∧ t.busy = s.busy ∧ t = { s with inbox := rest, activity := t.activity })

/-- R24, R28, R41: an idle read gives CMD 0, ARG, RESULT, and STATUS with bits OVR, ILL, EN, BUSY = 0 and zeros above, and
changes nothing of the block. -/
def Obligations.IdleReads : Prop :=
  ∀ (s : State) (r : HostReg) (d : Option Nat) (rest : List Arrival), s.activity = .idle →
    s.inbox = ⟨.read r, d⟩ :: rest →
    ∃ v : Word, step s = .next { s with inbox := rest, returned := (r, v) :: s.returned } ∧
      (r = .cmd → v = 0) ∧ (r = .arg → v = s.arg) ∧ (r = .result → v = s.result) ∧
      (r = .status → ∀ j, v.getLsbD j =
        if j = 1 then s.en else if j = 2 then s.ill else if j = 3 then s.ovr else false)

/-- R28, R29: a read that lands while BUSY = 1 has no side effect on the block; CMD gives 0, ARG its value, and STATUS has
BUSY = 1, EN as the events of the command so far have left the line, OVR, and zeros above bit 3. That RESULT gives the value
before the running command or the one it leaves, where U8 allows any value, is the model's choice (log 2, unsafe), and so is
that STATUS shows ILL as it was before, an illegal word setting it as BUSY falls (log 15, unsafe). -/
def Obligations.BusyReads : Prop :=
  ∀ (s : State) (r : HostReg) (d : Nat) (rest : List Arrival), s.busy = true →
    s.inbox = ⟨.read r, some d⟩ :: rest → s.LandsNow (some d) →
    ∃ t u v evs, step s = .next t ∧ t.busy = true ∧
      t = { s with inbox := rest, activity := t.activity, returned := (r, v) :: s.returned } ∧
      advance { s with inbox := rest } = .next u ∧ u.trace = evs ++ s.trace ∧
      (r = .cmd → v = 0) ∧ (r = .arg → v = s.arg) ∧
      (r = .result → v = s.result ∨ v = u.result) ∧
      (r = .status → v.getLsbD 0 = true ∧ v.getLsbD 1 = enAfter s.en (evs.reverse.take (s.elapsed + d)) ∧
        v.getLsbD 2 = s.ill ∧ v.getLsbD 3 = s.ovr ∧ ∀ j, 4 ≤ j → v.getLsbD j = false)

/-- R195, R196: a reset that lands puts every piece of the block's state at its reset value and leaves the parameters. A
running command is over at once: of its events exactly those before the reset's moment stay in the record, `elapsed + d` of
the running transition (all of them, if it ends before), none follows the reset, and its writes are lost. The model's own:
the event `reset`, the keeping of the record and of the inputs to come (log 10), and the samples of the events that stay
counting as drawn (log 11). -/
def Obligations.ResetTakesEffectAtOnce : Prop :=
  ∀ (s : State) (d : Option Nat) (rest : List Arrival), s.LandsNow d → s.inbox = ⟨.reset, d⟩ :: rest →
    ∃ t u evs past, step s = .next t ∧ advance { s with inbox := rest } = .next u ∧ u.trace = evs ++ s.trace ∧
      past = (evs.reverse.take (s.elapsed + d.getD 0)).reverse ∧
      t = { State.resetWith s.par with
        inbox := rest
        dinIn := s.dinIn.drop (sampleCount past)
        drawn := s.drawn + sampleCount past
        trace := .reset :: past ++ s.trace
        returned := s.returned }

/-- R5, R195: the parameters are fixed: no step changes them. -/
def Obligations.ParametersNeverChange : Prop :=
  ∀ s t : State, step s = .next t → t.par = s.par

/-- R8, R46: the record only grows: a step adds its events to what was shown before. -/
def Obligations.RecordOnlyGrows : Prop :=
  ∀ s t : State, step s = .next t →
    (∃ evs, t.trace = evs ++ s.trace) ∧ (∃ vs, t.returned = vs ++ s.returned) ∧ s.drawn ≤ t.drawn

/-! ### Transport and session commands -/

/-- R101: NOP changes nothing and emits no event. -/
def Obligations.NopDoesNothing : Prop :=
  encode .nop = 0x00000000 ∧ ∀ s : State, exec .nop s = .next s

/-- R92, R102: SESSION_OPEN sets EN and drives LOAD_N low, with no wait; nothing else changes. -/
def Obligations.SessionOpenOpensLine : Prop :=
  encode .sessionOpen = 0x04000000 ∧
  ∀ s : State, exec .sessionOpen s =
    .next { s with en := true, loadN := false, trace := .pin .loadN false :: s.trace }

/-- R93, R106: RAW_CLOSE waits a half period, clears EN and drives LOAD_N high, waits a half period; nothing else changes. -/
def Obligations.RawCloseClosesLine : Prop :=
  encode .rawClose = 0x18000000 ∧
  ∀ s : State, exec .rawClose s =
    .next { s with
      en := false
      loadN := true
      trace := .waitHalf :: .pin .loadN true :: .waitHalf :: s.trace }

/-- R94, R105: RAW_EXCHANGE sends the frame most significant bit first and puts the sixteen samples in RESULT, first sample
in bit 15; CLK ends low, DOUT holds bit 0 of the frame; nothing else changes, the mirror included. -/
def Obligations.RawExchangeReturnsSamples : Prop :=
  ∀ (frm : Frame) (s : State),
    encode (.rawExchange frm) = 0x14000000 ||| frm.setWidth 32 ∧
    ∃ r : Frame, (∀ j < 16, r.getLsbD (15 - j) = s.draw j) ∧
      exec (.rawExchange frm) s = .next { s with
        clk := false
        dout := frm.getLsbD 0
        result := r.setWidth 32
        dinIn := s.dinIn.drop 16
        drawn := s.drawn + 16
        trace := (exchangeEvents frm s).reverse ++ s.trace }

/-- R98, R103: SESSION_SEND shifts every pending register one chip farther, the frame into chip 0, and exchanges the frame;
EN is not checked; nothing else changes. -/
def Obligations.SessionSendShiftsMirror : Prop :=
  ∀ (frm : Frame) (s : State),
    encode (.sessionSend frm) = 0x08000000 ||| frm.setWidth 32 ∧
    ∃ (r : Frame) (pend : List Frame), (∀ j < 16, r.getLsbD (15 - j) = s.draw j) ∧
      pend.length = s.pend.length ∧
      (∀ i < s.pend.length, pend[i]? = if i = 0 then some frm else s.pend[i - 1]?) ∧
      exec (.sessionSend frm) s = .next { s with
        pend := pend
        clk := false
        dout := frm.getLsbD 0
        result := r.setWidth 32
        dinIn := s.dinIn.drop 16
        drawn := s.drawn + 16
        trace := (exchangeEvents frm s).reverse ++ s.trace }

/-- R99, R104, R114: SESSION_CLOSE closes the line as RAW_CLOSE does and latches every chip: the register a pending frame's
address byte names takes the whole frame if the address is at most 15; PEND and everything else is unchanged. -/
def Obligations.SessionCloseLatchesEveryChip : Prop :=
  encode .sessionClose = 0x0C000000 ∧
  ∀ s : State, s.Inv → ∃ t, exec .sessionClose s = .next t ∧
    (∀ i a, t.latched i a =
      if i < s.par.n ∧ addrOf (s.pending i) = a ∧ a.toNat ≤ 15 then s.pending i else s.latched i a) ∧
    t = { s with
      lat := t.lat
      en := false
      loadN := true
      trace := .waitHalf :: .pin .loadN true :: .waitHalf :: s.trace }

/-- R99: latching the chips one by one, farthest device first, is latching them all. -/
def Obligations.LatchOrderDoesNotMatter : Prop :=
  ∀ s : State, s.Inv → (List.range s.par.n).reverse.foldl (fun t i => latchChip i t) s = latchAll s

/-- R206: a host session of m sends leaves the m frames in the nearest chips, last one nearest, and the older pending frames m
places farther; the close latches all of them. -/
def Obligations.HostSessionShiftsAndLatches : Prop :=
  ∀ (s : State) (frames : List Frame), s.Inv →
    ∃ t, runCommands (.sessionOpen :: frames.map .sessionSend ++ [.sessionClose]) s = .next t ∧
      t.en = false ∧
      (∀ i < s.par.n, t.pending i =
        if i < frames.length then (frames[frames.length - 1 - i]?).getD 0 else s.pending (i - frames.length)) ∧
      (∀ i < s.par.n, ∀ a, t.latched i a =
        if addrOf (t.pending i) = a ∧ a.toNat ≤ 15 then t.pending i else s.latched i a)

/-- R107: COUNT_DEVICES opens the line, sends the sentinel 0x00FF and then no-op frames until the n-th of them returns a low
byte 0xFF, closes the line without latching, and puts n in RESULT. The hypothesis says that the n-th is the first one; n is at
most 256 here, the number of dummy exchanges the model puts in one transition (the model's choice, log 3); the rest of
the run is `CountDevicesGoesOn`. -/
def Obligations.CountDevicesReturnsCount : Prop :=
  encode .countDevices = 0x10000000 ∧
  ∀ (s : State) (n : Nat), 1 ≤ n → n ≤ 256 →
    dataOf (s.drawnFrame (16 * n)) = 0xFF →
    (∀ k, 1 ≤ k → k < n → dataOf (s.drawnFrame (16 * k)) ≠ 0xFF) →
    ∃ t, exec .countDevices s = .next t ∧
      Shows s t (.opened :: .sent 0x00FF :: List.replicate n (.sent 0x0000) ++ [.closed]) ∧
      t = { s with
        en := false
        loadN := true
        clk := false
        dout := false
        result := BitVec.ofNat 32 n
        dinIn := t.dinIn
        drawn := t.drawn
        trace := t.trace }

/-- R107, R108(c), (d): COUNT_DEVICES as long as no low byte 0xFF returns: the command runs on with BUSY = 1 and the line
open, from its first transition and from any later one, counting modulo 2^32; it ends as in `CountDevicesReturnsCount` when
the sentinel returns. The cut after 256 exchanges is the model's (log 3). -/
def Obligations.CountDevicesGoesOn : Prop :=
  (∀ s : State, (∀ k, 1 ≤ k → k ≤ 256 → dataOf (s.drawnFrame (16 * k)) ≠ 0xFF) →
    ∃ t, exec .countDevices s = .next t ∧ t.activity = .counting 256 0 ∧ t.en = true ∧
      Shows s t (.opened :: .sent 0x00FF :: List.replicate 256 (.sent 0x0000)) ∧
      SameConfig s t ∧ t.lat = s.lat ∧ t.pend = s.pend ∧ t.result = s.result) ∧
  (∀ (s : State) (c : Word) (e : Nat), s.activity = .counting c e → s.Undisturbed →
    (∀ k < 256, dataOf (s.drawnFrame (16 * k)) ≠ 0xFF) →
    ∃ t, step s = .next t ∧ t.activity = .counting (c + 256) 0 ∧ t.en = s.en ∧
      Shows s t (List.replicate 256 (.sent 0x0000)) ∧
      SameConfig s t ∧ t.lat = s.lat ∧ t.pend = s.pend ∧ t.result = s.result) ∧
  (∀ (s : State) (c : Word) (e n : Nat), s.activity = .counting c e → s.Undisturbed → n < 256 →
    dataOf (s.drawnFrame (16 * n)) = 0xFF → (∀ k < n, dataOf (s.drawnFrame (16 * k)) ≠ 0xFF) →
    ∃ t, step s = .next t ∧ t.activity = .idle ∧ t.en = false ∧ t.loadN = true ∧
      Shows s t (List.replicate (n + 1) (.sent 0x0000) ++ [.closed]) ∧
      SameConfig s t ∧ t.lat = s.lat ∧ t.pend = s.pend ∧ t.result = c + BitVec.ofNat 32 (n + 1))

/-- R108(c), U2: COUNT_DEVICES does not end before a low byte 0xFF returns: with nothing to come and no such byte among the
first 256 (m + 1) dummy exchanges, for any m, it is still busy after m + 1 steps, with the line open, RESULT unchanged and the
mirror unchanged. A step is at most 256 exchanges (the model's choice, log 3). -/
def Obligations.CountDevicesRunsOnWithoutSentinel : Prop :=
  ∀ (s : State) (m : Nat), s.inbox = [] → (∃ k, s.activity = .accepted (encode .countDevices) k) →
    (∀ k, 1 ≤ k → k ≤ 256 * (m + 1) → dataOf (s.drawnFrame (16 * k)) ≠ 0xFF) →
    ∃ t : State, core.run (m + 1) s = .next t ∧ t.busy = true ∧ t.en = true ∧ t.result = s.result ∧
      t.lat = s.lat ∧ t.pend = s.pend

/-- R51, R108(a): on a chain of M devices whose shift registers hold no frame with low byte 0xFF, COUNT_DEVICES returns M. The
model's choices: the chain enters as the DIN samples it gives for the frames sent (log 20), and M is at most 256, so that the
command is one transition (log 3). -/
def Obligations.CountDevicesMeasuresTheChain : Prop :=
  ∀ (s : State) (q : List Frame), 1 ≤ q.length → q.length ≤ 256 → (∀ f ∈ q, dataOf f ≠ 0xFF) →
    s.dinIn = chainDin q (0x00FF :: List.replicate q.length 0x0000) →
    ∃ t, exec .countDevices s = .next t ∧ t.activity = s.activity ∧ t.result = BitVec.ofNat 32 q.length ∧
      t.en = false ∧ t.dinIn = []

/-! ### Chip-level commands -/

/-- R113, R116, R118: CHIP_SET_PENDING writes the pending register of the chip `ChipOf(s)` names, chip 0 for a device number
out of range; nothing else changes. -/
def Obligations.ChipSetPendingWritesOneChip : Prop :=
  ∀ (scr : Byte) (frm : Frame) (s : State), s.Inv →
    encode (.chipSetPending scr frm) = 0x20000000 ||| scr.setWidth 32 <<< 18 ||| frm.setWidth 32 ∧
    ∃ t, exec (.chipSetPending scr frm) s = .next t ∧ t.pend.length = s.pend.length ∧
      (∀ i, t.pending i =
        if i = (if 1 ≤ scr.toNat ∧ scr.toNat ≤ s.par.n then scr.toNat - 1 else 0) then frm else s.pending i) ∧
      t = { s with pend := t.pend }

/-- R113, R116, R119: GET_PENDING puts the pending register, zero-extended, in RESULT; nothing else changes. -/
def Obligations.GetPendingReadsOneChip : Prop :=
  ∀ (scr : Byte) (s : State),
    encode (.getPending scr) = 0x24000000 ||| scr.setWidth 32 <<< 18 ∧
    exec (.getPending scr) s = .next { s with
      result := (s.pending (if 1 ≤ scr.toNat ∧ scr.toNat ≤ s.par.n then scr.toNat - 1 else 0)).setWidth 32 }

/-- R113, R114, R120: CHIP_LATCH latches one chip: the register its pending frame's address byte names takes the whole
frame, and an address above 15 does nothing; nothing else changes, no pin among it. -/
def Obligations.ChipLatchLatchesOneChip : Prop :=
  ∀ (scr : Byte) (s : State), s.Inv →
    encode (.chipLatch scr) = 0x28000000 ||| scr.setWidth 32 <<< 18 ∧
    ∃ t chip, chip = (if 1 ≤ scr.toNat ∧ scr.toNat ≤ s.par.n then scr.toNat - 1 else 0) ∧
      exec (.chipLatch scr) s = .next t ∧
      (∀ i a, t.latched i a =
        if i = chip ∧ addrOf (s.pending chip) = a ∧ a.toNat ≤ 15 then s.pending chip else s.latched i a) ∧
      t = { s with lat := t.lat }

/-- R113, R115, R121: GET_LATCHED puts the latched register, zero-extended, in RESULT, 0 for an address above 15; nothing else
changes. -/
def Obligations.GetLatchedReadsOneRegister : Prop :=
  ∀ (scr adr : Byte) (s : State),
    encode (.getLatched scr adr) = 0x2C000000 ||| scr.setWidth 32 <<< 18 ||| adr.setWidth 32 <<< 8 ∧
    ∃ v : Frame, exec (.getLatched scr adr) s = .next { s with result := v.setWidth 32 } ∧
      (adr.toNat ≤ 15 →
        v = s.latched (if 1 ≤ scr.toNat ∧ scr.toNat ≤ s.par.n then scr.toNat - 1 else 0) adr) ∧
      (15 < adr.toNat → v = 0)

/-! ### Chain writes -/

/-- R125 to R127, R129, R130: SET_REGISTER sends N frames in one session, device N first, the real frame at loop index s and
no-op frames elsewhere. Afterwards PEND[s−1] holds the frame and every other pending register 0x0000; LAT[s−1][a] holds the
frame if a is at most 15; slot 0 of every other device holds 0x0000; nothing else changes but the closed line. For s = 0 or
s > N there is no such device and only no-op frames are sent. -/
def Obligations.SetRegisterWritesOneDevice : Prop :=
  ∀ (scr adr dat : Byte) (s : State), s.Inv →
    encode (.setRegister scr adr dat) =
      0x40000000 ||| scr.setWidth 32 <<< 18 ||| adr.setWidth 32 <<< 8 ||| dat.setWidth 32 ∧
    ∃ t, exec (.setRegister scr adr dat) s = .next t ∧
      ChainEffect s t (sessionActs s.par.n fun j => if j = scr.toNat then pack adr dat else 0) ∧
      (∀ i < s.par.n, t.pending i = if i + 1 = scr.toNat then pack adr dat else 0) ∧
      (∀ i < s.par.n, ∀ a, t.latched i a =
        if i + 1 = scr.toNat then (if a = adr ∧ adr.toNat ≤ 15 then pack adr dat else s.latched i a)
        else if a = 0 then 0 else s.latched i a)

/-- R128: for 1 ≤ k ≤ N the real frame of a SET_REGISTER is preceded by N − k no-op frames and followed by k − 1. -/
def Obligations.FillerFramesSurroundTheRealOne : Prop :=
  ∀ (scr adr dat : Byte) (s : State), s.Inv → 1 ≤ scr.toNat → scr.toNat ≤ s.par.n →
    ∃ t, exec (.setRegister scr adr dat) s = .next t ∧
      Shows s t (.opened :: List.replicate (s.par.n - scr.toNat) (.sent 0) ++ [.sent (pack adr dat)] ++
        List.replicate (scr.toNat - 1) (.sent 0) ++ [.closed])

/-- R131, R132: RESET_REGISTERS leaves every chip with LAT[i][0] = 0x0000 and LAT[i][a] = pack(a, RV(a)) for a = 1..15, every
pending register 0x0000 and EN = 0, from any start state; it sends one session of N equal frames per address 0..15 and then
N sessions of one no-op frame; nothing else changes. -/
def Obligations.ResetRegistersEndState : Prop :=
  encode .resetRegisters = 0x44000000 ∧
  ∀ s : State, s.Inv → ∃ t, exec .resetRegisters s = .next t ∧
    ChainEffect s t
      ((List.range 16).flatMap (fun a => sessionActs s.par.n fun _ =>
          pack (BitVec.ofNat 8 a) (resetByte s.par (BitVec.ofNat 8 a)))
        ++ (List.replicate s.par.n [LineAct.opened, .sent 0, .closed]).flatten) ∧
    (∀ i < s.par.n, t.pending i = 0 ∧ t.latched i 0 = 0 ∧
      ∀ a : Byte, 1 ≤ a.toNat → a.toNat ≤ 15 → t.latched i a = pack a (resetByte s.par a))

/-- R58: the reset data byte of each address: the five configuration addresses have their values, every other one 0. -/
def Obligations.ResetDataBytes : Prop :=
  ∀ p : Params, p.Legal →
    resetByte p p.addrDecodeMode = p.rvDecodeOff ∧ resetByte p p.addrIntensity = p.rvIntensityMax ∧
    resetByte p p.addrScanLimit = p.rvScanLimitAll ∧ resetByte p p.addrShutdown = p.rvShutdownRun ∧
    resetByte p p.addrDisplayTest = p.rvDisplayTestOff ∧
    ∀ a, a ∉ [p.addrDecodeMode, p.addrIntensity, p.addrScanLimit, p.addrShutdown, p.addrDisplayTest] →
      resetByte p a = 0

/-! ### Pixels -/

/-- R59, R140 to R143: SET_LED. With the column in 1..8 and K = 0 the byte replaces the column byte; with K = 1 and the row in
1..8 bit row − 1 is OR'ed into it; one session is sent, and only no-op frames if the device number is out of range. A column
outside 1..8, or with K = 1 a row outside 1..8, changes nothing at all. -/
def Obligations.SetLedWritesColumn : Prop :=
  ∀ (scr adr dat : Byte) (coord : Bool) (s : State), s.Inv →
    encode (.setLed scr coord adr dat) =
      0x60000000 ||| scr.setWidth 32 <<< 18 ||| (BitVec.ofBool coord).setWidth 32 <<< 16
        ||| adr.setWidth 32 <<< 8 ||| dat.setWidth 32 ∧
    ((adr.toNat < 1 ∨ 8 < adr.toNat) → exec (.setLed scr coord adr dat) s = .next s) ∧
    (coord = true → (dat.toNat < 1 ∨ 8 < dat.toNat) → exec (.setLed scr coord adr dat) s = .next s) ∧
    (1 ≤ adr.toNat → adr.toNat ≤ 8 → (coord = true → 1 ≤ dat.toNat ∧ dat.toNat ≤ 8) →
      ∃ t byte, exec (.setLed scr coord adr dat) s = .next t ∧
        (coord = false → byte = dat) ∧
        (coord = true → 1 ≤ scr.toNat → scr.toNat ≤ s.par.n → ∀ j < 8, byte.getLsbD j =
          ((s.columnOf (scr.toNat - 1) adr.toNat).getLsbD j || decide (j + 1 = dat.toNat))) ∧
        ChainEffect s t (sessionActs s.par.n fun j => if j = scr.toNat then pack (col s.par adr.toNat) byte else 0) ∧
        (∀ i < s.par.n, t.pending i = if i + 1 = scr.toNat then pack (col s.par adr.toNat) byte else 0) ∧
        ColumnsWritten s t scr.toNat [adr.toNat] (fun _ => byte))

/-- R59, R140, R144, R145: RESET_LED_AT. With the column in 1..8 a row in 1..8 clears bit row − 1 of the column byte, any other
row zeroes the byte; one session is sent. A column outside 1..8 changes nothing at all. -/
def Obligations.ResetLedAtClears : Prop :=
  ∀ (scr adr dat : Byte) (s : State), s.Inv →
    encode (.resetLedAt scr adr dat) =
      0x64000000 ||| scr.setWidth 32 <<< 18 ||| adr.setWidth 32 <<< 8 ||| dat.setWidth 32 ∧
    ((adr.toNat < 1 ∨ 8 < adr.toNat) → exec (.resetLedAt scr adr dat) s = .next s) ∧
    (1 ≤ adr.toNat → adr.toNat ≤ 8 →
      ∃ t byte, exec (.resetLedAt scr adr dat) s = .next t ∧
        ((dat.toNat < 1 ∨ 8 < dat.toNat) → byte = 0) ∧
        (1 ≤ dat.toNat → dat.toNat ≤ 8 → 1 ≤ scr.toNat → scr.toNat ≤ s.par.n → ∀ j < 8, byte.getLsbD j =
          ((s.columnOf (scr.toNat - 1) adr.toNat).getLsbD j && !decide (j + 1 = dat.toNat))) ∧
        ChainEffect s t (sessionActs s.par.n fun j => if j = scr.toNat then pack (col s.par adr.toNat) byte else 0) ∧
        (∀ i < s.par.n, t.pending i = if i + 1 = scr.toNat then pack (col s.par adr.toNat) byte else 0) ∧
        ColumnsWritten s t scr.toNat [adr.toNat] (fun _ => byte))

/-- R146 to R148: SET_ROW ORs bit c − 1 of the row bits into bit 0 of the byte of each column c, in eight sessions, columns 1 to
8; every read sees the value before the command; nothing else changes. -/
def Obligations.SetRowBuildsRow : Prop :=
  ∀ (scr dat : Byte) (s : State), s.Inv →
    encode (.setRow scr dat) = 0x68000000 ||| scr.setWidth 32 <<< 18 ||| dat.setWidth 32 ∧
    ∃ (t : State) (byte : Nat → Byte), exec (.setRow scr dat) s = .next t ∧
      (1 ≤ scr.toNat → scr.toNat ≤ s.par.n → ∀ c, 1 ≤ c → c ≤ 8 → ∀ j < 8, (byte c).getLsbD j =
        ((s.columnOf (scr.toNat - 1) c).getLsbD j || (decide (j = 0) && dat.getLsbD (c - 1)))) ∧
      ChainEffect s t ([1, 2, 3, 4, 5, 6, 7, 8].flatMap fun c =>
        sessionActs s.par.n fun j => if j = scr.toNat then pack (col s.par c) (byte c) else 0) ∧
      (∀ i < s.par.n, t.pending i = if i + 1 = scr.toNat then pack (col s.par 8) (byte 8) else 0) ∧
      ColumnsWritten s t scr.toNat [1, 2, 3, 4, 5, 6, 7, 8] byte

/-! ### Glyphs -/

/-- R150: LOAD_GLYPH replaces one half of a glyph slot by ARG and leaves the other half and every other slot; a slot not below
N is illegal and sets ILL only (R65, R180; that the meaning gives the illegal word's effect is log 12). -/
def Obligations.LoadGlyphReplacesHalf : Prop :=
  ∀ (scr : Byte) (half : Bool) (s : State), s.Inv →
    encode (.loadGlyph scr half) =
      0x6C000000 ||| scr.setWidth 32 <<< 18 ||| (BitVec.ofBool half).setWidth 32 <<< 17 ∧
    (scr.toNat < s.par.n → ∃ t, exec (.loadGlyph scr half) s = .next t ∧ t.glyph.length = s.glyph.length ∧
      (∀ g, g ≠ scr.toNat → t.glyphAt g = s.glyphAt g) ∧
      (∀ j < 64, (t.glyphAt scr.toNat).getLsbD j =
        if half = false ∧ j < 32 then s.arg.getLsbD j
        else if half = true ∧ 32 ≤ j then s.arg.getLsbD (j - 32)
        else (s.glyphAt scr.toNat).getLsbD j) ∧
      t = { s with glyph := t.glyph }) ∧
    (s.par.n ≤ scr.toNat → exec (.loadGlyph scr half) s = .next { s with ill := true })

/-- R151: under the default GLYPH_RENDER bit y of column c's byte is pixel (row y, column x = c − 1) of the glyph. -/
def Obligations.DefaultRenderIsRowMajor : Prop :=
  ∀ (p : Params) (g : Glyph) (c y : Nat), p.render = .byDefault → 1 ≤ c → c ≤ 8 → y < 8 →
    (columnByte p g c).getLsbD y = g.getLsbD (8 * y + (c - 1))

/-- R151 to R154: SET_LETTER writes the eight column bytes of the glyph slot to the device, in eight sessions, column 8 first;
it reads no latched register; nothing else changes. A slot not below N is illegal and sets ILL only (R65,
R180; that the meaning gives the illegal word's effect is log 12). -/
def Obligations.SetLetterWritesGlyph : Prop :=
  ∀ (scr dat : Byte) (s : State), s.Inv →
    encode (.setLetter scr dat) = 0x70000000 ||| scr.setWidth 32 <<< 18 ||| dat.setWidth 32 ∧
    (dat.toNat < s.par.n → ∃ t, exec (.setLetter scr dat) s = .next t ∧
      ChainEffect s t ([8, 7, 6, 5, 4, 3, 2, 1].flatMap fun c => sessionActs s.par.n fun j =>
        if j = scr.toNat then pack (col s.par c) (columnByte s.par (s.glyphAt dat.toNat) c) else 0) ∧
      (∀ i < s.par.n, t.pending i =
        if i + 1 = scr.toNat then pack (col s.par 1) (columnByte s.par (s.glyphAt dat.toNat) 1) else 0) ∧
      ColumnsWritten s t scr.toNat [1, 2, 3, 4, 5, 6, 7, 8] (columnByte s.par (s.glyphAt dat.toNat))) ∧
    (s.par.n ≤ dat.toNat → exec (.setLetter scr dat) s = .next { s with ill := true })

/-- R155 to R157: SET_WORD with L = min(n, N) writes glyph slot L − k to each device k in 1..L; the columns of the other devices
keep their values; n = 0 changes nothing. Afterwards PEND of device L holds the frame sent last, column 1 of glyph slot 0, and
every other pending register 0x0000. Nothing else changes but the no-op slots, written 0x0000 by the sessions for other
devices. -/
def Obligations.SetWordWritesGlyphs : Prop :=
  ∀ (dat : Byte) (s : State), s.Inv →
    encode (.setWord dat) = 0x74000000 ||| dat.setWidth 32 ∧
    (dat = 0 → exec (.setWord dat) s = .next s) ∧
    (dat ≠ 0 → ∃ t len, len = min dat.toNat s.par.n ∧ exec (.setWord dat) s = .next t ∧
      ChainEffect s t ((List.range' 1 len).flatMap fun k => [8, 7, 6, 5, 4, 3, 2, 1].flatMap fun c =>
        sessionActs s.par.n fun j =>
          if j = k then pack (col s.par c) (columnByte s.par (s.glyphAt (len - k)) c) else 0) ∧
      (∀ i < s.par.n, ∀ c, 1 ≤ c → c ≤ 8 → t.latched i (col s.par c) =
        if i < len then pack (col s.par c) (columnByte s.par (s.glyphAt (len - (i + 1))) c)
        else s.latched i (col s.par c)) ∧
      (∀ i < s.par.n, t.pending i =
        if i + 1 = len then pack (col s.par 1) (columnByte s.par (s.glyphAt 0) 1) else 0) ∧
      (∀ i < s.par.n, t.latched i 0 = if len = 1 ∧ i = 0 then s.latched i 0 else 0) ∧
      (∀ i < s.par.n, ∀ a, a ≠ 0 → (∀ c, 1 ≤ c → c ≤ 8 → a ≠ col s.par c) → t.latched i a = s.latched i a))

/-! ### Scrolling -/

/-- R160 to R163, R165: one scroll step (CYCLE_STEPS with ARG = 1): every column byte shifts left by one, bit 7 of the next
nearer device enters at bit 0, and device 1 receives bit 7 of device N if WRAP = 1 and 0 otherwise; every column register
holds its own address afterwards, PEND holds the column-8 frames, and no other register of the mirror changes. On the line:
one session of N frames per column and one more open and close; nothing else changes. -/
def Obligations.ScrollStepShiftsColumns : Prop :=
  ∀ s : State, s.Inv → s.arg = 1 → ∃ t, exec .cycleSteps s = .next t ∧
    ChainEffect s t ([1, 2, 3, 4, 5, 6, 7, 8].flatMap (fun c => sessionActs s.par.n fun j =>
      pack (col s.par c) (t.columnOf (j - 1) c)) ++ [.opened, .closed]) ∧
    (∀ i < s.par.n, ∀ c, 1 ≤ c → c ≤ 8 →
      t.latched i (col s.par c) = pack (col s.par c) (t.columnOf i c) ∧
      (∀ b, 1 ≤ b → b < 8 → (t.columnOf i c).getLsbD b = (s.columnOf i c).getLsbD (b - 1)) ∧
      (t.columnOf i c).getLsbD 0 =
        (if 1 ≤ i then (s.columnOf (i - 1) c).getLsbD 7
         else s.wrap && (s.columnOf (s.par.n - 1) c).getLsbD 7)) ∧
    (∀ i < s.par.n, t.pending i = pack (col s.par 8) (t.columnOf i 8)) ∧
    (∀ i < s.par.n, ∀ a, (∀ c, 1 ≤ c → c ≤ 8 → a ≠ col s.par c) → t.latched i a = s.latched i a)

/-- R162, R168: CYCLE_STEPS with ARG = n moves every bit n places along the 8N-bit shift register of its column: a rotation with
WRAP = 1, with zeros entering at device 1 with WRAP = 0. n = 0 changes nothing. The recurrence of R168: n + 2 steps are one
scroll step (that of `ScrollStepShiftsColumns`), then one wait of CYCLE_DELAY, then n + 1 steps; which fixes every frame sent
and every wait, n − 1 waits for n steps. Nothing but the column registers, PEND and the line changes. -/
def Obligations.CycleStepsMoveBits : Prop :=
  encode .cycleSteps = 0x80000000 ∧
  ∀ s : State, s.Inv →
    (s.arg = 0 → exec .cycleSteps s = .next s) ∧
    (∀ n, s.arg.toNat = n + 2 → ∃ u t, exec .cycleSteps { s with arg := 1 } = .next u ∧
      exec .cycleSteps { u with arg := BitVec.ofNat 32 (n + 1), trace := .waitDelay s.cycleDelay :: u.trace } = .next t ∧
      exec .cycleSteps s = .next { t with arg := s.arg }) ∧
    (s.arg ≠ 0 → ∃ t acts, exec .cycleSteps s = .next t ∧ ChainEffect s t acts ∧
      acts.filterMap (fun a => match a with
        | .delay d => some d
        | .opened => none
        | .sent _ => none
        | .closed => none) = List.replicate (s.arg.toNat - 1) s.cycleDelay ∧
      (∀ c, 1 ≤ c → c ≤ 8 → ∀ p < 8 * s.par.n, t.ringBit c p =
        if s.wrap then s.ringBit c ((p + 8 * s.par.n - s.arg.toNat % (8 * s.par.n)) % (8 * s.par.n))
        else decide (s.arg.toNat ≤ p) && s.ringBit c (p - s.arg.toNat)) ∧
      (∀ i < s.par.n, ∀ c, 1 ≤ c → c ≤ 8 → t.latched i (col s.par c) = pack (col s.par c) (t.columnOf i c)) ∧
      (∀ i < s.par.n, t.pending i = pack (col s.par 8) (t.columnOf i 8)) ∧
      (∀ i < s.par.n, ∀ a, (∀ c, 1 ≤ c → c ≤ 8 → a ≠ col s.par c) → t.latched i a = s.latched i a))

/-- R167, R170: CYCLE_SET does what CYCLE_STEPS does with ARG = 8N, and does not read ARG: 8N scroll steps, their frames and
their waits. With WRAP = 1 every column byte is what it was, with WRAP = 0 every column byte is 0x00; PEND holds the column-8
frames; the other registers of the mirror and the rest of the state are unchanged but for the line. -/
def Obligations.CycleSetIsAFullCycle : Prop :=
  encode .cycleSet = 0x84000000 ∧
  ∀ s : State, s.Inv → ∃ t u acts, exec .cycleSet s = .next t ∧
    exec .cycleSteps { s with arg := BitVec.ofNat 32 (8 * s.par.n) } = .next u ∧ t = { u with arg := s.arg } ∧
    ChainEffect s t acts ∧ sentCount acts = 8 * s.par.n * (8 * s.par.n) ∧
    (∀ i < s.par.n, ∀ c, 1 ≤ c → c ≤ 8 →
      t.columnOf i c = (if s.wrap then s.columnOf i c else 0) ∧
      t.latched i (col s.par c) = pack (col s.par c) (t.columnOf i c)) ∧
    (∀ i < s.par.n, t.pending i = pack (col s.par 8) (t.columnOf i 8)) ∧
    (∀ i < s.par.n, ∀ a, (∀ c, 1 ≤ c → c ≤ 8 → a ≠ col s.par c) → t.latched i a = s.latched i a)

/-- R164: one scroll step with WRAP = 1 preserves the number of lit pixels; with WRAP = 0 it falls by the number of columns
whose byte on the farthest device has bit 7 set. -/
def Obligations.ScrollStepLitCount : Prop :=
  ∀ s : State, s.Inv → s.arg = 1 → ∃ t, exec .cycleSteps s = .next t ∧
    (s.wrap = true → t.litCount = s.litCount) ∧
    (s.wrap = false → t.litCount +
      ([1, 2, 3, 4, 5, 6, 7, 8].countP fun c => (s.columnOf (s.par.n - 1) c).getLsbD 7) = s.litCount)

/-! ### Configuration -/

/-- R171, R172: SET_CYCLE writes WRAP; GET_CYCLE puts it, zero-extended, in RESULT; nothing else changes. -/
def Obligations.WrapFlagCommands : Prop :=
  (∀ (wrap : Bool) (s : State), encode (.setCycle wrap) = 0x88000000 ||| (BitVec.ofBool wrap).setWidth 32 ∧
    exec (.setCycle wrap) s = .next { s with wrap := wrap }) ∧
  encode .getCycle = 0x8C000000 ∧
  (∀ s : State, exec .getCycle s = .next { s with result := if s.wrap then 1 else 0 })

/-- R173, R174: SET_CYCLE_DELAY writes ARG, read as a signed number and clamped to 0 if negative, to CYCLE_DELAY;
GET_CYCLE_DELAY puts CYCLE_DELAY in RESULT; nothing else changes. -/
def Obligations.CycleDelayCommands : Prop :=
  encode .setCycleDelay = 0x90000000 ∧ encode .getCycleDelay = 0x94000000 ∧
  (∀ s : State, s.arg.toNat < 2 ^ 31 → exec .setCycleDelay s = .next { s with cycleDelay := s.arg }) ∧
  (∀ s : State, 2 ^ 31 ≤ s.arg.toNat → exec .setCycleDelay s = .next { s with cycleDelay := 0 }) ∧
  (∀ s : State, exec .getCycleDelay s = .next { s with result := s.cycleDelay })

/-! ### Whole-machine rules -/

/-- R27: only COUNT_DEVICES, SESSION_SEND, RAW_EXCHANGE, GET_PENDING, GET_LATCHED, GET_CYCLE and GET_CYCLE_DELAY write RESULT;
R18, R19, R20, R26: only SET_CYCLE writes WRAP, only SET_CYCLE_DELAY writes CYCLE_DELAY, only LOAD_GLYPH writes a glyph slot,
no command writes ARG; no legal command touches ILL or OVR (R28). R16: PEND is left alone by the commands without a chain send
other than CHIP_SET_PENDING; R21, R22: EN, LOAD_N, CLK and DOUT by the commands of the chip and configuration families, NOP and
LOAD_GLYPH, and CLK and DOUT by SESSION_OPEN, SESSION_CLOSE and RAW_CLOSE too, EN and LOAD_N by SESSION_SEND and RAW_EXCHANGE.
For LAT see `LatchedChangesOnlyAtCommit`. -/
def Obligations.RegistersHaveTheirWriters : Prop :=
  ∀ (i : Instr) (s t : State), exec i s = .next t →
    (i ≠ .countDevices → (∀ f, i ≠ .sessionSend f) → (∀ f, i ≠ .rawExchange f) → (∀ d, i ≠ .getPending d) →
      (∀ d a, i ≠ .getLatched d a) → i ≠ .getCycle → i ≠ .getCycleDelay → t.result = s.result) ∧
    ((∀ w, i ≠ .setCycle w) → t.wrap = s.wrap) ∧
    (i ≠ .setCycleDelay → t.cycleDelay = s.cycleDelay) ∧
    ((∀ g h, i ≠ .loadGlyph g h) → t.glyph = s.glyph) ∧
    t.arg = s.arg ∧ t.ovr = s.ovr ∧ (i.wf s.par.n = true → t.ill = s.ill) ∧
    (∀ f d a h w, i ∈ [.nop, .sessionOpen, .sessionClose, .countDevices, .rawExchange f, .rawClose, .getPending d,
      .chipLatch d, .getLatched d a, .loadGlyph d h, .setCycle w, .getCycle, .setCycleDelay, .getCycleDelay] →
      t.pend = s.pend) ∧
    (∀ f d a h w, i ∈ [.nop, .chipSetPending d f, .getPending d, .chipLatch d, .getLatched d a, .loadGlyph d h,
      .setCycle w, .getCycle, .setCycleDelay, .getCycleDelay] →
      t.en = s.en ∧ t.loadN = s.loadN ∧ t.clk = s.clk ∧ t.dout = s.dout ∧ t.trace = s.trace) ∧
    (i ∈ [.sessionOpen, .sessionClose, .rawClose] → t.clk = s.clk ∧ t.dout = s.dout) ∧
    (∀ f, i ∈ [.sessionSend f, .rawExchange f] → t.en = s.en ∧ t.loadN = s.loadN)

/-- R47: the latched registers change only at a chain close or CHIP_LATCH: the commands below have neither, and leave every
latched register as it is. -/
def Obligations.LatchedChangesOnlyAtCommit : Prop :=
  ∀ (i : Instr) (s t : State), exec i s = .next t → i ≠ .sessionClose → (∀ d, i ≠ .chipLatch d) →
    (∀ d a v, i ≠ .setRegister d a v) → i ≠ .resetRegisters → (∀ d k a v, i ≠ .setLed d k a v) →
    (∀ d a v, i ≠ .resetLedAt d a v) → (∀ d v, i ≠ .setRow d v) → (∀ d v, i ≠ .setLetter d v) →
    (∀ v, i ≠ .setWord v) → i ≠ .cycleSteps → i ≠ .cycleSet → t.lat = s.lat

/-- R42: issuing SET_REGISTER, SET_LED, RESET_LED_AT, SET_ROW, SET_LETTER, SET_WORD or RESET_REGISTERS twice in a row leaves the
mirror as issuing it once does. -/
def Obligations.WritesAreIdempotentOnMirror : Prop :=
  ∀ (scr adr dat : Byte) (coord : Bool),
    ∀ i ∈ [Instr.setRegister scr adr dat, .setLed scr coord adr dat, .resetLedAt scr adr dat, .setRow scr dat,
        .setLetter scr dat, .setWord dat, .resetRegisters],
    ∀ s : State, s.Inv → ∃ t u, exec i s = .next t ∧ exec i t = .next u ∧ u.lat = t.lat ∧ u.pend = t.pend

/-- R209: the half-period waits and the inter-step waits of each command: what a command adds to the record holds exactly as
many as the table gives, from N, the operands, ARG and, for COUNT_DEVICES, the count. The clause of COUNT_DEVICES is for a
count of at most 256, the dummy exchanges the model puts in one transition (the model's choice, log 3). `N` is the number of
devices. -/
def Obligations.CommandDurations : Prop :=
  ∀ (s t : State) (i : Instr) (evs : List Event), s.Inv → exec i s = .next t → t.trace = evs ++ s.trace →
    let N := s.par.n
    (i ∈ [Instr.nop, .getCycle, .setCycleDelay, .getCycleDelay, .sessionOpen] → halfPeriods evs = 0) ∧
    (∀ w d a f h, i ∈ [Instr.setCycle w, .chipSetPending d f, .getPending d, .chipLatch d, .getLatched d a,
      .loadGlyph d h] → halfPeriods evs = 0) ∧
    (∀ f, i ∈ [Instr.sessionSend f, .rawExchange f] → halfPeriods evs = 32) ∧
    (i ∈ [Instr.sessionClose, .rawClose] → halfPeriods evs = 2) ∧
    (∀ n, i = .countDevices → 1 ≤ n → n ≤ 256 →
      dataOf (s.drawnFrame (16 * n)) = 0xFF → (∀ k, 1 ≤ k → k < n → dataOf (s.drawnFrame (16 * k)) ≠ 0xFF) →
      halfPeriods evs = 32 * (n + 1) + 2) ∧
    (∀ d a v, i = .setRegister d a v → halfPeriods evs = 32 * N + 2) ∧
    (∀ d k a v, i = .setLed d k a v → 1 ≤ a.toNat → a.toNat ≤ 8 → (k = true → 1 ≤ v.toNat ∧ v.toNat ≤ 8) →
      halfPeriods evs = 32 * N + 2) ∧
    (∀ d a v, i = .resetLedAt d a v → 1 ≤ a.toNat → a.toNat ≤ 8 → halfPeriods evs = 32 * N + 2) ∧
    (∀ d v, i = .setRow d v → halfPeriods evs = 256 * N + 16) ∧
    (∀ d v, i = .setLetter d v → v.toNat < N → halfPeriods evs = 256 * N + 16) ∧
    (∀ v, i = .setWord v → halfPeriods evs = min v.toNat N * (256 * N + 16)) ∧
    (i = .resetRegisters → halfPeriods evs = 546 * N + 32) ∧
    (i = .cycleSteps → 1 ≤ s.arg.toNat → halfPeriods evs = s.arg.toNat * (256 * N + 18) ∧
      delays evs = List.replicate (s.arg.toNat - 1) s.cycleDelay) ∧
    (i = .cycleSet → halfPeriods evs = 8 * N * (256 * N + 18) ∧
      delays evs = List.replicate (8 * N - 1) s.cycleDelay)

/-- R67, R68: the expansions of the pseudo-instructions, as ARG writes and CMD writes of the command words. -/
def Obligations.PseudoInstructionExpansions : Prop :=
  Pseudo.scroll.expand = [.write .arg 1, .write .cmd 0x80000000] ∧
  (∀ v, (Pseudo.setDelay v).expand = [.write .arg v, .write .cmd 0x90000000]) ∧
  (∀ n, (Pseudo.steps n).expand = [.write .arg n, .write .cmd 0x80000000]) ∧
  (∀ scr frm, (Pseudo.writeFrame scr frm).expand =
    [.write .cmd (0x40000000 ||| scr.setWidth 32 <<< 18 ||| frm.setWidth 32)]) ∧
  (∀ scr c, (Pseudo.clearColumn scr c).expand =
    [.write .cmd (0x60000000 ||| scr.setWidth 32 <<< 18 ||| c.setWidth 32 <<< 8)]) ∧
  Pseudo.flush.expand = [.write .cmd 0x04000000, .write .cmd 0x08000000, .write .cmd 0x0C000000] ∧
  Pseudo.latchAll.expand = [.write .cmd 0x04000000, .write .cmd 0x0C000000] ∧
  (∀ g lo hi, (Pseudo.glyph g lo hi).expand =
    [.write .arg lo, .write .cmd (0x6C000000 ||| g.setWidth 32 <<< 18),
     .write .arg hi, .write .cmd (0x6C020000 ||| g.setWidth 32 <<< 18)])

/-! ### Accesses and resets during a command; frame packing -/

/-- R29, R40, R108(c), R196, R202: an input due while a command runs lands in that command, however many events on it is due
and however long the command runs, COUNT_DEVICES without a sentinel included: after some steps the block is still busy with
that command, exactly the events before the input's moment are over or to come first, and the input lands in the next step
(what it does there is said by `BusyWritesAreDropped`, `StatusAndResultWrites`, `BusyReads` and `ResetTakesEffectAtOnce`). A
reset ends the command there; a CMD or ARG write sets OVR and leaves the command running. When an input lands is the model's
list of arrivals (log 1, 2), and the number of steps is the model's cut of COUNT_DEVICES (log 3). -/
def Obligations.ArrivalsLandInTheRunningCommand : Prop :=
  ∀ (s : State) (a : Input) (d : Nat) (rest : List Arrival), s.busy = true → s.inbox = ⟨a, some d⟩ :: rest →
    ∃ (m : Nat) (u t : State) (e : Nat) (evs : List Event),
      core.run m s = .next u ∧ u.busy = true ∧ u.inbox = ⟨a, some e⟩ :: rest ∧ u.LandsNow (some e) ∧
      u.trace = evs ++ s.trace ∧ evs.length + (u.elapsed + e) = s.elapsed + d ∧
      u.par = s.par ∧ u.arg = s.arg ∧ u.ovr = s.ovr ∧ u.returned = s.returned ∧
      step u = .next t ∧ t.inbox = rest ∧
      (a = .reset → t.busy = false ∧ t.en = false ∧ t.loadN = true ∧ t.clk = false ∧ t.result = 0) ∧
      (∀ r v, a = .write r v → r = .cmd ∨ r = .arg → t.ovr = true ∧ t.busy = true)

/-- R53: the bits of a packed frame, and that packing is a bijection with the inverse addr, data; the four examples of the
source. -/
def Obligations.FramePackingIsABijection : Prop :=
  (∀ (a d : Byte), (∀ j < 16, (pack a d).getLsbD j = if j < 8 then d.getLsbD j else a.getLsbD (j - 8)) ∧
    addrOf (pack a d) = a ∧ dataOf (pack a d) = d) ∧
  (∀ f : Frame, pack (addrOf f) (dataOf f) = f ∧
    (∀ j < 8, (addrOf f).getLsbD j = f.getLsbD (8 + j) ∧ (dataOf f).getLsbD j = f.getLsbD j)) ∧
  pack 15 8 = 0x0F08 ∧ pack 32 0 = 0x2000 ∧ pack 34 99 = 0x2263 ∧ pack 0 1 = 0x0001
end

