-- ==== Sys2Proof/Laws/State.lean ====
section
/-! SUPPORT. Laws/State.lean: one lemma per field per update of the state, each true by rfl. -/

namespace Sys2Proof.Machine

variable (s : State)

@[simp] theorem emit_par (e : Event) : (s.emit e).par = s.par := rfl
@[simp] theorem emit_lat (e : Event) : (s.emit e).lat = s.lat := rfl
@[simp] theorem emit_pend (e : Event) : (s.emit e).pend = s.pend := rfl
@[simp] theorem emit_wrap (e : Event) : (s.emit e).wrap = s.wrap := rfl
@[simp] theorem emit_cycleDelay (e : Event) : (s.emit e).cycleDelay = s.cycleDelay := rfl
@[simp] theorem emit_glyph (e : Event) : (s.emit e).glyph = s.glyph := rfl
@[simp] theorem emit_en (e : Event) : (s.emit e).en = s.en := rfl
@[simp] theorem emit_clk (e : Event) : (s.emit e).clk = s.clk := rfl
@[simp] theorem emit_dout (e : Event) : (s.emit e).dout = s.dout := rfl
@[simp] theorem emit_loadN (e : Event) : (s.emit e).loadN = s.loadN := rfl
@[simp] theorem emit_arg (e : Event) : (s.emit e).arg = s.arg := rfl
@[simp] theorem emit_result (e : Event) : (s.emit e).result = s.result := rfl
@[simp] theorem emit_ill (e : Event) : (s.emit e).ill = s.ill := rfl
@[simp] theorem emit_ovr (e : Event) : (s.emit e).ovr = s.ovr := rfl
@[simp] theorem emit_activity (e : Event) : (s.emit e).activity = s.activity := rfl
@[simp] theorem emit_inbox (e : Event) : (s.emit e).inbox = s.inbox := rfl
@[simp] theorem emit_dinIn (e : Event) : (s.emit e).dinIn = s.dinIn := rfl
@[simp] theorem emit_drawn (e : Event) : (s.emit e).drawn = s.drawn := rfl
@[simp] theorem emit_trace (e : Event) : (s.emit e).trace = e :: s.trace := rfl
@[simp] theorem emit_returned (e : Event) : (s.emit e).returned = s.returned := rfl

@[simp] theorem driveClk_par (b : Bool) : (driveClk b s).par = s.par := rfl
@[simp] theorem driveClk_lat (b : Bool) : (driveClk b s).lat = s.lat := rfl
@[simp] theorem driveClk_pend (b : Bool) : (driveClk b s).pend = s.pend := rfl
@[simp] theorem driveClk_wrap (b : Bool) : (driveClk b s).wrap = s.wrap := rfl
@[simp] theorem driveClk_cycleDelay (b : Bool) : (driveClk b s).cycleDelay = s.cycleDelay := rfl
@[simp] theorem driveClk_glyph (b : Bool) : (driveClk b s).glyph = s.glyph := rfl
@[simp] theorem driveClk_en (b : Bool) : (driveClk b s).en = s.en := rfl
@[simp] theorem driveClk_clk (b : Bool) : (driveClk b s).clk = b := rfl
@[simp] theorem driveClk_dout (b : Bool) : (driveClk b s).dout = s.dout := rfl
@[simp] theorem driveClk_loadN (b : Bool) : (driveClk b s).loadN = s.loadN := rfl
@[simp] theorem driveClk_arg (b : Bool) : (driveClk b s).arg = s.arg := rfl
@[simp] theorem driveClk_result (b : Bool) : (driveClk b s).result = s.result := rfl
@[simp] theorem driveClk_ill (b : Bool) : (driveClk b s).ill = s.ill := rfl
@[simp] theorem driveClk_ovr (b : Bool) : (driveClk b s).ovr = s.ovr := rfl
@[simp] theorem driveClk_activity (b : Bool) : (driveClk b s).activity = s.activity := rfl
@[simp] theorem driveClk_inbox (b : Bool) : (driveClk b s).inbox = s.inbox := rfl
@[simp] theorem driveClk_dinIn (b : Bool) : (driveClk b s).dinIn = s.dinIn := rfl
@[simp] theorem driveClk_drawn (b : Bool) : (driveClk b s).drawn = s.drawn := rfl
@[simp] theorem driveClk_trace (b : Bool) : (driveClk b s).trace = .pin .clk b :: s.trace := rfl
@[simp] theorem driveClk_returned (b : Bool) : (driveClk b s).returned = s.returned := rfl

@[simp] theorem driveDout_par (b : Bool) : (driveDout b s).par = s.par := rfl
@[simp] theorem driveDout_lat (b : Bool) : (driveDout b s).lat = s.lat := rfl
@[simp] theorem driveDout_pend (b : Bool) : (driveDout b s).pend = s.pend := rfl
@[simp] theorem driveDout_wrap (b : Bool) : (driveDout b s).wrap = s.wrap := rfl
@[simp] theorem driveDout_cycleDelay (b : Bool) : (driveDout b s).cycleDelay = s.cycleDelay := rfl
@[simp] theorem driveDout_glyph (b : Bool) : (driveDout b s).glyph = s.glyph := rfl
@[simp] theorem driveDout_en (b : Bool) : (driveDout b s).en = s.en := rfl
@[simp] theorem driveDout_clk (b : Bool) : (driveDout b s).clk = s.clk := rfl
@[simp] theorem driveDout_dout (b : Bool) : (driveDout b s).dout = b := rfl
@[simp] theorem driveDout_loadN (b : Bool) : (driveDout b s).loadN = s.loadN := rfl
@[simp] theorem driveDout_arg (b : Bool) : (driveDout b s).arg = s.arg := rfl
@[simp] theorem driveDout_result (b : Bool) : (driveDout b s).result = s.result := rfl
@[simp] theorem driveDout_ill (b : Bool) : (driveDout b s).ill = s.ill := rfl
@[simp] theorem driveDout_ovr (b : Bool) : (driveDout b s).ovr = s.ovr := rfl
@[simp] theorem driveDout_activity (b : Bool) : (driveDout b s).activity = s.activity := rfl
@[simp] theorem driveDout_inbox (b : Bool) : (driveDout b s).inbox = s.inbox := rfl
@[simp] theorem driveDout_dinIn (b : Bool) : (driveDout b s).dinIn = s.dinIn := rfl
@[simp] theorem driveDout_drawn (b : Bool) : (driveDout b s).drawn = s.drawn := rfl
@[simp] theorem driveDout_trace (b : Bool) : (driveDout b s).trace = .pin .dout b :: s.trace := rfl
@[simp] theorem driveDout_returned (b : Bool) : (driveDout b s).returned = s.returned := rfl

@[simp] theorem driveEnable_par (b : Bool) : (driveEnable b s).par = s.par := rfl
@[simp] theorem driveEnable_lat (b : Bool) : (driveEnable b s).lat = s.lat := rfl
@[simp] theorem driveEnable_pend (b : Bool) : (driveEnable b s).pend = s.pend := rfl
@[simp] theorem driveEnable_wrap (b : Bool) : (driveEnable b s).wrap = s.wrap := rfl
@[simp] theorem driveEnable_cycleDelay (b : Bool) : (driveEnable b s).cycleDelay = s.cycleDelay := rfl
@[simp] theorem driveEnable_glyph (b : Bool) : (driveEnable b s).glyph = s.glyph := rfl
@[simp] theorem driveEnable_en (b : Bool) : (driveEnable b s).en = b := rfl
@[simp] theorem driveEnable_clk (b : Bool) : (driveEnable b s).clk = s.clk := rfl
@[simp] theorem driveEnable_dout (b : Bool) : (driveEnable b s).dout = s.dout := rfl
@[simp] theorem driveEnable_loadN (b : Bool) : (driveEnable b s).loadN = !b := rfl
@[simp] theorem driveEnable_arg (b : Bool) : (driveEnable b s).arg = s.arg := rfl
@[simp] theorem driveEnable_result (b : Bool) : (driveEnable b s).result = s.result := rfl
@[simp] theorem driveEnable_ill (b : Bool) : (driveEnable b s).ill = s.ill := rfl
@[simp] theorem driveEnable_ovr (b : Bool) : (driveEnable b s).ovr = s.ovr := rfl
@[simp] theorem driveEnable_activity (b : Bool) : (driveEnable b s).activity = s.activity := rfl
@[simp] theorem driveEnable_inbox (b : Bool) : (driveEnable b s).inbox = s.inbox := rfl
@[simp] theorem driveEnable_dinIn (b : Bool) : (driveEnable b s).dinIn = s.dinIn := rfl
@[simp] theorem driveEnable_drawn (b : Bool) : (driveEnable b s).drawn = s.drawn := rfl
@[simp] theorem driveEnable_trace (b : Bool) : (driveEnable b s).trace = .pin .loadN (!b) :: s.trace := rfl
@[simp] theorem driveEnable_returned (b : Bool) : (driveEnable b s).returned = s.returned := rfl

@[simp] theorem latchAll_par : (latchAll s).par = s.par := rfl
@[simp] theorem latchAll_lat : (latchAll s).lat = List.zipWith latchInto s.pend s.lat := rfl
@[simp] theorem latchAll_pend : (latchAll s).pend = s.pend := rfl
@[simp] theorem latchAll_wrap : (latchAll s).wrap = s.wrap := rfl
@[simp] theorem latchAll_cycleDelay : (latchAll s).cycleDelay = s.cycleDelay := rfl
@[simp] theorem latchAll_glyph : (latchAll s).glyph = s.glyph := rfl
@[simp] theorem latchAll_en : (latchAll s).en = s.en := rfl
@[simp] theorem latchAll_clk : (latchAll s).clk = s.clk := rfl
@[simp] theorem latchAll_dout : (latchAll s).dout = s.dout := rfl
@[simp] theorem latchAll_loadN : (latchAll s).loadN = s.loadN := rfl
@[simp] theorem latchAll_arg : (latchAll s).arg = s.arg := rfl
@[simp] theorem latchAll_result : (latchAll s).result = s.result := rfl
@[simp] theorem latchAll_ill : (latchAll s).ill = s.ill := rfl
@[simp] theorem latchAll_ovr : (latchAll s).ovr = s.ovr := rfl
@[simp] theorem latchAll_activity : (latchAll s).activity = s.activity := rfl
@[simp] theorem latchAll_inbox : (latchAll s).inbox = s.inbox := rfl
@[simp] theorem latchAll_dinIn : (latchAll s).dinIn = s.dinIn := rfl
@[simp] theorem latchAll_drawn : (latchAll s).drawn = s.drawn := rfl
@[simp] theorem latchAll_trace : (latchAll s).trace = s.trace := rfl
@[simp] theorem latchAll_returned : (latchAll s).returned = s.returned := rfl

@[simp] theorem latchChip_par (i : Nat) : (latchChip i s).par = s.par := rfl
@[simp] theorem latchChip_lat (i : Nat) : (latchChip i s).lat = s.lat.modify i (latchInto (s.pending i)) := rfl
@[simp] theorem latchChip_pend (i : Nat) : (latchChip i s).pend = s.pend := rfl
@[simp] theorem latchChip_wrap (i : Nat) : (latchChip i s).wrap = s.wrap := rfl
@[simp] theorem latchChip_cycleDelay (i : Nat) : (latchChip i s).cycleDelay = s.cycleDelay := rfl
@[simp] theorem latchChip_glyph (i : Nat) : (latchChip i s).glyph = s.glyph := rfl
@[simp] theorem latchChip_en (i : Nat) : (latchChip i s).en = s.en := rfl
@[simp] theorem latchChip_clk (i : Nat) : (latchChip i s).clk = s.clk := rfl
@[simp] theorem latchChip_dout (i : Nat) : (latchChip i s).dout = s.dout := rfl
@[simp] theorem latchChip_loadN (i : Nat) : (latchChip i s).loadN = s.loadN := rfl
@[simp] theorem latchChip_arg (i : Nat) : (latchChip i s).arg = s.arg := rfl
@[simp] theorem latchChip_result (i : Nat) : (latchChip i s).result = s.result := rfl
@[simp] theorem latchChip_ill (i : Nat) : (latchChip i s).ill = s.ill := rfl
@[simp] theorem latchChip_ovr (i : Nat) : (latchChip i s).ovr = s.ovr := rfl
@[simp] theorem latchChip_activity (i : Nat) : (latchChip i s).activity = s.activity := rfl
@[simp] theorem latchChip_inbox (i : Nat) : (latchChip i s).inbox = s.inbox := rfl
@[simp] theorem latchChip_dinIn (i : Nat) : (latchChip i s).dinIn = s.dinIn := rfl
@[simp] theorem latchChip_drawn (i : Nat) : (latchChip i s).drawn = s.drawn := rfl
@[simp] theorem latchChip_trace (i : Nat) : (latchChip i s).trace = s.trace := rfl
@[simp] theorem latchChip_returned (i : Nat) : (latchChip i s).returned = s.returned := rfl

@[simp] theorem retire_par : (s.retire).par = s.par := rfl
@[simp] theorem retire_lat : (s.retire).lat = s.lat := rfl
@[simp] theorem retire_pend : (s.retire).pend = s.pend := rfl
@[simp] theorem retire_wrap : (s.retire).wrap = s.wrap := rfl
@[simp] theorem retire_cycleDelay : (s.retire).cycleDelay = s.cycleDelay := rfl
@[simp] theorem retire_glyph : (s.retire).glyph = s.glyph := rfl
@[simp] theorem retire_en : (s.retire).en = s.en := rfl
@[simp] theorem retire_clk : (s.retire).clk = s.clk := rfl
@[simp] theorem retire_dout : (s.retire).dout = s.dout := rfl
@[simp] theorem retire_loadN : (s.retire).loadN = s.loadN := rfl
@[simp] theorem retire_arg : (s.retire).arg = s.arg := rfl
@[simp] theorem retire_result : (s.retire).result = s.result := rfl
@[simp] theorem retire_ill : (s.retire).ill = s.ill := rfl
@[simp] theorem retire_ovr : (s.retire).ovr = s.ovr := rfl
@[simp] theorem retire_activity : (s.retire).activity = .idle := rfl
@[simp] theorem retire_inbox : (s.retire).inbox = s.inbox := rfl
@[simp] theorem retire_dinIn : (s.retire).dinIn = s.dinIn := rfl
@[simp] theorem retire_drawn : (s.retire).drawn = s.drawn := rfl
@[simp] theorem retire_trace : (s.retire).trace = s.trace := rfl
@[simp] theorem retire_returned : (s.retire).returned = s.returned := rfl

@[simp] theorem illegalWord_par : (illegalWord s).par = s.par := rfl
@[simp] theorem illegalWord_lat : (illegalWord s).lat = s.lat := rfl
@[simp] theorem illegalWord_pend : (illegalWord s).pend = s.pend := rfl
@[simp] theorem illegalWord_wrap : (illegalWord s).wrap = s.wrap := rfl
@[simp] theorem illegalWord_cycleDelay : (illegalWord s).cycleDelay = s.cycleDelay := rfl
@[simp] theorem illegalWord_glyph : (illegalWord s).glyph = s.glyph := rfl
@[simp] theorem illegalWord_en : (illegalWord s).en = s.en := rfl
@[simp] theorem illegalWord_clk : (illegalWord s).clk = s.clk := rfl
@[simp] theorem illegalWord_dout : (illegalWord s).dout = s.dout := rfl
@[simp] theorem illegalWord_loadN : (illegalWord s).loadN = s.loadN := rfl
@[simp] theorem illegalWord_arg : (illegalWord s).arg = s.arg := rfl
@[simp] theorem illegalWord_result : (illegalWord s).result = s.result := rfl
@[simp] theorem illegalWord_ill : (illegalWord s).ill = true := rfl
@[simp] theorem illegalWord_ovr : (illegalWord s).ovr = s.ovr := rfl
@[simp] theorem illegalWord_activity : (illegalWord s).activity = s.activity := rfl
@[simp] theorem illegalWord_inbox : (illegalWord s).inbox = s.inbox := rfl
@[simp] theorem illegalWord_dinIn : (illegalWord s).dinIn = s.dinIn := rfl
@[simp] theorem illegalWord_drawn : (illegalWord s).drawn = s.drawn := rfl
@[simp] theorem illegalWord_trace : (illegalWord s).trace = s.trace := rfl
@[simp] theorem illegalWord_returned : (illegalWord s).returned = s.returned := rfl

@[simp] theorem overrun_par : (overrun s).par = s.par := rfl
@[simp] theorem overrun_lat : (overrun s).lat = s.lat := rfl
@[simp] theorem overrun_pend : (overrun s).pend = s.pend := rfl
@[simp] theorem overrun_wrap : (overrun s).wrap = s.wrap := rfl
@[simp] theorem overrun_cycleDelay : (overrun s).cycleDelay = s.cycleDelay := rfl
@[simp] theorem overrun_glyph : (overrun s).glyph = s.glyph := rfl
@[simp] theorem overrun_en : (overrun s).en = s.en := rfl
@[simp] theorem overrun_clk : (overrun s).clk = s.clk := rfl
@[simp] theorem overrun_dout : (overrun s).dout = s.dout := rfl
@[simp] theorem overrun_loadN : (overrun s).loadN = s.loadN := rfl
@[simp] theorem overrun_arg : (overrun s).arg = s.arg := rfl
@[simp] theorem overrun_result : (overrun s).result = s.result := rfl
@[simp] theorem overrun_ill : (overrun s).ill = s.ill := rfl
@[simp] theorem overrun_ovr : (overrun s).ovr = true := rfl
@[simp] theorem overrun_activity : (overrun s).activity = s.activity := rfl
@[simp] theorem overrun_inbox : (overrun s).inbox = s.inbox := rfl
@[simp] theorem overrun_dinIn : (overrun s).dinIn = s.dinIn := rfl
@[simp] theorem overrun_drawn : (overrun s).drawn = s.drawn := rfl
@[simp] theorem overrun_trace : (overrun s).trace = s.trace := rfl
@[simp] theorem overrun_returned : (overrun s).returned = s.returned := rfl

@[simp] theorem writeStatus_par (v : Word) : (writeStatus v s).par = s.par := rfl
@[simp] theorem writeStatus_lat (v : Word) : (writeStatus v s).lat = s.lat := rfl
@[simp] theorem writeStatus_pend (v : Word) : (writeStatus v s).pend = s.pend := rfl
@[simp] theorem writeStatus_wrap (v : Word) : (writeStatus v s).wrap = s.wrap := rfl
@[simp] theorem writeStatus_cycleDelay (v : Word) : (writeStatus v s).cycleDelay = s.cycleDelay := rfl
@[simp] theorem writeStatus_glyph (v : Word) : (writeStatus v s).glyph = s.glyph := rfl
@[simp] theorem writeStatus_en (v : Word) : (writeStatus v s).en = s.en := rfl
@[simp] theorem writeStatus_clk (v : Word) : (writeStatus v s).clk = s.clk := rfl
@[simp] theorem writeStatus_dout (v : Word) : (writeStatus v s).dout = s.dout := rfl
@[simp] theorem writeStatus_loadN (v : Word) : (writeStatus v s).loadN = s.loadN := rfl
@[simp] theorem writeStatus_arg (v : Word) : (writeStatus v s).arg = s.arg := rfl
@[simp] theorem writeStatus_result (v : Word) : (writeStatus v s).result = s.result := rfl
@[simp] theorem writeStatus_ill (v : Word) : (writeStatus v s).ill = (s.ill && !v.getLsbD 2) := rfl
@[simp] theorem writeStatus_ovr (v : Word) : (writeStatus v s).ovr = (s.ovr && !v.getLsbD 3) := rfl
@[simp] theorem writeStatus_activity (v : Word) : (writeStatus v s).activity = s.activity := rfl
@[simp] theorem writeStatus_inbox (v : Word) : (writeStatus v s).inbox = s.inbox := rfl
@[simp] theorem writeStatus_dinIn (v : Word) : (writeStatus v s).dinIn = s.dinIn := rfl
@[simp] theorem writeStatus_drawn (v : Word) : (writeStatus v s).drawn = s.drawn := rfl
@[simp] theorem writeStatus_trace (v : Word) : (writeStatus v s).trace = s.trace := rfl
@[simp] theorem writeStatus_returned (v : Word) : (writeStatus v s).returned = s.returned := rfl

@[simp] theorem answer_par (r : HostReg) (v : Word) : (s.answer r v).par = s.par := rfl
@[simp] theorem answer_lat (r : HostReg) (v : Word) : (s.answer r v).lat = s.lat := rfl
@[simp] theorem answer_pend (r : HostReg) (v : Word) : (s.answer r v).pend = s.pend := rfl
@[simp] theorem answer_wrap (r : HostReg) (v : Word) : (s.answer r v).wrap = s.wrap := rfl
@[simp] theorem answer_cycleDelay (r : HostReg) (v : Word) : (s.answer r v).cycleDelay = s.cycleDelay := rfl
@[simp] theorem answer_glyph (r : HostReg) (v : Word) : (s.answer r v).glyph = s.glyph := rfl
@[simp] theorem answer_en (r : HostReg) (v : Word) : (s.answer r v).en = s.en := rfl
@[simp] theorem answer_clk (r : HostReg) (v : Word) : (s.answer r v).clk = s.clk := rfl
@[simp] theorem answer_dout (r : HostReg) (v : Word) : (s.answer r v).dout = s.dout := rfl
@[simp] theorem answer_loadN (r : HostReg) (v : Word) : (s.answer r v).loadN = s.loadN := rfl
@[simp] theorem answer_arg (r : HostReg) (v : Word) : (s.answer r v).arg = s.arg := rfl
@[simp] theorem answer_result (r : HostReg) (v : Word) : (s.answer r v).result = s.result := rfl
@[simp] theorem answer_ill (r : HostReg) (v : Word) : (s.answer r v).ill = s.ill := rfl
@[simp] theorem answer_ovr (r : HostReg) (v : Word) : (s.answer r v).ovr = s.ovr := rfl
@[simp] theorem answer_activity (r : HostReg) (v : Word) : (s.answer r v).activity = s.activity := rfl
@[simp] theorem answer_inbox (r : HostReg) (v : Word) : (s.answer r v).inbox = s.inbox := rfl
@[simp] theorem answer_dinIn (r : HostReg) (v : Word) : (s.answer r v).dinIn = s.dinIn := rfl
@[simp] theorem answer_drawn (r : HostReg) (v : Word) : (s.answer r v).drawn = s.drawn := rfl
@[simp] theorem answer_trace (r : HostReg) (v : Word) : (s.answer r v).trace = s.trace := rfl
@[simp] theorem answer_returned (r : HostReg) (v : Word) : (s.answer r v).returned = (r, v) :: s.returned := rfl

end Sys2Proof.Machine
end

