-- ==== Sys2Proof/Laws/Exchange.lean ====
section
/-! SUPPORT. Laws/Exchange.lean: what one exchange does, as one equation (R94, R95). -/

namespace Sys2Proof.Machine
open Sys2Proof

theorem foldl_shiftConcat_getLsbD (g : Nat → Bool) (k : Nat) (r : Frame) {i : Nat} (hi : i < 16) :
    ((List.range k).foldl (fun r j => r.shiftConcat (g j)) r).getLsbD i =
      if i < k then g (k - 1 - i) else r.getLsbD (i - k) := by
  induction k generalizing i with
  | zero => simp
  | succ k ih =>
    rw [List.range_succ, List.foldl_append]
    simp only [List.foldl_cons, List.foldl_nil, BitVec.getLsbD_shiftConcat]
    cases i with
    | zero => simp
    | succ i =>
      rw [Nat.add_sub_cancel, ih (by omega)]
      by_cases h : i < k
      · simp [h, hi, show k - 1 - i = k - (i + 1) by omega]
      · simp [h, hi]

/-- The `j`-th of the sixteen draws is bit 15 − j of the received frame: the first sampled bit ends in bit 15 (R35). -/
theorem drawnFrame_getLsbD (s : State) (off : Nat) {j : Nat} (hj : j < 16) :
    (s.drawnFrame off).getLsbD (15 - j) = s.draw (off + j) := by
  unfold State.drawnFrame
  rw [foldl_shiftConcat_getLsbD (fun j => s.draw (off + j)) 16 0#16 (by omega)]
  simp only [show 15 - j < 16 by omega, if_true, show 16 - 1 - (15 - j) = j by omega]

/-- A draw depends only on the environment's samples and on how many were taken. -/
theorem draw_congr {s t : State} {m : Nat} (h1 : t.dinIn = s.dinIn.drop m) (h2 : t.drawn = s.drawn + m) (j : Nat) :
    t.draw j = s.draw (m + j) := by
  simp [State.draw, h1, h2, Nat.add_assoc]

theorem drawnFrame_congr {s t : State} {m : Nat} (h1 : t.dinIn = s.dinIn.drop m) (h2 : t.drawn = s.drawn + m)
    (off : Nat) : t.drawnFrame off = s.drawnFrame (m + off) := by
  simp [State.drawnFrame, draw_congr h1 h2, Nat.add_assoc]

/-- The loop of the exchange after `k` more bits, in closed form. -/
theorem exchangeBits_eq (k : Nat) (t r : Frame) (s : State) :
    exchangeBits k t r s =
      ((List.range k).foldl (fun r j => r.shiftConcat (s.draw j)) r,
       { s with
         clk := if k = 0 then s.clk else false
         dout := if k = 0 then s.dout else (if 16 < k then false else t.getLsbD (16 - k))
         dinIn := s.dinIn.drop k
         drawn := s.drawn + k
         trace := ((List.range k).flatMap fun j => bitEvents (decide (j < 16) && t.getLsbD (15 - j)) (s.draw j)).reverse
           ++ s.trace }) := by
  induction k generalizing t r s with
  | zero => simp [exchangeBits]
  | succ k ih =>
    have hd : ∀ j, ({ s with
        clk := false, dout := t.getLsbD 15, dinIn := s.dinIn.tail, drawn := s.drawn + 1,
        trace := .pin .clk false :: .sample (s.draw 0) :: .waitHalf :: .pin .clk true :: .waitHalf ::
          .pin .dout (t.getLsbD 15) :: s.trace } : State).draw j = s.draw (j + 1) := by
      intro j
      simp [State.draw, Nat.add_assoc, Nat.add_comm 1 j]
    have step : exchangeBits (k + 1) t r s =
        exchangeBits k (t.shiftConcat false) (r.shiftConcat (s.draw 0)) { s with
          clk := false, dout := t.getLsbD 15, dinIn := s.dinIn.tail, drawn := s.drawn + 1,
          trace := .pin .clk false :: .sample (s.draw 0) :: .waitHalf :: .pin .clk true :: .waitHalf ::
            .pin .dout (t.getLsbD 15) :: s.trace } := rfl
    rw [step, ih]
    simp only [hd, List.range_succ_eq_map, List.foldl_cons, List.foldl_map, List.flatMap_cons, List.flatMap_map]
    congr 1
    simp only [State.mk.injEq, true_and, and_true]
    refine ⟨?_, ?_, ?_, ?_, ?_⟩
    · simp
    · rcases Nat.eq_zero_or_pos k with rfl | hk
      · simp
      · simp only [show k ≠ 0 by omega, if_false, BitVec.getLsbD_shiftConcat, Nat.succ_ne_zero]
        by_cases h16 : 16 < k
        · simp [h16, show 16 < k + 1 by omega]
        · by_cases e : k = 16
          · subst e; simp
          · simp [h16, show ¬ 16 < k + 1 by omega, show 16 - k ≠ 0 by omega, show 16 - k < 16 by omega,
              show 16 - k - 1 = 16 - (k + 1) by omega]
    · simp
    · omega
    · simp only [bitEvents, List.reverse_append, List.append_assoc]
      congr 1
      congr 1
      apply List.flatMap_congr
      intro j _
      congr 1
      rw [BitVec.getLsbD_shiftConcat]
      by_cases hj : j < 15
      · simp only [show j < 16 by omega, show j + 1 < 16 by omega, show 15 - j ≠ 0 by omega,
          show 15 - j < 16 by omega, show 15 - j - 1 = 15 - (j + 1) by omega, decide_true, Bool.true_and, if_false]
      · simp [show ¬ j + 1 < 16 by omega, show 15 - j = 0 by omega]

theorem frame_events_eq (out inn : Frame) :
    (FrameEvent.frame out inn).events =
      (List.range 16).flatMap fun j => bitEvents (out.getLsbD (15 - j)) (inn.getLsbD (15 - j)) := by
  simp [FrameEvent.events, wireBits, List.zipWith_map, List.flatMap_def]

/-- Everything one exchange does (R94, R95): it returns the next sixteen draws, first one in bit 15; CLK ends low, DOUT
holds bit 0 of the sent frame; it takes sixteen samples; its events are those of one frame; nothing else changes. -/
theorem exchange_eq (out : Frame) (s : State) :
    exchange out s =
      (s.drawnFrame 0,
       { s with
         clk := false
         dout := out.getLsbD 0
         dinIn := s.dinIn.drop 16
         drawn := s.drawn + 16
         trace := (FrameEvent.frame out (s.drawnFrame 0)).events.reverse ++ s.trace }) := by
  have h : ((List.range 16).flatMap fun j => bitEvents (decide (j < 16) && out.getLsbD (15 - j)) (s.draw j)) =
      (FrameEvent.frame out (s.drawnFrame 0)).events := by
    rw [frame_events_eq]
    apply List.flatMap_congr
    intro j hj
    have hj : j < 16 := by simpa using hj
    rw [drawnFrame_getLsbD s 0 hj]
    simp [hj]
  rw [exchange, exchangeBits_eq, h]
  simp [State.drawnFrame]

/-- The events of an exchange, as Safety.lean writes them. -/
theorem frame_events_drawn (f : Frame) (s : State) :
    (FrameEvent.frame f (s.drawnFrame 0)).events = exchangeEvents f s := by
  rw [frame_events_eq, exchangeEvents]
  apply List.flatMap_congr
  intro j hj
  rw [drawnFrame_getLsbD s 0 (by simpa using hj)]
  simp [bitEvents]

end Sys2Proof.Machine
end

