-- ==== Sys2Proof/Laws/Operands.lean ====
section
/-! SUPPORT. Laws/Operands.lean: frame packing, masks, the parameter maps, and reads of the mirror. -/

namespace Sys2Proof.Machine
open Sys2Proof

@[simp] theorem addrOf_pack (a d : Byte) : addrOf (pack a d) = a := by
  apply BitVec.eq_of_getLsbD_eq
  intro i hi
  simp [addrOf, pack, hi, show 8 + i < 16 by omega]

@[simp] theorem dataOf_pack (a d : Byte) : dataOf (pack a d) = d := by
  apply BitVec.eq_of_getLsbD_eq
  intro i hi
  simp [dataOf, pack, hi, show i < 16 by omega]

theorem pack_addrOf_dataOf (f : Frame) : pack (addrOf f) (dataOf f) = f := by
  apply BitVec.eq_of_getLsbD_eq
  intro i hi
  by_cases h : i < 8
  · simp [pack, addrOf, dataOf, hi, h]
  · have : i - 8 < 8 := by omega
    simp [pack, addrOf, dataOf, hi, h, this, show 8 + (i - 8) = i by omega]

theorem pack_zero : pack 0 0 = 0 := by decide

@[simp] theorem addrOf_zero : addrOf 0#16 = 0#8 := by decide
@[simp] theorem dataOf_zero : dataOf 0#16 = 0#8 := by decide

/-- A frame is zero or carries the address `a`, exactly when it is zero or is `pack a` of its data byte. -/
theorem eq_pack_of_addrOf {f : Frame} {a : Byte} (h : addrOf f = a) : f = pack a (dataOf f) := by
  rw [← h, pack_addrOf_dataOf]

theorem regAt_of_ge {r : LatFile} {a : Byte} (h : 16 ≤ a.toNat) : regAt r a = 0 := by
  simp [regAt, h]

/-- What a latch does to a read: the slot the frame's address byte names holds the frame, every other read is as before
(R114, R115). -/
theorem regAt_latchInto (f : Frame) (r : LatFile) (a : Byte) :
    regAt (latchInto f r) a = if addrOf f = a ∧ a.toNat < 16 then f else regAt r a := by
  unfold latchInto
  by_cases ha : a.toNat < 16
  · by_cases h : (addrOf f).toNat < 16
    · simp only [h, dif_pos, regAt, ha, and_true]
      by_cases e : addrOf f = a
      · subst e; simp [h]
      · have : (addrOf f).toNat ≠ a.toNat := fun q => e (BitVec.eq_of_toNat_eq q)
        simp [e, this]
    · have : addrOf f ≠ a := fun q => h (q ▸ ha)
      simp [h, this]
  · simp [ha, regAt_of_ge (Nat.le_of_not_lt ha)]

theorem latched_of_lt {s : State} {i : Nat} (h : i < s.lat.length) (a : Byte) :
    s.latched i a = regAt s.lat[i] a := by
  simp [State.latched, h]

theorem latched_of_ge {s : State} {i : Nat} (h : s.lat.length ≤ i) (a : Byte) : s.latched i a = 0 := by
  simp [State.latched, h]

theorem latched_high (s : State) (i : Nat) {a : Byte} (h : 16 ≤ a.toNat) : s.latched i a = 0 := by
  unfold State.latched
  split
  · exact regAt_of_ge h
  · rfl

theorem pending_of_lt {s : State} {i : Nat} (h : i < s.pend.length) : s.pending i = s.pend[i] := by
  simp [State.pending, h]

/-- The read of a mirror register depends on LAT alone. -/
theorem latched_congr {s t : State} (h : t.lat = s.lat) (i : Nat) (a : Byte) : t.latched i a = s.latched i a := by
  simp [State.latched, h]

theorem resetByte_zero {p : Params} (h : p.Legal) : resetByte p 0#8 = 0#8 := by
  obtain ⟨-, -, hr⟩ := h
  have key : ∀ a ∈ p.addresses, 0#8 ≠ a := by
    rintro a ha rfl
    exact absurd (hr _ ha).1 (by decide)
  simp [resetByte, key _ (show p.addrDecodeMode ∈ p.addresses by simp [Params.addresses]),
    key _ (show p.addrIntensity ∈ p.addresses by simp [Params.addresses]),
    key _ (show p.addrScanLimit ∈ p.addresses by simp [Params.addresses]),
    key _ (show p.addrShutdown ∈ p.addresses by simp [Params.addresses]),
    key _ (show p.addrDisplayTest ∈ p.addresses by simp [Params.addresses])]

/-! Reset (R31). -/

theorem resetWith_latched (p : Params) (i : Nat) (a : Byte) : (State.resetWith p).latched i a = 0 := by
  rcases Nat.lt_or_ge i p.n with h | h
  · rw [latched_of_lt (by simp [State.resetWith, h])]
    rcases Nat.lt_or_ge a.toNat 16 with k | k <;> simp [State.resetWith, regAt, k]
  · exact latched_of_ge (by simp [State.resetWith, h]) a

theorem resetWith_pending (p : Params) (i : Nat) : (State.resetWith p).pending i = 0 := by
  simp only [State.resetWith, State.pending, List.getElem?_replicate]
  split <;> rfl

theorem resetWith_glyphAt (p : Params) (g : Nat) : (State.resetWith p).glyphAt g = 0 := by
  simp only [State.resetWith, State.glyphAt, List.getElem?_replicate]
  split <;> rfl

theorem chipOf_lt {n : Nat} (hn : 1 ≤ n) (scr : Byte) : chipOf n scr < n := by
  unfold chipOf; split <;> omega

theorem rowMask_getLsbD {r : Byte} (h : inOneToEight r = true) {j : Nat} (hj : j < 8) :
    (rowMask r).getLsbD j = decide (j + 1 = r.toNat) := by
  simp only [inOneToEight, decide_eq_true_eq] at h
  simp only [rowMask, BitVec.getLsbD_shiftLeft, BitVec.getLsbD_one]
  by_cases e : j + 1 = r.toNat
  · simp [hj, e]; omega
  · simp [hj, e]; omega

theorem defaultColumnByte_getLsbD (g : Glyph) (c : Nat) {y : Nat} (hy : y < 8) :
    (defaultColumnByte g c).getLsbD y = g.getLsbD (8 * y + (c - 1)) := by
  have : y = 0 ∨ y = 1 ∨ y = 2 ∨ y = 3 ∨ y = 4 ∨ y = 5 ∨ y = 6 ∨ y = 7 := by omega
  rcases this with h | h | h | h | h | h | h | h <;> subst h <;>
    simp [defaultColumnByte]

/-- The eight column addresses of a legal block are distinct, and lie in 1..15 (R5). -/
theorem col_toNat {p : Params} (h : p.Legal) {c : Nat} (h1 : 1 ≤ c) (h8 : c ≤ 8) :
    1 ≤ (col p c).toNat ∧ (col p c).toNat ≤ 15 := by
  obtain ⟨-, -, hr⟩ := h
  apply hr
  simp only [Params.addresses, List.mem_append]
  left
  have : c - 1 < 8 := by omega
  simp [col, this]

theorem col_injective {p : Params} (h : p.Legal) {c d : Nat} (h1 : 1 ≤ c) (h8 : c ≤ 8) (k1 : 1 ≤ d) (k8 : d ≤ 8)
    (e : col p c = col p d) : c = d := by
  obtain ⟨-, hn, -⟩ := h
  have hn := (List.nodup_append.mp hn).1
  have hc : c - 1 < 8 := by omega
  have hd : d - 1 < 8 := by omega
  simp only [col, hc, hd, Vector.getElem?_eq_getElem, Option.getD_some] at e
  have := (List.Nodup.getElem_inj_iff hn (i := c - 1) (j := d - 1) (hi := by simpa) (hj := by simpa)).mp (by simpa using e)
  omega

theorem scrolledByte_getLsbD_zero (s : State) (a : Byte) (i : Nat) :
    (s.scrolledByte a i).getLsbD 0 =
      if 1 ≤ i then (s.latched (i - 1) a).getLsbD 7 else s.wrap && (s.latched (s.par.n - 1) a).getLsbD 7 := by
  simp [State.scrolledByte]

theorem scrolledByte_getLsbD_succ (s : State) (a : Byte) (i : Nat) {b : Nat} (h : b < 7) :
    (s.scrolledByte a i).getLsbD (b + 1) = (s.latched i a).getLsbD b := by
  simp [State.scrolledByte, dataOf, show b + 1 < 8 by omega]

theorem dataOf_getLsbD (f : Frame) {j : Nat} (h : j < 8) : (dataOf f).getLsbD j = f.getLsbD j := by
  simp [dataOf, h]

end Sys2Proof.Machine
end

