-- ==== Sys2Proof/Laws/Chain.lean ====
section
/-! SUPPORT. Laws/Chain.lean: what a session of frames does to the line and to the mirror (R97 to R100, R125 to R128). -/

namespace Sys2Proof.Machine
open Sys2Proof

/-! Line activities compose. -/

theorem sentCount_append (as bs : List LineAct) : sentCount (as ++ bs) = sentCount as + sentCount bs := by
  simp [sentCount]

theorem doutAfter_append (d : Bool) (as bs : List LineAct) :
    doutAfter d (as ++ bs) = doutAfter (doutAfter d as) bs := by
  simp [doutAfter]

theorem lineEvents_congr {s t : State} {m : Nat} (h1 : t.dinIn = s.dinIn.drop m) (h2 : t.drawn = s.drawn + m)
    (acts : List LineAct) (off : Nat) : lineEvents t off acts = lineEvents s (m + off) acts := by
  induction acts generalizing off with
  | nil => rfl
  | cons a as ih =>
    cases a <;> simp [lineEvents, ih, drawnFrame_congr h1 h2, Nat.add_assoc]

theorem lineEvents_append (s : State) (as bs : List LineAct) (off : Nat) :
    lineEvents s off (as ++ bs) = lineEvents s off as ++ lineEvents s (off + 16 * sentCount as) bs := by
  induction as generalizing off with
  | nil => simp [lineEvents, sentCount]
  | cons a as ih =>
    cases a <;> simp [lineEvents, ih, sentCount, Nat.mul_add, Nat.add_assoc, Nat.add_comm 16]

theorem Shows.refl (s : State) : Shows s s [] := by
  constructor <;> simp [lineEvents, sentCount, doutAfter]

theorem Shows.trans {s t u : State} {as bs : List LineAct} (h : Shows s t as) (k : Shows t u bs) :
    Shows s u (as ++ bs) where
  trace := by
    rw [k.trace, h.trace, lineEvents_append, lineEvents_congr h.dinIn h.drawn]
    simp
  drawn := by rw [k.drawn, h.drawn, sentCount_append]; omega
  dinIn := by rw [k.dinIn, h.dinIn, sentCount_append, List.drop_drop, Nat.mul_add]
  dout := by rw [k.dout, h.dout, doutAfter_append]

theorem devicesDown_succ (n : Nat) : devicesDown (n + 1) = (n + 1) :: devicesDown n := by
  simp [devicesDown, List.range'_1_concat, Nat.add_comm]

theorem sentCount_sends (f : Nat → Frame) (l : List Nat) : sentCount (l.map fun j => .sent (f j)) = l.length := by
  induction l with
  | nil => rfl
  | cons j l ih => simp [sentCount]

theorem devicesDown_length (n : Nat) : (devicesDown n).length = n := by simp [devicesDown]

theorem sentCount_sessionActs (n : Nat) (f : Nat → Frame) : sentCount (sessionActs n f) = n := by
  have := sentCount_sends f (devicesDown n)
  rw [devicesDown_length] at this
  simpa [sessionActs, sentCount] using this

/-! One send, and a session's sends. -/

/-- Everything one chain send does (R98): the mirror shifts, and one exchange happens. -/
theorem chainSend_eq (f : Frame) (s : State) :
    chainSend f s =
      (s.drawnFrame 0,
       { s with
         pend := shiftIn f s.pend
         clk := false
         dout := f.getLsbD 0
         dinIn := s.dinIn.drop 16
         drawn := s.drawn + 16
         trace := (FrameEvent.frame f (s.drawnFrame 0)).events.reverse ++ s.trace }) := by
  rw [chainSend, exchange_eq]
  rfl

theorem shiftIn_length (f : Frame) (l : List Frame) : (shiftIn f l).length = l.length := by
  simp [shiftIn]

/-- R98's loop: chip 0 takes the new frame, chip i the value of chip i − 1. -/
theorem shiftIn_getElem? (f : Frame) (l : List Frame) {i : Nat} (h : i < l.length) :
    (shiftIn f l)[i]? = if i = 0 then some f else l[i - 1]? := by
  cases i with
  | zero => simp [shiftIn, h]
  | succ i => simp [shiftIn, h]

theorem take_append_take (a b : List Frame) (f : Frame) :
    (a ++ (f :: b).take b.length).take b.length = (a ++ f :: b).take b.length := by
  simp [List.take_append, List.take_take]

/-- Everything the sends of a session do: the last frame sent is nearest (R125, R126). -/
theorem sendDown_eq (f : Nat → Frame) (n : Nat) (s : State) :
    sendDown f n s =
      { s with
        pend := ((List.range n).map (fun i => f (i + 1)) ++ s.pend).take s.pend.length
        clk := if n = 0 then s.clk else false
        dout := doutAfter s.dout ((devicesDown n).map fun j => .sent (f j))
        dinIn := s.dinIn.drop (16 * n)
        drawn := s.drawn + 16 * n
        trace := ((lineEvents s 0 ((devicesDown n).map fun j => .sent (f j))).flatMap FrameEvent.events).reverse
          ++ s.trace } := by
  induction n generalizing s with
  | zero => simp [sendDown, devicesDown, doutAfter, lineEvents]
  | succ n ih =>
    rw [sendDown, ih, chainSend_eq]
    simp only [devicesDown_succ, List.map_cons, lineEvents, shiftIn_length]
    have hl := lineEvents_congr (s := s) (t := (chainSend (f (n + 1)) s).2) (m := 16)
      (by rw [chainSend_eq]) (by rw [chainSend_eq]) ((devicesDown n).map fun j => .sent (f j)) 0
    rw [chainSend_eq] at hl
    simp only [State.mk.injEq, true_and, and_true]
    refine ⟨?_, ?_, ?_, ?_, ?_, ?_⟩
    · rw [shiftIn, take_append_take, List.range_succ, List.map_append, List.append_assoc]
      rfl
    · split <;> simp
    · simp [doutAfter]
    · rw [List.drop_drop]; congr 1; omega
    · omega
    · rw [hl]; simp

/-- The pending registers after a session of N sends: chip i holds the frame for device i + 1 (R126). -/
def sessionPend (f : Nat → Frame) (s : State) : List Frame :=
  ((List.range s.par.n).map (fun i => f (i + 1)) ++ s.pend).take s.pend.length

/-- Everything a session does (R97 to R99, R125). -/
theorem session_eq (f : Nat → Frame) (s : State) :
    session f s =
      { s with
        lat := List.zipWith latchInto (sessionPend f s) s.lat
        pend := sessionPend f s
        en := false
        loadN := true
        clk := if s.par.n = 0 then s.clk else false
        dout := doutAfter s.dout (sessionActs s.par.n f)
        dinIn := s.dinIn.drop (16 * s.par.n)
        drawn := s.drawn + 16 * s.par.n
        trace := ((lineEvents s 0 (sessionActs s.par.n f)).flatMap FrameEvent.events).reverse ++ s.trace } := by
  have hl := lineEvents_congr (s := s) (t := openLine s) (m := 0) rfl rfl
    ((devicesDown s.par.n).map fun j => .sent (f j)) 0
  have hs := sentCount_sends f (devicesDown s.par.n)
  rw [devicesDown_length] at hs
  rw [session, sendDown_eq]
  simp only [chainClose, latchAll, closeLine, waitHalf, State.emit, driveEnable, openLine, sessionActs, sessionPend,
    Bool.not_true, Bool.not_false] at hl ⊢
  simp only [State.mk.injEq, true_and, and_true]
  refine ⟨?_, ?_⟩
  · simp [doutAfter]
  · rw [hl, List.cons_append, lineEvents, lineEvents_append]
    simp [lineEvents, FrameEvent.events]

/-! The relation that chain commands are stated in. -/

theorem SameHost.refl (s : State) : SameHost s s := ⟨rfl, rfl, rfl, rfl, rfl, rfl, rfl⟩

theorem SameHost.trans {s t u : State} (h : SameHost s t) (k : SameHost t u) : SameHost s u :=
  ⟨k.par.trans h.par, k.arg.trans h.arg, k.ill.trans h.ill, k.ovr.trans h.ovr, k.activity.trans h.activity,
    k.inbox.trans h.inbox, k.returned.trans h.returned⟩

theorem SameConfig.refl (s : State) : SameConfig s s := ⟨rfl, rfl, rfl⟩

theorem SameConfig.trans {s t u : State} (h : SameConfig s t) (k : SameConfig t u) : SameConfig s u :=
  ⟨k.wrap.trans h.wrap, k.cycleDelay.trans h.cycleDelay, k.glyph.trans h.glyph⟩

theorem ChainEffect.trans {s t u : State} {as bs : List LineAct} (h : ChainEffect s t as) (k : ChainEffect t u bs) :
    ChainEffect s u (as ++ bs) where
  host := h.host.trans k.host
  config := h.config.trans k.config
  result := k.result.trans h.result
  latCount := k.latCount.trans h.latCount
  pendCount := k.pendCount.trans h.pendCount
  shows := h.shows.trans k.shows
  en := k.en
  loadN := k.loadN
  clk := k.clk

theorem sessionPend_length (f : Nat → Frame) (s : State) : (sessionPend f s).length = s.pend.length := by
  simp [sessionPend]

/-- The mirror has one latched file and one pending register per device (R14, R16). -/
structure State.Sized (s : State) : Prop where
  latCount : s.lat.length = s.par.n
  pendCount : s.pend.length = s.par.n

theorem State.Inv.sized {s : State} (h : s.Inv) : s.Sized := ⟨h.latCount, h.pendCount⟩

theorem ChainEffect.sized {s t : State} {acts : List LineAct} (h : ChainEffect s t acts) (k : s.Sized) : t.Sized :=
  ⟨by rw [h.latCount, h.host.par, k.latCount], by rw [h.pendCount, h.host.par, k.pendCount]⟩

/-- A session shows its frames and leaves everything but the mirror and the line as it was. -/
theorem session_effect (f : Nat → Frame) {s : State} (hs : s.Sized) (hc : s.clk = false) :
    ChainEffect s (session f s) (sessionActs s.par.n f) := by
  rw [session_eq]
  refine ⟨⟨rfl, rfl, rfl, rfl, rfl, rfl, rfl⟩, ⟨rfl, rfl, rfl⟩, rfl, ?_, ?_, ⟨rfl, ?_, ?_, rfl⟩, rfl, rfl, ?_⟩
  · simp [sessionPend_length, hs.latCount, hs.pendCount]
  · simp [sessionPend_length]
  · simp [sentCount_sessionActs]
  · simp [sentCount_sessionActs]
  · simp [hc]

theorem sessionPend_eq (f : Nat → Frame) {s : State} (hs : s.Sized) :
    sessionPend f s = (List.range s.par.n).map fun i => f (i + 1) := by
  simp [sessionPend, hs.pendCount]

/-- After a session each pending register holds the frame sent for its device (R126). -/
theorem session_pending (f : Nat → Frame) {s : State} (hs : s.Sized) {i : Nat} (hi : i < s.par.n) :
    (session f s).pending i = f (i + 1) := by
  rw [session_eq]
  simp [State.pending, sessionPend_eq f hs, hi]

/-- After a session each chip has latched the frame sent for its device, and nothing else (R126). -/
theorem session_latched (f : Nat → Frame) {s : State} (hs : s.Sized) {i : Nat} (hi : i < s.par.n) (a : Byte) :
    (session f s).latched i a = if addrOf (f (i + 1)) = a ∧ a.toNat < 16 then f (i + 1) else s.latched i a := by
  have hl : i < s.lat.length := by rw [hs.latCount]; exact hi
  rw [session_eq]
  simp only [State.latched, sessionPend_eq f hs]
  rw [List.getElem?_zipWith]
  simp [hi, hl, regAt_latchInto]

/-- WriteChip on the mirror (R126, R127): device k's addressed register takes the frame if the address is at most 15,
slot 0 of every other device takes 0x0000, nothing else changes. -/
theorem writeChip_latched (k : Nat) (a d : Byte) {s : State} (hs : s.Sized) {i : Nat} (hi : i < s.par.n) (b : Byte) :
    (writeChip k a d s).latched i b =
      if i + 1 = k then (if b = a ∧ a.toNat ≤ 15 then pack a d else s.latched i b)
      else if b = 0 then 0 else s.latched i b := by
  rw [writeChip, session_latched _ hs hi]
  by_cases hk : i + 1 = k
  · simp only [chipFrame, hk, if_true, addrOf_pack]
    by_cases hb : a = b
    · subst hb; simp [Nat.lt_succ_iff]
    · simp [hb, Ne.symm hb]
  · simp only [chipFrame, hk, if_false]
    by_cases hb : 0#8 = b
    · subst hb; simp
    · simp [hb, Ne.symm hb]

theorem writeChip_pending (k : Nat) (a d : Byte) {s : State} (hs : s.Sized) {i : Nat} (hi : i < s.par.n) :
    (writeChip k a d s).pending i = if i + 1 = k then pack a d else 0 := by
  rw [writeChip, session_pending _ hs hi, chipFrame]

theorem writeChip_effect (k : Nat) (a d : Byte) {s : State} (hs : s.Sized) (hc : s.clk = false) :
    ChainEffect s (writeChip k a d s) (sessionActs s.par.n (chipFrame k (pack a d))) :=
  session_effect _ hs hc

/-! Equal reads are equal mirrors. -/

theorem regAt_ext {r q : LatFile} (h : ∀ a, regAt r a = regAt q a) : r = q := by
  apply Vector.ext
  intro i hi
  have := h (BitVec.ofNat 8 i)
  have hm : (BitVec.ofNat 8 i).toNat = i := by simp; omega
  simpa [regAt, hm, hi] using this

theorem lat_ext {s t : State} (hs : s.Sized) (ht : t.Sized) (hp : t.par = s.par)
    (h : ∀ i < s.par.n, ∀ a, t.latched i a = s.latched i a) : t.lat = s.lat := by
  apply List.ext_getElem
  · rw [ht.latCount, hs.latCount, hp]
  · intro i h1 h2
    apply regAt_ext
    intro a
    have := h i (by rw [← hs.latCount]; exact h2) a
    rwa [latched_of_lt h1, latched_of_lt h2] at this

theorem pend_ext {s t : State} (hs : s.Sized) (ht : t.Sized) (hp : t.par = s.par)
    (h : ∀ i < s.par.n, t.pending i = s.pending i) : t.pend = s.pend := by
  apply List.ext_getElem
  · rw [ht.pendCount, hs.pendCount, hp]
  · intro i h1 h2
    have := h i (by rw [← hs.pendCount]; exact h2)
    rwa [pending_of_lt h1, pending_of_lt h2] at this

/-- A session depends on the frames of its devices only. -/
theorem session_congr {f g : Nat → Frame} {s : State} (h : ∀ j, 1 ≤ j → j ≤ s.par.n → f j = g j) :
    session f s = session g s := by
  have key : ∀ n, n ≤ s.par.n → ∀ t, sendDown f n t = sendDown g n t := by
    intro n
    induction n with
    | zero => intro _ _; rfl
    | succ n ih => intro hn t; rw [sendDown, sendDown, h _ (by omega) hn, ih (by omega)]
  rw [session, session, key _ (le_refl _)]

end Sys2Proof.Machine
end

