-- ==== Sys2Proof/Laws/Quiet.lean ====
section
/-! SUPPORT. Laws/Quiet.lean: what every shared operation leaves alone, in every state: the host's side, the configuration and
RESULT; and that the record only grows. -/

namespace Sys2Proof.Machine
open Sys2Proof

/-- From `s` to `t` only the mirror and the line have changed, and the record has only grown. -/
structure Quiet (s t : State) : Prop where
  host : SameHost s t
  config : SameConfig s t
  result : t.result = s.result
  grows : ∃ evs, t.trace = evs ++ s.trace
  drawn : s.drawn ≤ t.drawn

theorem Quiet.refl (s : State) : Quiet s s := ⟨.refl s, .refl s, rfl, ⟨[], rfl⟩, le_refl _⟩

theorem Quiet.trans {s t u : State} (h : Quiet s t) (k : Quiet t u) : Quiet s u where
  host := h.host.trans k.host
  config := h.config.trans k.config
  result := k.result.trans h.result
  grows := by
    obtain ⟨e, he⟩ := h.grows
    obtain ⟨f, hf⟩ := k.grows
    exact ⟨f ++ e, by rw [hf, he, List.append_assoc]⟩
  drawn := h.drawn.trans k.drawn

theorem openLine_quiet (s : State) : Quiet s (openLine s) :=
  ⟨⟨rfl, rfl, rfl, rfl, rfl, rfl, rfl⟩, ⟨rfl, rfl, rfl⟩, rfl, ⟨[_], rfl⟩, le_refl _⟩

theorem closeLine_quiet (s : State) : Quiet s (closeLine s) :=
  ⟨⟨rfl, rfl, rfl, rfl, rfl, rfl, rfl⟩, ⟨rfl, rfl, rfl⟩, rfl, ⟨[_, _, _], rfl⟩, le_refl _⟩

theorem waitDelay_quiet (s : State) : Quiet s (waitDelay s) :=
  ⟨⟨rfl, rfl, rfl, rfl, rfl, rfl, rfl⟩, ⟨rfl, rfl, rfl⟩, rfl, ⟨[_], rfl⟩, le_refl _⟩

theorem latchAll_quiet (s : State) : Quiet s (latchAll s) :=
  ⟨⟨rfl, rfl, rfl, rfl, rfl, rfl, rfl⟩, ⟨rfl, rfl, rfl⟩, rfl, ⟨[], rfl⟩, le_refl _⟩

theorem chainClose_quiet (s : State) : Quiet s (chainClose s) := (closeLine_quiet s).trans (latchAll_quiet _)

theorem exchange_quiet (f : Frame) (s : State) : Quiet s (exchange f s).2 := by
  rw [exchange_eq]
  exact ⟨⟨rfl, rfl, rfl, rfl, rfl, rfl, rfl⟩, ⟨rfl, rfl, rfl⟩, rfl, ⟨_, rfl⟩, Nat.le_add_right _ _⟩

theorem chainSend_quiet (f : Frame) (s : State) : Quiet s (chainSend f s).2 := by
  rw [chainSend_eq]
  exact ⟨⟨rfl, rfl, rfl, rfl, rfl, rfl, rfl⟩, ⟨rfl, rfl, rfl⟩, rfl, ⟨_, rfl⟩, Nat.le_add_right _ _⟩

theorem session_quiet (f : Nat → Frame) (s : State) : Quiet s (session f s) := by
  rw [session_eq]
  exact ⟨⟨rfl, rfl, rfl, rfl, rfl, rfl, rfl⟩, ⟨rfl, rfl, rfl⟩, rfl, ⟨_, rfl⟩, Nat.le_add_right _ _⟩

theorem writeChip_quiet (k : Nat) (a d : Byte) (s : State) : Quiet s (writeChip k a d s) := session_quiet _ s

/-- A loop over a list of numbers is quiet if its body is. -/
theorem foldl_quiet {op : State → Nat → State} (h : ∀ s c, Quiet s (op s c)) (l : List Nat) (s : State) :
    Quiet s (l.foldl op s) := by
  induction l generalizing s with
  | nil => exact .refl s
  | cons c l ih => exact (h s c).trans (ih _)

theorem setLetterOn_quiet (k : Nat) (g : Glyph) (s : State) : Quiet s (setLetterOn k g s) :=
  foldl_quiet (fun _ _ => writeChip_quiet ..) _ s

theorem scrollStep_quiet (s : State) : Quiet s (scrollStep s) :=
  ((foldl_quiet (fun _ _ => session_quiet ..) columns s).trans (openLine_quiet _)).trans (chainClose_quiet _)

theorem cycleStepsOf_quiet (n : Nat) (s : State) : Quiet s (cycleStepsOf n s) := by
  induction n generalizing s with
  | zero => exact .refl s
  | succ n ih =>
    cases n with
    | zero => exact scrollStep_quiet s
    | succ n => exact ((scrollStep_quiet s).trans (waitDelay_quiet _)).trans (ih _)

theorem flush_quiet (n : Nat) (s : State) : Quiet s (flush n s) := by
  induction n generalizing s with
  | zero => exact .refl s
  | succ n ih =>
    exact (((openLine_quiet s).trans (chainSend_quiet 0 _)).trans (chainClose_quiet _)).trans (ih _)

theorem wordTo_quiet (len k : Nat) (s : State) : Quiet s (wordTo len k s) := by
  induction k with
  | zero => exact .refl s
  | succ k ih => exact ih.trans (setLetterOn_quiet ..)

/-- What COUNT_DEVICES' loop leaves alone: all but the line, RESULT and what runs; the mirror is untouched (R107). -/
theorem countLoop_keeps (budget : Nat) (n : Word) (s : State) :
    ∃ t, Quiet s t ∧ t.lat = s.lat ∧ t.pend = s.pend ∧
      ((∃ m, countLoop budget n s = { t with activity := .counting m 0 }) ∨
       (∃ m, countLoop budget n s = { t with result := m })) := by
  induction budget generalizing n s with
  | zero => exact ⟨s, .refl s, rfl, rfl, .inl ⟨n, rfl⟩⟩
  | succ b ih =>
    have hq := exchange_quiet 0 s
    have hm : (exchange 0 s).2.lat = s.lat ∧ (exchange 0 s).2.pend = s.pend := by rw [exchange_eq]; exact ⟨rfl, rfl⟩
    simp only [countLoop]
    split
    · exact ⟨closeLine (exchange 0 s).2, hq.trans (closeLine_quiet _), hm.1, hm.2, .inr ⟨_, rfl⟩⟩
    · obtain ⟨t, q, l, p, h⟩ := ih (n + 1) (exchange 0 s).2
      exact ⟨t, hq.trans q, l.trans hm.1, p.trans hm.2, h⟩

end Sys2Proof.Machine
end

