-- ==== Sys2Proof/Laws/Exec.lean ====
section
/-! SUPPORT. Laws/Exec.lean: what every command leaves alone, whatever it is, and that OVR takes no part in any of them
(R26, R29, R45). -/

namespace Sys2Proof.Machine
open Sys2Proof

/-- What no command changes: the parameters, ARG, OVR, the coming inputs and what the host has read; the record only
grows. -/
structure Kept (s t : State) : Prop where
  par : t.par = s.par
  arg : t.arg = s.arg
  ovr : t.ovr = s.ovr
  inbox : t.inbox = s.inbox
  returned : t.returned = s.returned
  grows : ∃ evs, t.trace = evs ++ s.trace
  drawn : s.drawn ≤ t.drawn

theorem Kept.refl (s : State) : Kept s s := ⟨rfl, rfl, rfl, rfl, rfl, ⟨[], rfl⟩, le_refl _⟩

theorem Quiet.kept {s t : State} (h : Quiet s t) : Kept s t :=
  ⟨h.host.par, h.host.arg, h.host.ovr, h.host.inbox, h.host.returned, h.grows, h.drawn⟩

theorem countLoop_kept (budget : Nat) (n : Word) (s : State) : Kept s (countLoop budget n s) := by
  obtain ⟨t, q, -, -, ⟨m, h⟩ | ⟨m, h⟩⟩ := countLoop_keeps budget n s <;>
  · rw [h]
    exact ⟨q.kept.par, q.kept.arg, q.kept.ovr, q.kept.inbox, q.kept.returned, q.kept.grows, q.kept.drawn⟩

theorem Kept.after {s t u : State} (h : Kept s t) (k : Kept t u) : Kept s u where
  par := k.par.trans h.par
  arg := k.arg.trans h.arg
  ovr := k.ovr.trans h.ovr
  inbox := k.inbox.trans h.inbox
  returned := k.returned.trans h.returned
  grows := by
    obtain ⟨e, he⟩ := h.grows
    obtain ⟨f, hf⟩ := k.grows
    exact ⟨f ++ e, by rw [hf, he, List.append_assoc]⟩
  drawn := h.drawn.trans k.drawn

/-- A change of fields that are none of those `Kept` is about. -/
theorem Kept.of_eq {s t u : State} (h : Kept s t) (p : u.par = t.par) (a : u.arg = t.arg) (o : u.ovr = t.ovr)
    (i : u.inbox = t.inbox) (r : u.returned = t.returned) (e : u.trace = t.trace) (d : u.drawn = t.drawn) : Kept s u :=
  h.after ⟨p, a, o, i, r, ⟨[], e⟩, d.ge⟩

/-- Every command answers a next state, and keeps what `Kept` lists (R179). -/
theorem exec_kept (i : Instr) (s : State) : ∃ t, exec i s = .next t ∧ Kept s t := by
  cases i
  case nop => exact ⟨_, rfl, .refl s⟩
  case sessionOpen => exact ⟨_, rfl, (openLine_quiet s).kept⟩
  case sessionSend f => exact ⟨_, rfl, (chainSend_quiet f s).kept.of_eq rfl rfl rfl rfl rfl rfl rfl⟩
  case sessionClose => exact ⟨_, rfl, (chainClose_quiet s).kept⟩
  case countDevices =>
    exact ⟨_, rfl, (((openLine_quiet s).trans (exchange_quiet _ _)).kept).after (countLoop_kept ..)⟩
  case rawExchange f => exact ⟨_, rfl, (exchange_quiet f s).kept.of_eq rfl rfl rfl rfl rfl rfl rfl⟩
  case rawClose => exact ⟨_, rfl, (closeLine_quiet s).kept⟩
  case chipSetPending => exact ⟨_, rfl, (Kept.refl s).of_eq rfl rfl rfl rfl rfl rfl rfl⟩
  case getPending => exact ⟨_, rfl, (Kept.refl s).of_eq rfl rfl rfl rfl rfl rfl rfl⟩
  case chipLatch => exact ⟨_, rfl, (Kept.refl s).of_eq rfl rfl rfl rfl rfl rfl rfl⟩
  case getLatched => exact ⟨_, rfl, (Kept.refl s).of_eq rfl rfl rfl rfl rfl rfl rfl⟩
  case setRegister => exact ⟨_, rfl, (writeChip_quiet ..).kept⟩
  case resetRegisters =>
    exact ⟨_, rfl, ((foldl_quiet (fun _ _ => session_quiet ..) _ s).trans (flush_quiet ..)).kept⟩
  case setLed scr coord adr dat =>
    simp only [exec, execSetLed]
    split
    · split
      · split
        · exact ⟨_, rfl, (writeChip_quiet ..).kept⟩
        · exact ⟨_, rfl, .refl s⟩
      · exact ⟨_, rfl, (writeChip_quiet ..).kept⟩
    · exact ⟨_, rfl, .refl s⟩
  case resetLedAt scr adr dat =>
    simp only [exec, execResetLedAt]
    split
    · exact ⟨_, rfl, (writeChip_quiet ..).kept⟩
    · exact ⟨_, rfl, .refl s⟩
  case setRow => exact ⟨_, rfl, (foldl_quiet (fun _ _ => writeChip_quiet ..) _ s).kept⟩
  case loadGlyph =>
    simp only [exec, execLoadGlyph]
    split <;> exact ⟨_, rfl, (Kept.refl s).of_eq rfl rfl rfl rfl rfl rfl rfl⟩
  case setLetter =>
    simp only [exec, execSetLetter]
    split
    · exact ⟨_, rfl, (setLetterOn_quiet ..).kept⟩
    · exact ⟨_, rfl, (Kept.refl s).of_eq rfl rfl rfl rfl rfl rfl rfl⟩
  case setWord => exact ⟨_, rfl, (wordTo_quiet ..).kept⟩
  case cycleSteps => exact ⟨_, rfl, (cycleStepsOf_quiet ..).kept⟩
  case cycleSet => exact ⟨_, rfl, (cycleStepsOf_quiet ..).kept⟩
  case setCycle => exact ⟨_, rfl, (Kept.refl s).of_eq rfl rfl rfl rfl rfl rfl rfl⟩
  case getCycle => exact ⟨_, rfl, (Kept.refl s).of_eq rfl rfl rfl rfl rfl rfl rfl⟩
  case setCycleDelay => exact ⟨_, rfl, (Kept.refl s).of_eq rfl rfl rfl rfl rfl rfl rfl⟩
  case getCycleDelay => exact ⟨_, rfl, (Kept.refl s).of_eq rfl rfl rfl rfl rfl rfl rfl⟩

theorem runWord_kept (w : Word) (s : State) : ∃ t, runWord w s = .next t ∧ Kept s t := by
  unfold runWord
  split
  · exact ⟨_, rfl, (Kept.refl s).of_eq rfl rfl rfl rfl rfl rfl rfl⟩
  · exact exec_kept _ s

/-- Whatever the controller does when no input lands answers a next state and keeps what `Kept` lists. -/
theorem advance_kept (s : State) : ∃ t, advance s = .next t ∧ Kept s t := by
  have hr : Kept s s.retire := (Kept.refl s).of_eq rfl rfl rfl rfl rfl rfl rfl
  unfold advance
  split
  · exact ⟨_, rfl, .refl s⟩
  · obtain ⟨t, h, k⟩ := runWord_kept _ s.retire
    exact ⟨t, h, hr.after k⟩
  · exact ⟨_, rfl, hr.after (countLoop_kept ..)⟩

theorem advance_undisturbed (s : State) : advance s = .next s.undisturbed := by
  obtain ⟨t, h, -⟩ := advance_kept s
  rw [State.undisturbed, h]

theorem undisturbed_kept (s : State) : Kept s s.undisturbed := by
  obtain ⟨t, h, k⟩ := advance_kept s
  rwa [State.undisturbed, h]

/-- The events of the running transition are what its end adds to the record. -/
theorem undisturbed_trace (s : State) : s.undisturbed.trace = s.coming.reverse ++ s.trace := by
  obtain ⟨e, he⟩ := (undisturbed_kept s).grows
  simp [State.coming, he]

/-- SET_CYCLE_DELAY's clamp lands in range (R19, R173). -/
theorem clamp_toNat (v : Word) : (if v.toInt < 0 then 0 else v).toNat < 2 ^ 31 := by
  split
  · simp
  · rename_i h
    rw [BitVec.toInt_eq_toNat_cond] at h
    split at h <;> omega

/-! What a command changes besides the mirror and the line. -/

/-- The commands that write RESULT and nothing else beside the mirror and the line (R27). -/
def WritesResult (i : Instr) : Prop :=
  (∃ f, i = .sessionSend f) ∨ (∃ f, i = .rawExchange f) ∨ (∃ d, i = .getPending d) ∨ (∃ d a, i = .getLatched d a) ∨
    i = .getCycle ∨ i = .getCycleDelay

theorem setPend_quiet (p : List Frame) (s : State) : Quiet s { s with pend := p } :=
  ⟨⟨rfl, rfl, rfl, rfl, rfl, rfl, rfl⟩, ⟨rfl, rfl, rfl⟩, rfl, ⟨[], rfl⟩, le_refl _⟩

theorem latchChip_quiet (i : Nat) (s : State) : Quiet s (latchChip i s) :=
  ⟨⟨rfl, rfl, rfl, rfl, rfl, rfl, rfl⟩, ⟨rfl, rfl, rfl⟩, rfl, ⟨[], rfl⟩, le_refl _⟩

/-- Every command is of one of these kinds. -/
theorem exec_cases {i : Instr} {s t : State} (e : exec i s = .next t) :
    (Quiet s t ∧ ¬ WritesResult i) ∨
    (∃ u v, Quiet s u ∧ t = { u with result := v } ∧ WritesResult i) ∨
    (i = .countDevices ∧ t = countLoop Config.countBudget 0 (exchange (pack 0 Config.sentinel) (openLine s)).2) ∨
    (∃ w, i = .setCycle w ∧ t = { s with wrap := w }) ∨
    (∃ d : Word, i = .setCycleDelay ∧ d.toNat < 2 ^ 31 ∧ t = { s with cycleDelay := d }) ∨
    (∃ g h v, i = .loadGlyph g h ∧ t = { s with glyph := s.glyph.set g.toNat v }) ∨
    (i.wf s.par.n = false ∧ t = illegalWord s) := by
  cases i <;> simp only [exec] at e
  case nop => obtain rfl := Host.Outcome.next.inj e; exact .inl ⟨.refl s, by simp [WritesResult]⟩
  case sessionOpen =>
    obtain rfl := Host.Outcome.next.inj e; exact .inl ⟨openLine_quiet s, by simp [WritesResult]⟩
  case sessionSend f =>
    obtain rfl := Host.Outcome.next.inj e
    exact .inr (.inl ⟨_, _, chainSend_quiet f s, rfl, by simp [WritesResult]⟩)
  case sessionClose =>
    obtain rfl := Host.Outcome.next.inj e; exact .inl ⟨chainClose_quiet s, by simp [WritesResult]⟩
  case countDevices => obtain rfl := Host.Outcome.next.inj e; exact .inr (.inr (.inl ⟨rfl, rfl⟩))
  case rawExchange f =>
    obtain rfl := Host.Outcome.next.inj e
    exact .inr (.inl ⟨_, _, exchange_quiet f s, rfl, by simp [WritesResult]⟩)
  case rawClose => obtain rfl := Host.Outcome.next.inj e; exact .inl ⟨closeLine_quiet s, by simp [WritesResult]⟩
  case chipSetPending =>
    obtain rfl := Host.Outcome.next.inj e; exact .inl ⟨setPend_quiet _ s, by simp [WritesResult]⟩
  case getPending =>
    obtain rfl := Host.Outcome.next.inj e; exact .inr (.inl ⟨s, _, .refl s, rfl, by simp [WritesResult]⟩)
  case chipLatch =>
    obtain rfl := Host.Outcome.next.inj e; exact .inl ⟨latchChip_quiet _ s, by simp [WritesResult]⟩
  case getLatched =>
    obtain rfl := Host.Outcome.next.inj e; exact .inr (.inl ⟨s, _, .refl s, rfl, by simp [WritesResult]⟩)
  case setRegister =>
    obtain rfl := Host.Outcome.next.inj e; exact .inl ⟨writeChip_quiet .., by simp [WritesResult]⟩
  case resetRegisters =>
    obtain rfl := Host.Outcome.next.inj e
    exact .inl ⟨(foldl_quiet (fun _ _ => session_quiet ..) _ s).trans (flush_quiet ..), by simp [WritesResult]⟩
  case setLed =>
    refine .inl ⟨?_, by simp [WritesResult]⟩
    simp only [execSetLed] at e
    split at e
    · split at e
      · split at e
        · obtain rfl := Host.Outcome.next.inj e; exact writeChip_quiet ..
        · obtain rfl := Host.Outcome.next.inj e; exact .refl s
      · obtain rfl := Host.Outcome.next.inj e; exact writeChip_quiet ..
    · obtain rfl := Host.Outcome.next.inj e; exact .refl s
  case resetLedAt =>
    refine .inl ⟨?_, by simp [WritesResult]⟩
    simp only [execResetLedAt] at e
    split at e
    · obtain rfl := Host.Outcome.next.inj e; exact writeChip_quiet ..
    · obtain rfl := Host.Outcome.next.inj e; exact .refl s
  case setRow =>
    obtain rfl := Host.Outcome.next.inj e
    exact .inl ⟨foldl_quiet (fun _ _ => writeChip_quiet ..) _ s, by simp [WritesResult]⟩
  case loadGlyph =>
    simp only [execLoadGlyph] at e
    split at e <;> rename_i h
    · obtain rfl := Host.Outcome.next.inj e
      exact .inr (.inr (.inr (.inr (.inr (.inl ⟨_, _, _, rfl, rfl⟩)))))
    · obtain rfl := Host.Outcome.next.inj e
      exact .inr (.inr (.inr (.inr (.inr (.inr ⟨by simp [Instr.wf]; omega, rfl⟩)))))
  case setLetter =>
    simp only [execSetLetter] at e
    split at e <;> rename_i h
    · obtain rfl := Host.Outcome.next.inj e; exact .inl ⟨setLetterOn_quiet .., by simp [WritesResult]⟩
    · obtain rfl := Host.Outcome.next.inj e
      exact .inr (.inr (.inr (.inr (.inr (.inr ⟨by simp [Instr.wf]; omega, rfl⟩)))))
  case setWord =>
    obtain rfl := Host.Outcome.next.inj e; exact .inl ⟨wordTo_quiet .., by simp [WritesResult]⟩
  case cycleSteps =>
    obtain rfl := Host.Outcome.next.inj e; exact .inl ⟨cycleStepsOf_quiet .., by simp [WritesResult]⟩
  case cycleSet =>
    obtain rfl := Host.Outcome.next.inj e; exact .inl ⟨cycleStepsOf_quiet .., by simp [WritesResult]⟩
  case setCycle => obtain rfl := Host.Outcome.next.inj e; exact .inr (.inr (.inr (.inl ⟨_, rfl, rfl⟩)))
  case getCycle =>
    obtain rfl := Host.Outcome.next.inj e; exact .inr (.inl ⟨s, _, .refl s, rfl, by simp [WritesResult]⟩)
  case setCycleDelay =>
    obtain rfl := Host.Outcome.next.inj e
    exact .inr (.inr (.inr (.inr (.inl ⟨_, rfl, clamp_toNat s.arg, rfl⟩))))
  case getCycleDelay =>
    obtain rfl := Host.Outcome.next.inj e; exact .inr (.inl ⟨s, _, .refl s, rfl, by simp [WritesResult]⟩)

/-- Only COUNT_DEVICES can leave the controller busy (R25, R108(c)). -/
theorem exec_activity {i : Instr} {s t : State} (hi : i ≠ .countDevices) (e : exec i s = .next t) :
    t.activity = s.activity := by
  rcases exec_cases e with ⟨q, -⟩ | ⟨u, v, q, rfl, -⟩ | ⟨h, -⟩ | ⟨w, -, rfl⟩ | ⟨d, -, -, rfl⟩ | ⟨g, h, v, -, rfl⟩ | ⟨-, rfl⟩
  · exact q.host.activity
  · exact q.host.activity
  · exact absurd h hi
  all_goals rfl

/-- COUNT_DEVICES' loop, as long as it runs, has the line open (R107). -/
theorem countLoop_open (b : Nat) (n : Word) (s : State) (hs : s.en = true) (ha : s.activity = .idle) :
    ∀ m k, (countLoop b n s).activity = .counting m k → (countLoop b n s).en = true := by
  induction b generalizing n s with
  | zero => exact fun _ _ _ => hs
  | succ b ih =>
    simp only [countLoop, exchange_eq]
    split
    · intro m k h
      have h : s.activity = .counting m k := h
      rw [ha] at h
      cases h
    · exact ih _ _ hs ha

/-! OVR takes no part in any operation: setting it commutes with all of them. -/

theorem overrun_exchange (f : Frame) (s : State) :
    exchange f (overrun s) = ((exchange f s).1, overrun (exchange f s).2) := by
  rw [exchange_eq, exchange_eq]; rfl

theorem overrun_chainSend (f : Frame) (s : State) :
    chainSend f (overrun s) = ((chainSend f s).1, overrun (chainSend f s).2) := by
  rw [chainSend_eq, chainSend_eq]; rfl

theorem lineEvents_overrun (s : State) (acts : List LineAct) (off : Nat) :
    lineEvents (overrun s) off acts = lineEvents s off acts := by
  have := lineEvents_congr (s := s) (t := overrun s) (m := 0) rfl rfl acts off
  rwa [Nat.zero_add] at this

theorem overrun_session (f : Nat → Frame) (s : State) : session f (overrun s) = overrun (session f s) := by
  rw [session_eq, session_eq, lineEvents_overrun]; rfl

theorem overrun_foldl {op : State → Nat → State} (h : ∀ s c, op (overrun s) c = overrun (op s c)) (l : List Nat)
    (s : State) : l.foldl op (overrun s) = overrun (l.foldl op s) := by
  induction l generalizing s with
  | nil => rfl
  | cons c l ih => rw [List.foldl_cons, List.foldl_cons, h, ih]

theorem overrun_writeChip (k : Nat) (a d : Byte) (s : State) :
    writeChip k a d (overrun s) = overrun (writeChip k a d s) := overrun_session ..

theorem overrun_setLetterOn (k : Nat) (g : Glyph) (s : State) :
    setLetterOn k g (overrun s) = overrun (setLetterOn k g s) :=
  overrun_foldl (op := fun s c => writeChip k (col s.par c) (columnByte s.par g c) s)
    (fun s c => overrun_writeChip k (col s.par c) (columnByte s.par g c) s) _ s

theorem overrun_chainClose (s : State) : chainClose (overrun s) = overrun (chainClose s) := rfl

theorem overrun_openLine (s : State) : openLine (overrun s) = overrun (openLine s) := rfl

theorem overrun_waitDelay (s : State) : waitDelay (overrun s) = overrun (waitDelay s) := rfl

theorem overrun_scrollColumn (s : State) (c : Nat) : scrollColumn (overrun s) c = overrun (scrollColumn s c) :=
  overrun_session (fun j => pack (col s.par c) (s.scrolledByte (col s.par c) (j - 1))) s

theorem overrun_scrollStep (s : State) : scrollStep (overrun s) = overrun (scrollStep s) := by
  simp only [scrollStep, overrun_foldl overrun_scrollColumn, overrun_openLine, overrun_chainClose]

theorem overrun_cycleStepsOf (n : Nat) (s : State) : cycleStepsOf n (overrun s) = overrun (cycleStepsOf n s) := by
  induction n generalizing s with
  | zero => rfl
  | succ n ih =>
    cases n with
    | zero => exact overrun_scrollStep s
    | succ n =>
      simp only [cycleStepsOf, overrun_scrollStep, overrun_waitDelay, ih]

theorem overrun_flush (n : Nat) (s : State) : flush n (overrun s) = overrun (flush n s) := by
  induction n generalizing s with
  | zero => rfl
  | succ n ih =>
    simp only [flush, overrun_openLine, overrun_chainSend, overrun_chainClose, ih]

theorem overrun_wordTo (len k : Nat) (s : State) : wordTo len k (overrun s) = overrun (wordTo len k s) := by
  induction k with
  | zero => rfl
  | succ k ih =>
    simp only [wordTo, ih]
    exact overrun_setLetterOn ..

theorem overrun_countLoop (b : Nat) (n : Word) (s : State) : countLoop b n (overrun s) = overrun (countLoop b n s) := by
  induction b generalizing n s with
  | zero => rfl
  | succ b ih =>
    simp only [countLoop, overrun_exchange]
    split
    · rfl
    · exact ih _ _

/-- A command does what it does with OVR set as well. -/
theorem overrun_exec (i : Instr) (s t : State) (h : exec i s = .next t) : exec i (overrun s) = .next (overrun t) := by
  cases i <;> simp only [exec] at h ⊢
  case sessionSend f =>
    simp only [execSessionSend, overrun_chainSend] at h ⊢
    obtain rfl := Host.Outcome.next.inj h; rfl
  case rawExchange f =>
    simp only [execRawExchange, overrun_exchange] at h ⊢
    obtain rfl := Host.Outcome.next.inj h; rfl
  case countDevices =>
    obtain rfl := Host.Outcome.next.inj h
    simp only [execCountDevices, overrun_openLine, overrun_exchange, overrun_countLoop]
  case setRegister =>
    obtain rfl := Host.Outcome.next.inj h
    rw [execSetRegister, overrun_writeChip]
  case resetRegisters =>
    obtain rfl := Host.Outcome.next.inj h
    rw [execResetRegisters, overrun_foldl (fun s a => overrun_session
      (fun _ => pack (BitVec.ofNat 8 a) (resetByte s.par (BitVec.ofNat 8 a))) s)]
    exact congrArg _ (overrun_flush ..)
  case setLed scr coord adr dat =>
    have hb : ∀ a, (overrun s).lowByteAt scr a = s.lowByteAt scr a := fun _ => rfl
    have hp : (overrun s).par = s.par := rfl
    simp only [execSetLed, overrun_writeChip, hb, hp] at h ⊢
    split at h <;> rename_i h1
    · split at h <;> rename_i h2
      · split at h <;> rename_i h3
        · obtain rfl := Host.Outcome.next.inj h; simp [h1, h2, h3]
        · obtain rfl := Host.Outcome.next.inj h; simp [h1, h2, h3]
      · obtain rfl := Host.Outcome.next.inj h; simp [h1, h2]
    · obtain rfl := Host.Outcome.next.inj h; simp [h1]
  case resetLedAt scr adr dat =>
    have hb : ∀ a, (overrun s).lowByteAt scr a = s.lowByteAt scr a := fun _ => rfl
    have hp : (overrun s).par = s.par := rfl
    simp only [execResetLedAt, overrun_writeChip, hb, hp] at h ⊢
    split at h <;> rename_i h1
    · obtain rfl := Host.Outcome.next.inj h; simp [h1]
    · obtain rfl := Host.Outcome.next.inj h; simp [h1]
  case setRow scr dat =>
    obtain rfl := Host.Outcome.next.inj h
    rw [execSetRow, overrun_foldl]
    intro s c
    exact overrun_writeChip scr.toNat (col s.par c)
      (s.lowByteAt scr (col s.par c) ||| (BitVec.ofBool (dat.getLsbD (c - 1))).setWidth 8) s
  case loadGlyph scr half =>
    simp only [execLoadGlyph] at h ⊢
    split at h
    · rename_i hlt
      obtain rfl := Host.Outcome.next.inj h
      rw [if_pos (show scr.toNat < (overrun s).par.n from hlt)]; rfl
    · rename_i hlt
      obtain rfl := Host.Outcome.next.inj h
      rw [if_neg (show ¬ scr.toNat < (overrun s).par.n from hlt)]; rfl
  case setLetter scr dat =>
    simp only [execSetLetter, overrun_setLetterOn] at h ⊢
    split at h
    · rename_i hlt
      obtain rfl := Host.Outcome.next.inj h
      rw [if_pos (show dat.toNat < (overrun s).par.n from hlt)]; rfl
    · rename_i hlt
      obtain rfl := Host.Outcome.next.inj h
      rw [if_neg (show ¬ dat.toNat < (overrun s).par.n from hlt)]; rfl
  case setWord =>
    obtain rfl := Host.Outcome.next.inj h
    simp only [execSetWord, overrun_wordTo]; rfl
  case cycleSteps =>
    obtain rfl := Host.Outcome.next.inj h
    rw [execCycleSteps, overrun_cycleStepsOf]; rfl
  case cycleSet =>
    obtain rfl := Host.Outcome.next.inj h
    rw [execCycleSet, overrun_cycleStepsOf]; rfl
  all_goals (obtain rfl := Host.Outcome.next.inj h; rfl)

end Sys2Proof.Machine
end

