-- ==== Sys2Proof/Laws/Closed.lean ====
section
/-! SUPPORT. Laws/Closed.lean: a property kept by each shared operation is kept by every command; the invariant's part that does
not speak of the running command, and the discipline of the pins, are such properties (R15, R19, R90, R95). -/

namespace Sys2Proof.Machine
open Sys2Proof

/-- `P` is kept by every operation a command is made of. -/
structure Closed (P : State → Prop) : Prop where
  openLine : ∀ s, P s → P (openLine s)
  closeLine : ∀ s, P s → P (closeLine s)
  exchange : ∀ f s, P s → P (exchange f s).2
  shift : ∀ f s, P s → P { s with pend := shiftIn f s.pend }
  latchAll : ∀ s, P s → P (latchAll s)
  latchChip : ∀ i s, P s → P (latchChip i s)
  waitDelay : ∀ s, P s → P (waitDelay s)
  result : ∀ v s, P s → P { s with result := v }
  activity : ∀ a s, P s → P { s with activity := a }
  setPend : ∀ i f s, P s → P { s with pend := s.pend.set i f }
  setGlyph : ∀ i g s, P s → P { s with glyph := s.glyph.set i g }
  wrap : ∀ w s, P s → P { s with wrap := w }
  cycleDelay : ∀ d s, d.toNat < 2 ^ 31 → P s → P { s with cycleDelay := d }
  ill : ∀ s, P s → P (illegalWord s)

variable {P : State → Prop}

theorem Closed.chainSend (h : Closed P) (f : Frame) (s : State) (p : P s) : P (chainSend f s).2 :=
  h.exchange f _ (h.shift f s p)

theorem Closed.chainClose (h : Closed P) (s : State) (p : P s) : P (chainClose s) := h.latchAll _ (h.closeLine s p)

theorem Closed.sendDown (h : Closed P) (f : Nat → Frame) (n : Nat) (s : State) (p : P s) : P (sendDown f n s) := by
  induction n generalizing s with
  | zero => exact p
  | succ n ih => exact ih _ (h.chainSend _ s p)

theorem Closed.session (h : Closed P) (f : Nat → Frame) (s : State) (p : P s) : P (session f s) :=
  h.chainClose _ (h.sendDown f _ _ (h.openLine s p))

theorem Closed.foldl {op : State → Nat → State} (h : ∀ s c, P s → P (op s c)) (l : List Nat) (s : State) (p : P s) :
    P (l.foldl op s) := by
  induction l generalizing s with
  | nil => exact p
  | cons c l ih => exact ih _ (h s c p)

theorem Closed.setLetterOn (h : Closed P) (k : Nat) (g : Glyph) (s : State) (p : P s) : P (setLetterOn k g s) :=
  Closed.foldl (fun s _ p => h.session _ s p) _ s p

theorem Closed.scrollStep (h : Closed P) (s : State) (p : P s) : P (scrollStep s) :=
  h.chainClose _ (h.openLine _ (Closed.foldl (fun s _ p => h.session _ s p) columns s p))

theorem Closed.cycleStepsOf (h : Closed P) (n : Nat) (s : State) (p : P s) : P (cycleStepsOf n s) := by
  induction n generalizing s with
  | zero => exact p
  | succ n ih =>
    cases n with
    | zero => exact h.scrollStep s p
    | succ n => exact ih _ (h.waitDelay _ (h.scrollStep s p))

theorem Closed.flush (h : Closed P) (n : Nat) (s : State) (p : P s) : P (flush n s) := by
  induction n generalizing s with
  | zero => exact p
  | succ n ih => exact ih _ (h.chainClose _ (h.chainSend 0 _ (h.openLine s p)))

theorem Closed.wordTo (h : Closed P) (len k : Nat) (s : State) (p : P s) : P (wordTo len k s) := by
  induction k with
  | zero => exact p
  | succ k ih => exact h.setLetterOn _ _ _ ih

theorem Closed.countLoop (h : Closed P) (b : Nat) (n : Word) (s : State) (p : P s) : P (countLoop b n s) := by
  induction b generalizing n s with
  | zero => exact h.activity _ s p
  | succ b ih =>
    simp only [Machine.countLoop]
    split
    · exact h.result _ _ (h.closeLine _ (h.exchange 0 s p))
    · exact ih _ _ (h.exchange 0 s p)

/-- Every command keeps what every shared operation keeps. -/
theorem Closed.exec (h : Closed P) {i : Instr} {s t : State} (e : exec i s = .next t) (p : P s) : P t := by
  cases i <;> simp only [Machine.exec] at e
  case nop => obtain rfl := Host.Outcome.next.inj e; exact p
  case sessionOpen => obtain rfl := Host.Outcome.next.inj e; exact h.openLine s p
  case sessionSend f => obtain rfl := Host.Outcome.next.inj e; exact h.result _ _ (h.chainSend f s p)
  case sessionClose => obtain rfl := Host.Outcome.next.inj e; exact h.chainClose s p
  case countDevices =>
    obtain rfl := Host.Outcome.next.inj e
    exact h.countLoop _ _ _ (h.exchange _ _ (h.openLine s p))
  case rawExchange f => obtain rfl := Host.Outcome.next.inj e; exact h.result _ _ (h.exchange f s p)
  case rawClose => obtain rfl := Host.Outcome.next.inj e; exact h.closeLine s p
  case chipSetPending => obtain rfl := Host.Outcome.next.inj e; exact h.setPend _ _ s p
  case getPending => obtain rfl := Host.Outcome.next.inj e; exact h.result _ s p
  case chipLatch => obtain rfl := Host.Outcome.next.inj e; exact h.latchChip _ s p
  case getLatched => obtain rfl := Host.Outcome.next.inj e; exact h.result _ s p
  case setRegister => obtain rfl := Host.Outcome.next.inj e; exact h.session _ s p
  case resetRegisters =>
    obtain rfl := Host.Outcome.next.inj e
    exact h.flush _ _ (Closed.foldl (fun s _ p => h.session _ s p) _ s p)
  case setLed =>
    simp only [execSetLed] at e
    split at e
    · split at e
      · split at e <;> obtain rfl := Host.Outcome.next.inj e
        · exact h.session _ s p
        · exact p
      · obtain rfl := Host.Outcome.next.inj e; exact h.session _ s p
    · obtain rfl := Host.Outcome.next.inj e; exact p
  case resetLedAt =>
    simp only [execResetLedAt] at e
    split at e <;> obtain rfl := Host.Outcome.next.inj e
    · exact h.session _ s p
    · exact p
  case setRow => obtain rfl := Host.Outcome.next.inj e; exact Closed.foldl (fun s _ p => h.session _ s p) _ s p
  case loadGlyph =>
    simp only [execLoadGlyph] at e
    split at e <;> obtain rfl := Host.Outcome.next.inj e
    · exact h.setGlyph _ _ s p
    · exact h.ill s p
  case setLetter =>
    simp only [execSetLetter] at e
    split at e <;> obtain rfl := Host.Outcome.next.inj e
    · exact h.setLetterOn _ _ s p
    · exact h.ill s p
  case setWord => obtain rfl := Host.Outcome.next.inj e; exact h.wordTo _ _ s p
  case cycleSteps => obtain rfl := Host.Outcome.next.inj e; exact h.cycleStepsOf _ s p
  case cycleSet => obtain rfl := Host.Outcome.next.inj e; exact h.cycleStepsOf _ s p
  case setCycle => obtain rfl := Host.Outcome.next.inj e; exact h.wrap _ s p
  case getCycle => obtain rfl := Host.Outcome.next.inj e; exact h.result _ s p
  case setCycleDelay => obtain rfl := Host.Outcome.next.inj e; exact h.cycleDelay _ s (clamp_toNat s.arg) p
  case getCycleDelay => obtain rfl := Host.Outcome.next.inj e; exact h.result _ s p

/-- What the controller does when no input lands keeps what every shared operation keeps. -/
theorem Closed.undisturbed (h : Closed P) {s : State} (p : P s) : P s.undisturbed := by
  have e := advance_undisturbed s
  unfold advance at e
  split at e
  · obtain e := Host.Outcome.next.inj e; rwa [← e]
  · unfold runWord at e
    split at e
    · obtain e := Host.Outcome.next.inj e; rw [← e]; exact h.ill _ (h.activity _ s p)
    · exact h.exec e (h.activity _ s p)
  · obtain e := Host.Outcome.next.inj e; rw [← e]; exact h.countLoop _ _ _ (h.activity _ s p)

/-! The invariant, but for the clause about COUNT_DEVICES. -/

structure State.InvCore (s : State) : Prop where
  legal : s.par.Legal
  latCount : s.lat.length = s.par.n
  pendCount : s.pend.length = s.par.n
  glyphCount : s.glyph.length = s.par.n
  latTag : ∀ i a, s.latched i a = 0 ∨ addrOf (s.latched i a) = a
  loadN : s.loadN = !s.en
  clkLow : s.clk = false
  delayRange : s.cycleDelay.toNat < 2 ^ 31

theorem State.Inv.invCore {s : State} (h : s.Inv) : s.InvCore :=
  ⟨h.legal, h.latCount, h.pendCount, h.glyphCount, h.latTag, h.loadN, h.clkLow, h.delayRange⟩

theorem State.InvCore.inv {s : State} (h : s.InvCore) (c : ∀ n k, s.activity = .counting n k → s.en = true) : s.Inv :=
  ⟨h.legal, h.latCount, h.pendCount, h.glyphCount, h.latTag, h.loadN, h.clkLow, h.delayRange, c⟩

/-- A latch of one chip, as a read sees it (R114, R115). -/
theorem latchChip_latched (k : Nat) (s : State) (i : Nat) (a : Byte) :
    (latchChip k s).latched i a =
      if i = k ∧ i < s.lat.length ∧ addrOf (s.pending k) = a ∧ a.toNat < 16 then s.pending k else s.latched i a := by
  simp only [State.latched, latchChip, List.getElem?_modify]
  rcases Nat.lt_or_ge i s.lat.length with h | h
  · by_cases e : k = i
    · subst e; simp [h, regAt_latchInto]
    · simp [h, e, Ne.symm e]
  · simp [Nat.not_lt.mpr h]

/-- A latch of all chips, as a read sees it, whatever the sizes (R99). -/
theorem latchAll_latched_cases (s : State) (i : Nat) (a : Byte) :
    (latchAll s).latched i a = s.latched i a ∨ (latchAll s).latched i a = 0 ∨
      ((latchAll s).latched i a = s.pending i ∧ addrOf (s.pending i) = a) := by
  simp only [State.latched, latchAll, List.getElem?_zipWith, State.pending]
  cases hp : s.pend[i]? with
  | none => simp
  | some f =>
    cases hl : s.lat[i]? with
    | none => simp
    | some r =>
      simp only [Option.getD_some, regAt_latchInto]
      by_cases h : addrOf f = a ∧ a.toNat < 16
      · rw [if_pos h]; exact .inr (.inr ⟨rfl, h.1⟩)
      · rw [if_neg h]; exact .inl rfl

theorem invCore_closed : Closed State.InvCore where
  openLine s h := ⟨h.legal, h.latCount, h.pendCount, h.glyphCount, h.latTag, rfl, h.clkLow, h.delayRange⟩
  closeLine s h := ⟨h.legal, h.latCount, h.pendCount, h.glyphCount, h.latTag, rfl, h.clkLow, h.delayRange⟩
  exchange f s h := by
    rw [exchange_eq]
    exact ⟨h.legal, h.latCount, h.pendCount, h.glyphCount, h.latTag, h.loadN, rfl, h.delayRange⟩
  shift f s h :=
    ⟨h.legal, h.latCount, (shiftIn_length f s.pend).trans h.pendCount, h.glyphCount, h.latTag, h.loadN, h.clkLow,
      h.delayRange⟩
  latchAll s h := by
    refine ⟨h.legal, ?_, h.pendCount, h.glyphCount, ?_, h.loadN, h.clkLow, h.delayRange⟩
    · simp [Machine.latchAll, h.latCount, h.pendCount]
    · intro i a
      rcases latchAll_latched_cases s i a with e | e | ⟨e, ha⟩
      · rw [e]; exact h.latTag i a
      · exact .inl e
      · rw [e]; exact .inr ha
  latchChip k s h := by
    refine ⟨h.legal, ?_, h.pendCount, h.glyphCount, ?_, h.loadN, h.clkLow, h.delayRange⟩
    · simp [Machine.latchChip, h.latCount]
    · intro i a
      rw [latchChip_latched]
      split
      · rename_i e; exact .inr e.2.2.1
      · exact h.latTag i a
  waitDelay s h := ⟨h.legal, h.latCount, h.pendCount, h.glyphCount, h.latTag, h.loadN, h.clkLow, h.delayRange⟩
  result v s h := ⟨h.legal, h.latCount, h.pendCount, h.glyphCount, h.latTag, h.loadN, h.clkLow, h.delayRange⟩
  activity a s h := ⟨h.legal, h.latCount, h.pendCount, h.glyphCount, h.latTag, h.loadN, h.clkLow, h.delayRange⟩
  setPend i f s h :=
    ⟨h.legal, h.latCount, (List.length_set ..).trans h.pendCount, h.glyphCount, h.latTag, h.loadN, h.clkLow, h.delayRange⟩
  setGlyph i g s h :=
    ⟨h.legal, h.latCount, h.pendCount, (List.length_set ..).trans h.glyphCount, h.latTag, h.loadN, h.clkLow, h.delayRange⟩
  wrap w s h := ⟨h.legal, h.latCount, h.pendCount, h.glyphCount, h.latTag, h.loadN, h.clkLow, h.delayRange⟩
  cycleDelay d s hd h := ⟨h.legal, h.latCount, h.pendCount, h.glyphCount, h.latTag, h.loadN, h.clkLow, hd⟩
  ill s h := ⟨h.legal, h.latCount, h.pendCount, h.glyphCount, h.latTag, h.loadN, h.clkLow, h.delayRange⟩

/-! The pins' discipline. -/

/-- The record has kept the discipline, the pins hold what it last drove, and CLK is low. -/
structure State.Wired (s : State) : Prop where
  ok : s.WireOk
  clk : s.clk = false

theorem State.Wired.of_eq {s t : State} (h : s.Wired) (e : t.trace = s.trace) (c : t.clk = s.clk) (d : t.dout = s.dout)
    (l : t.loadN = s.loadN) : t.Wired := by
  refine ⟨?_, c.trans h.clk⟩
  have := h.ok
  unfold State.WireOk at this ⊢
  rw [e, c, d, l, this]

theorem Wired.openLine {s : State} (h : s.Wired) : (openLine s).Wired := by
  have := h.ok
  unfold State.WireOk at this
  refine ⟨?_, h.clk⟩
  simp [State.WireOk, Machine.openLine, driveEnable, pinsAfter, this, PinLevels.after, h.clk]

theorem Wired.closeLine {s : State} (h : s.Wired) : (closeLine s).Wired := by
  have := h.ok
  unfold State.WireOk at this
  refine ⟨?_, h.clk⟩
  simp [State.WireOk, Machine.closeLine, driveEnable, waitHalf, State.emit, pinsAfter, this, PinLevels.after, h.clk]

theorem Wired.exchangeBits (k : Nat) : ∀ (t r : Frame) (s : State), s.Wired → (exchangeBits k t r s).2.Wired := by
  induction k with
  | zero => intro t r s h; exact h
  | succ k ih =>
    intro t r s h
    refine ih _ _ _ ⟨?_, rfl⟩
    have := h.ok
    unfold State.WireOk at this
    simp [State.WireOk, driveClk, driveDout, waitHalf, State.emit, pinsAfter, this, PinLevels.after, h.clk]

theorem wired_closed : Closed State.Wired where
  openLine _ h := Wired.openLine h
  closeLine _ h := Wired.closeLine h
  exchange f s h := Wired.exchangeBits 16 f 0 s h
  shift _ _ h := h.of_eq rfl rfl rfl rfl
  latchAll _ h := h.of_eq rfl rfl rfl rfl
  latchChip _ _ h := h.of_eq rfl rfl rfl rfl
  waitDelay s h := by
    have := h.ok
    unfold State.WireOk at this
    refine ⟨?_, h.clk⟩
    simp [State.WireOk, Machine.waitDelay, State.emit, pinsAfter, this, PinLevels.after, h.clk]
  result _ _ h := h.of_eq rfl rfl rfl rfl
  activity _ _ h := h.of_eq rfl rfl rfl rfl
  setPend _ _ _ h := h.of_eq rfl rfl rfl rfl
  setGlyph _ _ _ h := h.of_eq rfl rfl rfl rfl
  wrap _ _ h := h.of_eq rfl rfl rfl rfl
  cycleDelay _ _ _ h := h.of_eq rfl rfl rfl rfl
  ill _ h := h.of_eq rfl rfl rfl rfl

/-- A record that keeps the discipline has kept it at every earlier point. -/
theorem pinsAfter_suffix {p : PinLevels} : ∀ (es fs : List Event), pinsAfter (es ++ fs) = some p →
    ∃ q, pinsAfter fs = some q
  | [], _, h => ⟨p, h⟩
  | e :: es, fs, h => by
    simp only [List.cons_append, pinsAfter, Option.bind_eq_some_iff] at h
    obtain ⟨q, hq, -⟩ := h
    exact pinsAfter_suffix es fs hq

end Sys2Proof.Machine
end

