-- ==== Sys2Proof/Laws/Columns.lean ====
section
/-! SUPPORT. Laws/Columns.lean: several column writes to one device (R141 to R157), and the scroll
step (R160 to R166), each as its effect on the line and on the mirror. -/

namespace Sys2Proof.Machine
open Sys2Proof

/-- A chain command can start: the mirror has its size and CLK is low. -/
structure State.Ready (s : State) : Prop where
  sized : s.Sized
  clk : s.clk = false

theorem State.Inv.ready {s : State} (h : s.Inv) : s.Ready := ⟨h.sized, h.clkLow⟩

theorem ChainEffect.ready {s t : State} {acts : List LineAct} (h : ChainEffect s t acts) (k : s.Ready) : t.Ready :=
  ⟨h.sized k.sized, h.clk⟩

/-- A loop of chain operations shows its activities one after the other. `P s l` is what holds before the operations of
`l`. -/
theorem foldl_chainEffect {op : State → Nat → State} {acts : Nat → List LineAct} {P : State → List Nat → Prop}
    (h : ∀ s c l, P s (c :: l) → ChainEffect s (op s c) (acts c) ∧ P (op s c) l) :
    ∀ (l : List Nat) (c : Nat) (s : State), P s (c :: l) →
      ChainEffect s ((c :: l).foldl op s) ((c :: l).flatMap acts) ∧ P ((c :: l).foldl op s) [] := by
  intro l
  induction l with
  | nil => intro c s hp; simpa using h s c [] hp
  | cons d l ih =>
    intro c s hp
    obtain ⟨e, hp'⟩ := h s c _ hp
    obtain ⟨e', hp''⟩ := ih d _ hp'
    exact ⟨e.trans e', hp''⟩

/-- One column write (R126, R127). -/
theorem writeChip_columns {s : State} (hl : s.par.Legal) (hs : s.Sized) (k : Nat) {c : Nat} (h1 : 1 ≤ c) (h8 : c ≤ 8)
    (byte : Nat → Byte) : ColumnsWritten s (writeChip k (col s.par c) (byte c) s) k [c] byte := by
  have hc := (col_toNat hl h1 h8).2
  intro i hi
  refine ⟨fun hk => ⟨?_, ?_⟩, fun hk => ⟨?_, ?_⟩⟩
  · intro d hd
    obtain rfl : d = c := by simpa using hd
    rw [writeChip_latched _ _ _ hs hi, if_pos hk, if_pos ⟨rfl, hc⟩]
  · intro a ha
    rw [writeChip_latched _ _ _ hs hi, if_pos hk, if_neg]
    rintro ⟨rfl, -⟩
    exact ha c (by simp) rfl
  · rw [writeChip_latched _ _ _ hs hi, if_neg hk, if_pos rfl]
  · intro a ha
    rw [writeChip_latched _ _ _ hs hi, if_neg hk, if_neg ha]

/-- Column writes to one device compose, as long as no column is written twice. -/
theorem ColumnsWritten.trans {s t u : State} {k : Nat} {as bs : List Nat} {byte : Nat → Byte} (hp : t.par = s.par)
    (h : ColumnsWritten s t k as byte) (g : ColumnsWritten t u k bs byte)
    (hd : ∀ a ∈ as, ∀ b ∈ bs, col s.par a ≠ col s.par b) : ColumnsWritten s u k (as ++ bs) byte := by
  intro i hi
  obtain ⟨h1, h2⟩ := h i hi
  obtain ⟨g1, g2⟩ := g i (by rw [hp]; exact hi)
  rw [hp] at g1
  refine ⟨fun hk => ⟨?_, ?_⟩, fun hk => ⟨(g2 hk).1, fun a ha => ((g2 hk).2 a ha).trans ((h2 hk).2 a ha)⟩⟩
  · intro c hc
    rcases List.mem_append.mp hc with hc | hc
    · rw [(g1 hk).2 _ (fun b hb => hd c hc b hb), (h1 hk).1 c hc]
    · exact (g1 hk).1 c hc
  · intro a ha
    rw [(g1 hk).2 a (fun c hc => ha c (List.mem_append_right _ hc)),
      (h1 hk).2 a (fun c hc => ha c (List.mem_append_left _ hc))]

/-- Several column writes to one device, each in a session of its own: what the line shows, what the mirror holds, and what is
pending at the end. -/
structure ColumnWrites (s t : State) (k : Nat) (cs : List Nat) (byte : Nat → Byte) : Prop where
  effect : ChainEffect s t (cs.flatMap fun c => sessionActs s.par.n (chipFrame k (pack (col s.par c) (byte c))))
  columns : ColumnsWritten s t k cs byte
  pending : ∀ i < s.par.n, ∀ c, cs.getLast? = some c →
    t.pending i = if i + 1 = k then pack (col s.par c) (byte c) else 0

theorem writeColumns {s : State} (hl : s.par.Legal) (hr : s.Ready) (k : Nat) (byte : Nat → Byte)
    (op : State → Nat → State) :
    ∀ (as cs : List Nat) (t : State), as ≠ [] → ColumnWrites s t k as byte → (as ++ cs).Nodup →
      (∀ c ∈ as ++ cs, 1 ≤ c ∧ c ≤ 8) →
      (∀ t c, c ∈ cs → t.par = s.par → (∀ i < s.par.n, i + 1 = k → t.latched i (col s.par c) = s.latched i (col s.par c)) →
        op t c = writeChip k (col s.par c) (byte c) t) →
      ColumnWrites s (cs.foldl op t) k (as ++ cs) byte := by
  intro as cs
  induction cs generalizing as with
  | nil => intro t _ h _ _ _; simpa using h
  | cons c cs ih =>
    intro t hne h hnd hr18 hop
    have hp := h.effect.host.par
    have hc := hr18 c (by simp)
    have hdis : ∀ a ∈ as, ∀ b ∈ [c], col s.par a ≠ col s.par b := by
      intro a ha b hb e
      obtain rfl : b = c := by simpa using hb
      have ha18 := hr18 a (by simp [ha])
      have := col_injective hl ha18.1 ha18.2 hc.1 hc.2 e
      subst this
      exact (List.nodup_append.mp hnd).2.2 a ha a (by simp) rfl
    have hunch : ∀ i < s.par.n, i + 1 = k → t.latched i (col s.par c) = s.latched i (col s.par c) := by
      intro i hi hk
      exact ((h.columns i hi).1 hk).2 _ (fun b hb e => hdis b hb c (by simp) e.symm)
    have e : op t c = writeChip k (col t.par c) (byte c) t := by
      rw [hop t c (by simp) hp hunch, hp]
    have hs := h.effect.sized hr.sized
    have hcw := writeChip_columns (hp ▸ hl) hs k hc.1 hc.2 byte
    have heff := writeChip_effect k (col t.par c) (byte c) hs h.effect.clk
    have step : ColumnWrites s (op t c) k (as ++ [c]) byte := by
      rw [e]
      refine ⟨?_, h.columns.trans hp hcw hdis, ?_⟩
      · rw [List.flatMap_append]
        rw [hp] at heff ⊢
        simpa using h.effect.trans heff
      · intro i hi d hd
        obtain rfl : c = d := by simpa using hd
        rw [writeChip_pending _ _ _ hs (by rw [hp]; exact hi), hp]
    have := ih (as ++ [c]) (op t c) (by simp) step (by simpa using hnd) (by simpa using hr18)
      (fun t d hd => hop t d (by simp [hd]))
    simpa using this

/-- Column writes from the start: distinct columns in 1..8, at least one. -/
theorem columnWrites_foldl {s : State} (hl : s.par.Legal) (hr : s.Ready) (k : Nat) (byte : Nat → Byte)
    (op : State → Nat → State) (c : Nat) (cs : List Nat) (hnd : (c :: cs).Nodup) (h18 : ∀ d ∈ c :: cs, 1 ≤ d ∧ d ≤ 8)
    (hop : ∀ t d, d ∈ c :: cs → t.par = s.par →
      (∀ i < s.par.n, i + 1 = k → t.latched i (col s.par d) = s.latched i (col s.par d)) →
      op t d = writeChip k (col s.par d) (byte d) t) :
    ColumnWrites s ((c :: cs).foldl op s) k (c :: cs) byte := by
  have e : op s c = writeChip k (col s.par c) (byte c) s := hop s c (by simp) rfl (fun _ _ _ => rfl)
  have hc := h18 c (by simp)
  have first : ColumnWrites s (op s c) k [c] byte := by
    rw [e]
    refine ⟨?_, writeChip_columns hl hr.sized k hc.1 hc.2 byte, ?_⟩
    · simpa using writeChip_effect k (col s.par c) (byte c) hr.sized hr.clk
    · intro i hi d hd
      obtain rfl : c = d := by simpa using hd
      rw [writeChip_pending _ _ _ hr.sized hi]
  exact writeColumns hl hr k byte op [c] cs _ (by simp) first hnd h18 (fun t d hd => hop t d (by simp [hd]))

theorem columns_range : ∀ c ∈ columns, 1 ≤ c ∧ c ≤ 8 := by decide

/-- SET_LETTER's writes (R152, R153). -/
theorem setLetterOn_columns {s : State} (hl : s.par.Legal) (hr : s.Ready) (k : Nat) (g : Glyph) :
    ColumnWrites s (setLetterOn k g s) k [8, 7, 6, 5, 4, 3, 2, 1] (columnByte s.par g) :=
  columnWrites_foldl hl hr k _ _ 8 [7, 6, 5, 4, 3, 2, 1] (by decide) (by decide)
    (fun t d _ hp _ => by simp only [hp])

theorem lowByteAt_of_latched {s t : State} (hp : t.par = s.par) {scr a : Byte}
    (h : ∀ i < s.par.n, i + 1 = scr.toNat → t.latched i a = s.latched i a) : t.lowByteAt scr a = s.lowByteAt scr a := by
  unfold State.lowByteAt
  rw [hp]
  split
  · rw [h _ (by omega) (by omega)]
  · rfl

/-- SET_ROW's writes (R147, R148): every read sees the value before the command. -/
theorem setRow_columns {s : State} (hl : s.par.Legal) (hr : s.Ready) (scr dat : Byte) :
    ColumnWrites s (columns.foldl (rowColumn scr dat) s) scr.toNat [1, 2, 3, 4, 5, 6, 7, 8]
      (fun c => s.lowByteAt scr (col s.par c) ||| (BitVec.ofBool (dat.getLsbD (c - 1))).setWidth 8) :=
  columnWrites_foldl hl hr _ _ _ 1 [2, 3, 4, 5, 6, 7, 8] (by decide) (by decide)
    (fun t d _ hp hu => by simp only [rowColumn, hp, lowByteAt_of_latched hp hu])

/-! The scroll step. -/

/-- The new column byte depends on one column of the mirror only (R161). -/
theorem scrolledByte_congr {s t : State} (hp : t.par = s.par) (hw : t.wrap = s.wrap) {a : Byte}
    (h : ∀ i, t.latched i a = s.latched i a) (i : Nat) : t.scrolledByte a i = s.scrolledByte a i := by
  simp [State.scrolledByte, hp, hw, h]

/-- One column session of a scroll step (R160 to R163). -/
theorem scrollColumn_latched {s : State} (hl : s.par.Legal) (hs : s.Sized) {c : Nat} (h1 : 1 ≤ c) (h8 : c ≤ 8) {i : Nat}
    (hi : i < s.par.n) (a : Byte) :
    (scrollColumn s c).latched i a =
      if a = col s.par c then pack (col s.par c) (s.scrolledByte (col s.par c) i) else s.latched i a := by
  have hc := (col_toNat hl h1 h8).2
  rw [scrollColumn, session_latched _ hs hi]
  simp only [addrOf_pack, Nat.add_sub_cancel]
  by_cases e : a = col s.par c
  · subst e; simp [Nat.lt_succ_of_le hc]
  · rw [if_neg (fun h => e h.1.symm), if_neg e]

theorem latched_out {s : State} (hs : s.Sized) {i : Nat} (hi : s.par.n ≤ i) (a : Byte) : s.latched i a = 0 :=
  latched_of_ge (by rw [hs.latCount]; exact hi) a

/-- What a scroll step has done when the columns `cs` are left: they are as before, the others are scrolled. -/
structure Scrolled (s t : State) (cs : List Nat) : Prop where
  par : t.par = s.par
  wrap : t.wrap = s.wrap
  ready : t.Ready
  left : ∀ c ∈ cs, ∀ i, t.latched i (col s.par c) = s.latched i (col s.par c)
  done : ∀ c ∈ columns, c ∉ cs → ∀ i < s.par.n,
    t.latched i (col s.par c) = pack (col s.par c) (s.scrolledByte (col s.par c) i)
  other : ∀ a, (∀ c ∈ columns, a ≠ col s.par c) → ∀ i, t.latched i a = s.latched i a
  order : ∃ pre, columns = pre ++ cs
  pending : ∀ c, (∃ pre, columns = pre ++ c :: cs) → ∀ i < s.par.n,
    t.pending i = pack (col s.par c) (s.scrolledByte (col s.par c) i)

theorem columns_split {c : Nat} {pre cs : List Nat} (h : columns = pre ++ c :: cs) :
    (1 ≤ c ∧ c ≤ 8) ∧ c ∉ pre ∧ c ∉ cs ∧ ∀ d ∈ cs, 1 ≤ d ∧ d ≤ 8 := by
  have hn : (pre ++ c :: cs).Nodup := h ▸ (by decide : columns.Nodup)
  have hm : ∀ d ∈ pre ++ c :: cs, 1 ≤ d ∧ d ≤ 8 := h ▸ columns_range
  have := List.nodup_append.mp hn
  refine ⟨hm c (by simp), fun hc => this.2.2 c hc c (by simp) rfl, (List.nodup_cons.mp this.2.1).1,
    fun d hd => hm d (by simp [hd])⟩

theorem scrollColumn_scrolled {s : State} (hl : s.par.Legal) (t : State) (c : Nat) (cs : List Nat)
    (h : Scrolled s t (c :: cs)) :
    ChainEffect t (scrollColumn t c)
      (sessionActs s.par.n fun j => pack (col s.par c) (s.scrolledByte (col s.par c) (j - 1))) ∧
    Scrolled s (scrollColumn t c) cs := by
  obtain ⟨pre, hpre⟩ := h.order
  obtain ⟨hc, hcpre, hccs, hcs⟩ := columns_split hpre
  have hsb : ∀ i, t.scrolledByte (col s.par c) i = s.scrolledByte (col s.par c) i :=
    scrolledByte_congr h.par h.wrap (h.left c (by simp))
  have heff : ChainEffect t (scrollColumn t c)
      (sessionActs s.par.n fun j => pack (col s.par c) (s.scrolledByte (col s.par c) (j - 1))) := by
    have := session_effect (fun j => pack (col t.par c) (t.scrolledByte (col t.par c) (j - 1))) h.ready.sized h.ready.clk
    rw [scrollColumn]
    simp only [h.par, hsb] at this ⊢
    exact this
  have hp' : (scrollColumn t c).par = s.par := heff.host.par.trans h.par
  have hlat : ∀ i < s.par.n, ∀ a, (scrollColumn t c).latched i a =
      if a = col s.par c then pack (col s.par c) (s.scrolledByte (col s.par c) i) else t.latched i a := by
    intro i hi a
    rw [scrollColumn_latched (h.par ▸ hl) h.ready.sized hc.1 hc.2 (by rw [h.par]; exact hi)]
    simp only [h.par, hsb]
  have hready := heff.ready h.ready
  have hout : ∀ i, s.par.n ≤ i → ∀ a, (scrollColumn t c).latched i a = t.latched i a := by
    intro i hi a
    rw [latched_out hready.sized (by rw [hp']; exact hi), latched_out h.ready.sized (by rw [h.par]; exact hi)]
  have hsame : ∀ a, a ≠ col s.par c → ∀ i, (scrollColumn t c).latched i a = t.latched i a := by
    intro a ha i
    rcases Nat.lt_or_ge i s.par.n with hi | hi
    · rw [hlat i hi, if_neg ha]
    · exact hout i hi a
  refine ⟨heff, hp', heff.config.wrap.trans h.wrap, hready, ?_, ?_, ?_, ?_, ?_⟩
  · intro d hd i
    rw [hsame _ (fun e => ?_), h.left d (by simp [hd])]
    have := col_injective hl (hcs d hd).1 (hcs d hd).2 hc.1 hc.2 e
    exact hccs (this ▸ hd)
  · intro d hd hn i hi
    rw [hlat i hi]
    by_cases e : d = c
    · subst e; rw [if_pos rfl]
    · rw [if_neg, h.done d hd (by simp [e, hn]) i hi]
      intro e'
      exact e (col_injective hl (columns_range d hd).1 (columns_range d hd).2 hc.1 hc.2 e')
  · intro a ha i
    rw [hsame a (ha c (hpre ▸ by simp)) i, h.other a ha]
  · exact ⟨pre ++ [c], by simpa using hpre⟩
  · rintro d ⟨q, hq⟩ i hi
    obtain rfl : d = c := by
      have hlen : q.length = pre.length := by
        have := congrArg List.length (hq.symm.trans hpre)
        simp at this; exact this
      have := (List.append_inj (hq.symm.trans hpre) hlen).2
      simpa using this
    have := session_pending (fun j => pack (col t.par d) (t.scrolledByte (col t.par d) (j - 1))) h.ready.sized
      (i := i) (by rw [h.par]; exact hi)
    rw [scrollColumn, this]
    simp only [h.par, hsb, Nat.add_sub_cancel]

/-- The frames of a scroll step on the line (R160, R163). -/
def scrollActs (s : State) : List LineAct :=
  (columns.flatMap fun c => sessionActs s.par.n fun j =>
    pack (col s.par c) (s.scrolledByte (col s.par c) (j - 1))) ++ [.opened, .closed]

/-- Latching again what every chip has just latched changes nothing (R163). -/
theorem latchAll_latched {s : State} (hs : s.Sized) {i : Nat} (hi : i < s.par.n) (a : Byte) :
    (latchAll s).latched i a = if addrOf (s.pending i) = a ∧ a.toNat < 16 then s.pending i else s.latched i a := by
  have hl : i < s.lat.length := by rw [hs.latCount]; exact hi
  have hp : i < s.pend.length := by rw [hs.pendCount]; exact hi
  simp only [State.latched, latchAll, List.getElem?_zipWith, State.pending]
  simp [hl, hp, regAt_latchInto]

theorem openClose_effect {s : State} (hr : s.Ready) : ChainEffect s (chainClose (openLine s)) [.opened, .closed] := by
  refine ⟨⟨rfl, rfl, rfl, rfl, rfl, rfl, rfl⟩, ⟨rfl, rfl, rfl⟩, rfl, ?_, rfl, ⟨?_, rfl, ?_, rfl⟩, rfl, rfl, hr.clk⟩
  · simp [chainClose, latchAll, closeLine, waitHalf, State.emit, driveEnable, openLine, hr.sized.latCount, hr.sized.pendCount]
  · simp [lineEvents, FrameEvent.events, chainClose, latchAll, closeLine, waitHalf, State.emit, driveEnable, openLine]
  · simp [sentCount, chainClose, latchAll, closeLine, waitHalf, State.emit, driveEnable, openLine]

theorem openClose_latched {s : State} (hs : s.Sized) {i : Nat} (hi : i < s.par.n) (a : Byte) :
    (chainClose (openLine s)).latched i a =
      if addrOf (s.pending i) = a ∧ a.toNat < 16 then s.pending i else s.latched i a :=
  latchAll_latched (s := closeLine (openLine s)) ⟨hs.latCount, hs.pendCount⟩ hi a

theorem chainClose_pending (s : State) (i : Nat) : (chainClose (openLine s)).pending i = s.pending i := rfl

theorem foldl_chainEffect' {op : State → Nat → State} {acts : Nat → List LineAct} {P : State → List Nat → Prop}
    (h : ∀ s c l, P s (c :: l) → ChainEffect s (op s c) (acts c) ∧ P (op s c) l) (l : List Nat) (hl : l ≠ []) (s : State)
    (hp : P s l) : ChainEffect s (l.foldl op s) (l.flatMap acts) ∧ P (l.foldl op s) [] := by
  cases l with
  | nil => exact absurd rfl hl
  | cons c l => exact foldl_chainEffect h l c s hp

theorem scrollColumns_spec {s : State} (hl : s.par.Legal) (start : Scrolled s s columns) :
    ChainEffect s (columns.foldl scrollColumn s) (columns.flatMap fun c => sessionActs s.par.n fun j =>
      pack (col s.par c) (s.scrolledByte (col s.par c) (j - 1))) ∧ Scrolled s (columns.foldl scrollColumn s) [] :=
  foldl_chainEffect' (P := Scrolled s) (fun t c cs => scrollColumn_scrolled hl t c cs) columns (by decide) s start

/-- Everything a scroll step does (R160 to R166). -/
theorem scrollStep_spec {s : State} (hl : s.par.Legal) (hr : s.Ready) :
    ChainEffect s (scrollStep s) (scrollActs s) ∧
    (∀ i < s.par.n, ∀ c, 1 ≤ c → c ≤ 8 →
      (scrollStep s).latched i (col s.par c) = pack (col s.par c) (s.scrolledByte (col s.par c) i)) ∧
    (∀ i < s.par.n, (scrollStep s).pending i = pack (col s.par 8) (s.scrolledByte (col s.par 8) i)) ∧
    (∀ a, (∀ c, 1 ≤ c → c ≤ 8 → a ≠ col s.par c) → ∀ i < s.par.n, (scrollStep s).latched i a = s.latched i a) := by
  have start : Scrolled s s columns :=
    ⟨rfl, rfl, hr, fun _ _ _ => rfl, fun c hc hn => absurd hc hn, fun _ _ _ => rfl, ⟨[], rfl⟩, by
      rintro c ⟨pre, h⟩
      have := congrArg List.length h
      simp at this
      omega⟩
  obtain ⟨heff, hd⟩ := scrollColumns_spec hl start
  have hmem : ∀ c, 1 ≤ c → c ≤ 8 → c ∈ columns := by
    intro c h1 h8
    have : c = 1 ∨ c = 2 ∨ c = 3 ∨ c = 4 ∨ c = 5 ∨ c = 6 ∨ c = 7 ∨ c = 8 := by omega
    rcases this with h | h | h | h | h | h | h | h <;> subst h <;> decide
  have hpend := hd.pending 8 ⟨[1, 2, 3, 4, 5, 6, 7], rfl⟩
  have h8 := (col_toNat hl (c := 8) (by omega) (by omega)).2
  have hlat : ∀ i < s.par.n, ∀ a, (scrollStep s).latched i a = (columns.foldl scrollColumn s).latched i a := by
    intro i hi a
    rw [scrollStep, openClose_latched hd.ready.sized (by rw [hd.par]; exact hi), hpend i hi, addrOf_pack]
    split
    · rename_i h
      obtain ⟨rfl, -⟩ := h
      rw [hd.done 8 (by decide) (by simp) i hi]
    · rfl
  refine ⟨heff.trans (openClose_effect hd.ready), ?_, ?_, ?_⟩
  · intro i hi c h1 h8
    rw [hlat i hi, hd.done c (hmem c h1 h8) (by simp) i hi]
  · intro i hi
    exact (chainClose_pending _ i).trans (hpend i hi)
  · intro a ha i hi
    rw [hlat i hi, hd.other a (fun c hc => ha c (columns_range c hc).1 (columns_range c hc).2)]

end Sys2Proof.Machine
end

