-- ==== Sys2Proof/Laws/Count.lean ====
section
/-! SUPPORT. Laws/Count.lean: the loop of COUNT_DEVICES, as a number of dummy exchanges and what follows them (R107). -/

namespace Sys2Proof.Machine
open Sys2Proof

/-- `n` dummy exchanges (R107). -/
def dummies : Nat → State → State
  | 0, s => s
  | n + 1, s => dummies n (exchange 0 s).2

/-- One exchange on the line. -/
theorem exchange_shows (f : Frame) (s : State) : Shows s (exchange f s).2 [.sent f] := by
  rw [exchange_eq]
  exact ⟨by simp [lineEvents], by simp [sentCount], by simp [sentCount], by simp [doutAfter]⟩

theorem openLine_shows (s : State) : Shows s (openLine s) [.opened] :=
  ⟨by simp [lineEvents, FrameEvent.events, openLine, driveEnable], by simp [sentCount, openLine, driveEnable],
    by simp [sentCount, openLine, driveEnable], rfl⟩

theorem closeLine_shows (s : State) : Shows s (closeLine s) [.closed] :=
  ⟨by simp [lineEvents, FrameEvent.events, closeLine, waitHalf, State.emit, driveEnable],
    by simp [sentCount, closeLine, waitHalf, State.emit, driveEnable],
    by simp [sentCount, closeLine, waitHalf, State.emit, driveEnable], rfl⟩

theorem dummies_shows (n : Nat) (s : State) : Shows s (dummies n s) (List.replicate n (.sent 0)) := by
  induction n generalizing s with
  | zero => exact .refl s
  | succ n ih => exact (exchange_shows 0 s).trans (ih _)

/-- What the dummy exchanges leave alone. -/
theorem dummies_eq (n : Nat) (s : State) :
    dummies n s = { s with
      clk := if n = 0 then s.clk else false
      dout := if n = 0 then s.dout else false
      dinIn := (dummies n s).dinIn
      drawn := (dummies n s).drawn
      trace := (dummies n s).trace } := by
  induction n generalizing s with
  | zero => rfl
  | succ n ih =>
    have e : dummies (n + 1) s = dummies n (exchange 0 s).2 := rfl
    rw [e, ih, exchange_eq]
    simp

theorem dummies_drawnFrame (n k : Nat) (s : State) : (dummies n s).drawnFrame k = s.drawnFrame (16 * n + k) := by
  have h := dummies_shows n s
  have hc : sentCount (List.replicate n (.sent (0 : Frame))) = n := by
    rw [sentCount, List.countP_replicate, if_pos rfl]
  exact drawnFrame_congr (by rw [h.dinIn, hc]) (by rw [h.drawn, hc]) k

/-- As long as no low byte 0xFF returns the loop only counts on, modulo 2^32. -/
theorem countLoop_dummies (n b : Nat) (c : Word) (s : State)
    (h : ∀ k < n, dataOf (s.drawnFrame (16 * k)) ≠ 0xFF) :
    countLoop (n + b) c s = countLoop b (c + BitVec.ofNat 32 n) (dummies n s) := by
  induction n generalizing c s with
  | zero => simp [dummies]
  | succ n ih =>
    have h0 : ¬ dataOf (s.drawnFrame 0) = Config.sentinel := h 0 (by omega)
    have hd : ∀ k < n, dataOf ((exchange 0 s).2.drawnFrame (16 * k)) ≠ 0xFF := by
      intro k hk
      have := dummies_drawnFrame 1 (16 * k) s
      have e : dummies 1 s = (exchange 0 s).2 := rfl
      rw [e] at this
      rw [this, show 16 * 1 + 16 * k = 16 * (k + 1) by omega]
      exact h (k + 1) (by omega)
    rw [show n + 1 + b = (n + b) + 1 by omega, countLoop]
    have e1 : (exchange 0 s).1 = s.drawnFrame 0 := by rw [exchange_eq]
    simp only [e1, if_neg h0]
    rw [ih (c + 1) _ hd, show dummies (n + 1) s = dummies n (exchange 0 s).2 from rfl]
    congr 1
    rw [show n + 1 = 1 + n by omega, BitVec.ofNat_add, BitVec.add_assoc]
    rfl

/-- The dummy exchange that returns the sentinel ends the loop. -/
theorem countLoop_found (b : Nat) (c : Word) (s : State) (h : dataOf (s.drawnFrame 0) = 0xFF) :
    countLoop (b + 1) c s = { closeLine (dummies 1 s) with result := c + 1 } := by
  have h : dataOf (s.drawnFrame 0) = Config.sentinel := h
  have e : dummies 1 s = (exchange 0 s).2 := rfl
  rw [countLoop]
  have e1 : (exchange 0 s).1 = s.drawnFrame 0 := by rw [exchange_eq]
  simp only [e1, if_pos h, e]

theorem dummies_add (n m : Nat) (s : State) : dummies (n + m) s = dummies m (dummies n s) := by
  induction n generalizing s with
  | zero => simp [dummies]
  | succ n ih => rw [show n + 1 + m = (n + m) + 1 by omega]; exact ih _

theorem Shows.setActivity {s t : State} {acts : List LineAct} (h : Shows s t acts) (a : Activity) :
    Shows s { t with activity := a } acts := ⟨h.trace, h.drawn, h.dinIn, h.dout⟩

theorem Shows.of_retire {s t : State} {acts : List LineAct} (h : Shows s.retire t acts) : Shows s t acts := by
  have l := lineEvents_congr (s := s) (t := s.retire) (m := 0) rfl rfl acts 0
  exact ⟨by have := h.trace; rw [l] at this; exact this, h.drawn, h.dinIn, h.dout⟩

/-- The loop over its whole budget without a sentinel: what it has done, and that it goes on (R108). The budget is a variable
here: unfolding it for a numeral is long. -/
theorem countLoop_goesOn (b : Nat) (c : Word) (s : State) (h : ∀ k < b, dataOf (s.drawnFrame (16 * k)) ≠ 0xFF) :
    (countLoop b c s).activity = .counting (c + BitVec.ofNat 32 b) 0 ∧ (countLoop b c s).en = s.en ∧
      Shows s (countLoop b c s) (List.replicate b (.sent 0)) ∧ SameConfig s (countLoop b c s) ∧
      (countLoop b c s).lat = s.lat ∧ (countLoop b c s).pend = s.pend ∧ (countLoop b c s).result = s.result ∧
      (countLoop b c s).inbox = s.inbox := by
  have e := countLoop_dummies b 0 c s h
  rw [Nat.add_zero] at e
  rw [e]
  refine ⟨rfl, ?_, (dummies_shows b s).setActivity _, ?_, ?_, ?_, ?_, ?_⟩ <;> simp only [countLoop] <;>
    rw [dummies_eq]
  exact ⟨rfl, rfl, rfl⟩

/-- The loop where the sentinel comes back at the exchange after `n` others: it ends there (R107). -/
theorem countLoop_ends (n b : Nat) (c : Word) (s : State) (hb : n < b) (hf : dataOf (s.drawnFrame (16 * n)) = 0xFF)
    (hn : ∀ k < n, dataOf (s.drawnFrame (16 * k)) ≠ 0xFF) :
    countLoop b c s = { closeLine (dummies (n + 1) s) with result := c + BitVec.ofNat 32 (n + 1) } := by
  obtain ⟨d, rfl⟩ : ∃ d, b = n + (d + 1) := ⟨b - n - 1, by omega⟩
  rw [countLoop_dummies n _ c s hn, countLoop_found, ← dummies_add, BitVec.add_assoc]
  · simp [BitVec.ofNat_add]
  · rw [dummies_drawnFrame]; exact hf

/-- The start of COUNT_DEVICES: the line open, the sentinel sent (R107). -/
theorem countStart_shows (s : State) :
    Shows s (exchange (pack 0 Config.sentinel) (openLine s)).2 [.opened, .sent 0x00FF] := by
  have : pack 0 Config.sentinel = 0x00FF := by decide
  rw [this]
  exact (openLine_shows s).trans (exchange_shows _ _)

theorem countStart_drawnFrame (s : State) (k : Nat) :
    (exchange (pack 0 Config.sentinel) (openLine s)).2.drawnFrame k = s.drawnFrame (16 + k) := by
  have h := countStart_shows s
  exact drawnFrame_congr (m := 16) (by rw [h.dinIn]; rfl) (by rw [h.drawn]; rfl) k

/-! The inputs to come take no part in the loop, and every exchange of it shows events. -/

/-- The state with other inputs to come. -/
def withInbox (b : List Arrival) (s : State) : State := { s with inbox := b }

theorem withInbox_exchange (b : List Arrival) (f : Frame) (s : State) :
    exchange f (withInbox b s) = ((exchange f s).1, withInbox b (exchange f s).2) := by
  rw [exchange_eq, exchange_eq]; rfl

theorem withInbox_countLoop (b : List Arrival) (n : Nat) (c : Word) (s : State) :
    countLoop n c (withInbox b s) = withInbox b (countLoop n c s) := by
  induction n generalizing c s with
  | zero => rfl
  | succ n ih =>
    simp only [countLoop, withInbox_exchange]
    split
    · rfl
    · exact ih _ _

theorem exchange_trace_lt (f : Frame) (s : State) : s.trace.length < (exchange f s).2.trace.length := by
  have h : 0 < (FrameEvent.frame f (s.drawnFrame 0)).events.length := Nat.succ_pos _
  rw [exchange_eq]
  simp only [List.length_append, List.length_reverse]
  omega

theorem countLoop_trace_le (n : Nat) (c : Word) (s : State) : s.trace.length ≤ (countLoop n c s).trace.length := by
  obtain ⟨t, q, -, -, h⟩ := countLoop_keeps n c s
  obtain ⟨evs, he⟩ := q.grows
  have : (countLoop n c s).trace = t.trace := by rcases h with ⟨m, h⟩ | ⟨m, h⟩ <;> rw [h]
  rw [this, he, List.length_append]
  omega

theorem countLoop_trace_lt (n : Nat) (c : Word) (s : State) :
    s.trace.length < (countLoop (n + 1) c s).trace.length := by
  have h := exchange_trace_lt 0 s
  simp only [countLoop]
  split
  · have : (closeLine (exchange 0 s).2).trace.length = (exchange 0 s).2.trace.length + 3 := rfl
    show _ < (closeLine (exchange 0 s).2).trace.length
    omega
  · exact lt_of_lt_of_le h (countLoop_trace_le ..)

/-- The loop ends idle, or is still counting (R25, R107, R108). -/
theorem countLoop_activity (n : Nat) (c : Word) (s : State) :
    (countLoop n c s).activity = s.activity ∨ ∃ m, (countLoop n c s).activity = .counting m 0 := by
  obtain ⟨t, q, -, -, ⟨m, h⟩ | ⟨m, h⟩⟩ := countLoop_keeps n c s <;> rw [h]
  · exact .inr ⟨m, rfl⟩
  · exact .inl q.host.activity

end Sys2Proof.Machine
end

