-- ==== Sys2Proof/Laws/Decode.lean ====
section
/-! SUPPORT. Laws/Decode.lean: the fields and the must-be-zero bits of the words the encoder builds (R61, R62), and the row each
opcode finds (R64, R65). -/

namespace Sys2Proof

theorem opField_cmdWord (op : BitVec 6) (s : Byte) (h k : Bool) (a d : Byte) :
    opField (cmdWord op s h k a d) = op := by
  apply BitVec.eq_of_getLsbD_eq
  intro i hi
  interval_cases i <;> simp [opField, cmdWord, matchWord]

theorem sField_cmdWord (op : BitVec 6) (s : Byte) (h k : Bool) (a d : Byte) :
    sField (cmdWord op s h k a d) = s := by
  apply BitVec.eq_of_getLsbD_eq
  intro i hi
  interval_cases i <;> simp [sField, cmdWord, matchWord]

theorem aField_cmdWord (op : BitVec 6) (s : Byte) (h k : Bool) (a d : Byte) :
    aField (cmdWord op s h k a d) = a := by
  apply BitVec.eq_of_getLsbD_eq
  intro i hi
  interval_cases i <;> simp [aField, cmdWord, matchWord]

theorem dField_cmdWord (op : BitVec 6) (s : Byte) (h k : Bool) (a d : Byte) :
    dField (cmdWord op s h k a d) = d := by
  apply BitVec.eq_of_getLsbD_eq
  intro i hi
  interval_cases i <;> simp [dField, cmdWord, matchWord]

theorem hField_cmdWord (op : BitVec 6) (s : Byte) (h k : Bool) (a d : Byte) :
    hField (cmdWord op s h k a d) = h := by
  simp [hField, cmdWord, matchWord]

theorem kField_cmdWord (op : BitVec 6) (s : Byte) (h k : Bool) (a d : Byte) :
    kField (cmdWord op s h k a d) = k := by
  simp [kField, cmdWord, matchWord]

theorem wField_cmdWord (op : BitVec 6) (s : Byte) (h k : Bool) (a d : Byte) :
    wField (cmdWord op s h k a d) = d.getLsbD 0 := by
  simp [wField, cmdWord, matchWord]

theorem opField_frameWord (op : BitVec 6) (s : Byte) (f : Frame) : opField (frameWord op s f) = op := by
  apply BitVec.eq_of_getLsbD_eq
  intro i hi
  interval_cases i <;> simp [opField, frameWord, matchWord]

theorem sField_frameWord (op : BitVec 6) (s : Byte) (f : Frame) : sField (frameWord op s f) = s := by
  apply BitVec.eq_of_getLsbD_eq
  intro i hi
  interval_cases i <;> simp [sField, frameWord, matchWord]

theorem fField_frameWord (op : BitVec 6) (s : Byte) (f : Frame) : fField (frameWord op s f) = f := by
  apply BitVec.eq_of_getLsbD_eq
  intro i hi
  interval_cases i <;> simp [fField, frameWord, matchWord]

/-! The must-be-zero bits of each format are zero in the words built for it (R62). -/

theorem mask_N (op : BitVec 6) : cmdWord op 0#8 false false 0#8 0#8 &&& Format.N.mask = matchWord op := by
  revert op; decide

theorem mask_F (op : BitVec 6) (f : Frame) : frameWord op 0#8 f &&& Format.F.mask = matchWord op := by
  apply BitVec.eq_of_getLsbD_eq
  intro i hi
  interval_cases i <;> simp [Format.mask, frameWord, matchWord]

theorem mask_S (op : BitVec 6) (s : Byte) : cmdWord op s false false 0#8 0#8 &&& Format.S.mask = matchWord op := by
  apply BitVec.eq_of_getLsbD_eq
  intro i hi
  interval_cases i <;> simp [Format.mask, cmdWord, matchWord]

theorem mask_SF (op : BitVec 6) (s : Byte) (f : Frame) : frameWord op s f &&& Format.SF.mask = matchWord op := by
  apply BitVec.eq_of_getLsbD_eq
  intro i hi
  interval_cases i <;> simp [Format.mask, frameWord, matchWord]

theorem mask_SA (op : BitVec 6) (s a : Byte) : cmdWord op s false false a 0#8 &&& Format.SA.mask = matchWord op := by
  apply BitVec.eq_of_getLsbD_eq
  intro i hi
  interval_cases i <;> simp [Format.mask, cmdWord, matchWord]

theorem mask_SAD (op : BitVec 6) (s a d : Byte) :
    cmdWord op s false false a d &&& Format.SAD.mask = matchWord op := by
  apply BitVec.eq_of_getLsbD_eq
  intro i hi
  interval_cases i <;> simp [Format.mask, cmdWord, matchWord]

theorem mask_SKAD (op : BitVec 6) (s : Byte) (k : Bool) (a d : Byte) :
    cmdWord op s false k a d &&& Format.SKAD.mask = matchWord op := by
  apply BitVec.eq_of_getLsbD_eq
  intro i hi
  interval_cases i <;> simp [Format.mask, cmdWord, matchWord]

theorem mask_SD (op : BitVec 6) (s d : Byte) : cmdWord op s false false 0#8 d &&& Format.SD.mask = matchWord op := by
  apply BitVec.eq_of_getLsbD_eq
  intro i hi
  interval_cases i <;> simp [Format.mask, cmdWord, matchWord]

theorem mask_SH (op : BitVec 6) (s : Byte) (h : Bool) :
    cmdWord op s h false 0#8 0#8 &&& Format.SH.mask = matchWord op := by
  apply BitVec.eq_of_getLsbD_eq
  intro i hi
  interval_cases i <;> simp [Format.mask, cmdWord, matchWord]

theorem mask_D (op : BitVec 6) (d : Byte) : cmdWord op 0#8 false false 0#8 d &&& Format.D.mask = matchWord op := by
  apply BitVec.eq_of_getLsbD_eq
  intro i hi
  interval_cases i <;> simp [Format.mask, cmdWord, matchWord]

theorem mask_W (op : BitVec 6) (w : Bool) :
    cmdWord op 0#8 false false 0#8 (BitVec.setWidth 8 (BitVec.ofBool w)) &&& Format.W.mask = matchWord op := by
  revert op w; decide

/-- The row `decodeWord` works with is the one of the word's opcode; a word whose opcode has no row is unassigned. -/
theorem decodeWord_of_find {w : Word} {r : Row} (h : opTable.find? (fun r => r.op == opField w) = some r) :
    decodeWord w = if w &&& r.fmt.mask = matchWord r.op then .ok (r.build w) else .error .mustBeZero := by
  simp [decodeWord, h, Row.accepts]

theorem decode_eq {n : Nat} {w : Word} {i : Instr} (h : decodeWord w = .ok i) :
    decode n w = if i.wf n = true then .ok i else .error .glyphSlot := by
  simp [decode, h]

end Sys2Proof
end

