-- ==== Sys2Proof/Laws/Passes.lean ====
section
/-! SUPPORT. Laws/Passes.lean: the address passes and the flush of RESET_REGISTERS (R131 to R133). -/

namespace Sys2Proof.Machine
open Sys2Proof

/-- One flush session of one no-op frame (R131, R133). -/
theorem flushOne {t : State} (hr : t.Ready) : ChainEffect t (chainClose (chainSend 0 (openLine t)).2) [.opened, .sent 0, .closed] ∧
   (∀ i < t.par.n, (chainClose (chainSend 0 (openLine t)).2).pending i = if i = 0 then 0 else t.pending (i - 1)) ∧
   (∀ i < t.par.n, ∀ a, (chainClose (chainSend 0 (openLine t)).2).latched i a = 
      let p := if i = 0 then 0 else t.pending (i - 1)
      if addrOf p = a ∧ a.toNat < 16 then p else t.latched i a) := by
  have hpl : (shiftIn 0 t.pend).length = t.par.n := by rw [shiftIn_length]; exact hr.sized.pendCount
  have hp : ∀ i < t.par.n, (chainClose (chainSend 0 (openLine t)).2).pending i = if i = 0 then 0 else t.pending (i - 1) := by
    intro i hi
    rw [chainSend_eq]
    change State.pending { t with pend := shiftIn 0 t.pend } i = _
    simp only [State.pending]
    rw [shiftIn_getElem? _ _ (by rw [hr.sized.pendCount]; exact hi)]
    by_cases e : i = 0 <;> simp [e]
  refine ⟨?_, hp, ?_⟩
  · rw [chainSend_eq]
    refine ⟨⟨rfl, rfl, rfl, rfl, rfl, rfl, rfl⟩, ⟨rfl, rfl, rfl⟩, rfl, ?_, ?_, ⟨?_, rfl, ?_, rfl⟩, rfl, rfl, rfl⟩
    · simp [chainClose, latchAll, closeLine, waitHalf, State.emit, driveEnable, openLine, hr.sized.latCount]; exact hpl.ge
    · simp [chainClose, latchAll, closeLine, waitHalf, State.emit, driveEnable, openLine, hr.sized.pendCount]; exact hpl
    · simp [lineEvents, FrameEvent.events, chainClose, latchAll, closeLine, waitHalf, State.emit, driveEnable, openLine]; rfl
    · simp [sentCount, chainClose, latchAll, closeLine, waitHalf, State.emit, driveEnable, openLine]
  · intro i hi a
    have hp' := hp i hi
    have e : (chainClose (chainSend 0 (openLine t)).2).latched i a = (latchAll (closeLine (chainSend 0 (openLine t)).2)).latched i a := rfl
    rw [e, latchAll_latched (s := closeLine (chainSend 0 (openLine t)).2) ⟨?_, ?_⟩ ?_]
    · have e2 : (closeLine (chainSend 0 (openLine t)).2).pending i = if i = 0 then 0 else t.pending (i - 1) := hp'
      have e3 : (closeLine (chainSend 0 (openLine t)).2).latched i a = t.latched i a := by rw [chainSend_eq]; rfl
      rw [e2, e3]
    · rw [chainSend_eq]; exact hr.sized.latCount
    · rw [chainSend_eq]; exact hpl
    · rw [chainSend_eq]; exact hi

/-- What RESET_REGISTERS' flush has done after `m` sessions: one more no-op frame is pending each time, and what it pushes on is
what the farther chips hold already (R132, R133). -/
structure Flushed (s t : State) (f : Frame) (m : Nat) : Prop where
  par : t.par = s.par
  ready : t.Ready
  pend : ∀ i < s.par.n, t.pending i = if i < m then 0 else f
  zero : ∀ i < s.par.n, t.latched i 0 = 0
  lat : ∀ i < s.par.n, ∀ a, a ≠ 0 → t.latched i a = s.latched i a

theorem flushOne_flushed {s t : State} {f : Frame} {m : Nat} (hf : ∀ i < s.par.n, s.latched i (addrOf f) = f) (hf0 : addrOf f ≠ 0) (h : Flushed s t f m) :
   Flushed s (chainClose (chainSend 0 (openLine t)).2) f (m + 1) := by
  obtain ⟨e, p, l⟩ := flushOne h.ready
  have hp := h.par
  rw [hp] at p l
  refine ⟨e.host.par.trans hp, e.ready h.ready, ?_, ?_, ?_⟩
  · intro i hi
    rw [p i hi]
    by_cases e : i = 0
    · simp [e]
    · rw [if_neg e, h.pend _ (by omega)]
      by_cases k : i - 1 < m
      · simp [k, show i < m + 1 by omega]
      · simp [k, show ¬ i < m + 1 by omega]
  · intro i hi
    rw [l i hi 0]
    simp only
    by_cases e : i = 0
    · simp [e]
    · rw [if_neg e, h.pend _ (by omega)]
      split
      · simp
      · rw [if_neg (fun q => hf0 q.1)]; exact h.zero i hi
  · intro i hi a ha
    rw [l i hi a]
    simp only
    by_cases e : i = 0
    · rw [if_pos e, if_neg (fun q => ha (by rw [← q.1]; rfl))]; exact h.lat i hi a ha
    · rw [if_neg e, h.pend _ (by omega)]
      split
      · rw [if_neg (fun q => ha (by rw [← q.1]; rfl))]; exact h.lat i hi a ha
      · split
        · rename_i q; rw [← q.1, hf i hi]
        · exact h.lat i hi a ha

theorem flush_flushed {s : State} {f : Frame} (hf : ∀ i < s.par.n, s.latched i (addrOf f) = f) (hf0 : addrOf f ≠ 0) :
   ∀ (n m : Nat) (t : State), Flushed s t f m → Flushed s (flush n t) f (m + n) ∧ (n ≠ 0 → ChainEffect t (flush n t) (List.replicate n [LineAct.opened, .sent 0, .closed]).flatten) := by
  intro n
  induction n with
  | zero => intro m t h; exact ⟨h, fun h => absurd rfl h⟩
  | succ n ih =>
    intro m t h
    have h1 := flushOne_flushed hf hf0 h
    obtain ⟨i1, i2⟩ := ih _ _ h1
    refine ⟨by rw [show m + (n + 1) = m + 1 + n by omega]; exact i1, fun _ => ?_⟩
    have e1 := (flushOne h.ready).1
    by_cases hn : n = 0
    · subst hn; exact e1
    · exact e1.trans (i2 hn)

theorem resetPass_effect {t : State} (hr : t.Ready) (a : Nat) : ChainEffect t (resetPass t a) (sessionActs t.par.n fun _ => pack (BitVec.ofNat 8 a) (resetByte t.par (BitVec.ofNat 8 a))) := session_effect _ hr.sized hr.clk

/-- What RESET_REGISTERS' passes have done when the addresses `l` are left (R131). -/
structure Passed (s t : State) (l : List Nat) : Prop where
  par : t.par = s.par
  ready : t.Ready
  ex : ∃ pre, List.range 16 = pre ++ l
  lat : ∀ i < s.par.n, ∀ a < 16, a ∉ l → t.latched i (BitVec.ofNat 8 a) = pack (BitVec.ofNat 8 a) (resetByte s.par (BitVec.ofNat 8 a))
  pend : l = [] → ∀ i < s.par.n, t.pending i = pack 15 (resetByte s.par 15)

theorem resetPass_passed (s t : State) (c : Nat) (l : List Nat) (h : Passed s t (c :: l)) :
    ChainEffect t (resetPass t c) (sessionActs s.par.n fun _ => pack (BitVec.ofNat 8 c) (resetByte s.par (BitVec.ofNat 8 c))) ∧ Passed s (resetPass t c) l := by
  have e := resetPass_effect h.ready c
  obtain ⟨pre, hpre⟩ := h.ex
  have hc : c < 16 := by
    have : c ∈ List.range 16 := by rw [hpre]; simp
    simpa using this
  have hp := h.par
  rw [hp] at e
  refine ⟨e, e.host.par.trans hp, e.ready h.ready, ⟨pre ++ [c], by simpa using hpre⟩, ?_, ?_⟩
  · intro i hi a ha hal
    rw [resetPass, session_latched _ h.ready.sized (by rw [hp]; exact hi), addrOf_pack, hp]
    by_cases e : a = c
    · subst e; rw [if_pos ⟨rfl, by simp; omega⟩]
    · rw [if_neg, h.lat i hi a ha (by simp [e, hal])]
      rintro ⟨q, -⟩
      have := congrArg BitVec.toNat q
      simp at this; omega
  · rintro rfl i hi
    have : c = 15 := by
      have : (List.range 16).getLast? = some c := by rw [hpre]; simp
      have h2 : (List.range 16).getLast? = some 15 := by decide
      rw [h2] at this; exact (Option.some.inj this).symm
    subst this
    rw [resetPass, session_pending _ h.ready.sized (by rw [hp]; exact hi), hp]; rfl

end Sys2Proof.Machine
end

