-- ==== Sys2Proof/Laws/Scroll.lean ====
section
/-! SUPPORT. Laws/Scroll.lean: a scroll step on the column bytes, on the shift register of a column, and the wait between two
steps (R160 to R164, R168). -/

namespace Sys2Proof.Machine
open Sys2Proof

theorem scrollStep_columnOf {s : State} (hl : s.par.Legal) (hr : s.Ready) {i : Nat} (hi : i < s.par.n) {c : Nat} (h1 : 1 ≤ c) (h8 : c ≤ 8) :
    (scrollStep s).columnOf i c = s.scrolledByte (col s.par c) i := by
  have h := scrollStep_spec hl hr
  rw [State.columnOf, h.1.host.par, h.2.1 i hi c h1 h8, dataOf_pack]

theorem columnOf_getLsbD (s : State) (i c j) (hj : j < 8) : (s.columnOf i c).getLsbD j = (s.latched i (col s.par c)).getLsbD j := dataOf_getLsbD _ hj

theorem sessionActs_congr {n : Nat} {f g : Nat → Frame} (h : ∀ j, 1 ≤ j → j ≤ n → f j = g j) : sessionActs n f = sessionActs n g := by
  unfold sessionActs
  congr 2
  apply List.map_congr_left
  intro j hj
  simp only [devicesDown, List.mem_reverse, List.mem_range'_1] at hj
  rw [h j (by omega) (by omega)]

/-- One scroll step on the 8N-bit shift register of a column (R162). -/
theorem scrollStep_ringBit {s : State} (hl : s.par.Legal) (hr : s.Ready) {c : Nat} (h1 : 1 ≤ c) (h8 : c ≤ 8) {p : Nat} (hp : p < 8 * s.par.n) :
    (scrollStep s).ringBit c p = if p = 0 then s.wrap && s.ringBit c (8 * s.par.n - 1) else s.ringBit c (p - 1) := by
  have hn := hl.1.1
  have hi : p / 8 < s.par.n := by omega
  rw [State.ringBit, scrollStep_columnOf hl hr hi h1 h8]
  by_cases hm : p % 8 = 0
  · rw [hm, scrolledByte_getLsbD_zero]
    by_cases h0 : p = 0
    · subst h0
      simp only [Nat.zero_div, if_true, State.ringBit]
      rw [if_neg (by omega), columnOf_getLsbD _ _ _ _ (by omega), show (8 * s.par.n - 1) / 8 = s.par.n - 1 by omega, show (8 * s.par.n - 1) % 8 = 7 by omega]
    · rw [if_pos (by omega), if_neg h0, State.ringBit, columnOf_getLsbD _ _ _ _ (by omega), show (p - 1) / 8 = p / 8 - 1 by omega, show (p - 1) % 8 = 7 by omega]
  · obtain ⟨b, hb⟩ : ∃ b, p % 8 = b + 1 := ⟨p % 8 - 1, by omega⟩
    rw [hb, scrolledByte_getLsbD_succ _ _ _ (by omega), if_neg (by omega), State.ringBit, columnOf_getLsbD _ _ _ _ (by omega), show (p - 1) / 8 = p / 8 by omega, show (p - 1) % 8 = b by omega]

theorem sentCount_sessions (n : Nat) (l : List Nat) (f : Nat → Nat → Frame) : sentCount (l.flatMap fun c => sessionActs n (f c)) = l.length * n := by
  induction l with
  | nil => simp [sentCount]
  | cons c l ih => rw [List.flatMap_cons, sentCount_append, ih, sentCount_sessionActs, List.length_cons]; ring

theorem waitDelay_ringBit (s : State) (c p) : (waitDelay s).ringBit c p = s.ringBit c p := rfl

theorem waitDelay_shows (s : State) : Shows s (waitDelay s) [.delay s.cycleDelay] :=
  ⟨by simp [lineEvents, FrameEvent.events, waitDelay, State.emit], by simp [sentCount, waitDelay, State.emit], by simp [sentCount, waitDelay, State.emit], rfl⟩

/-- One more place round a ring of M bits. -/
theorem ring_index_succ (M n p : Nat) (hM8 : 8 ≤ M) (hp : p < M) : (p + M - (n + 2) % M) % M =
    if (p + M - (n + 1) % M) % M = 0 then M - 1 else (p + M - (n + 1) % M) % M - 1 := by
  have e2 : (n + 2) % M = if (n + 1) % M = M - 1 then 0 else (n + 1) % M + 1 := by
    rw [show n + 2 = (n + 1) + 1 by omega, Nat.add_mod, Nat.mod_eq_of_lt (show 1 < M by omega)]
    split
    · rename_i h; rw [h, show M - 1 + 1 = M by omega, Nat.mod_self]
    · have := Nat.mod_lt (n + 1) (show 0 < M by omega)
      rw [Nat.mod_eq_of_lt (by omega)]
  rw [e2]
  have hlt := Nat.mod_lt (n + 1) (show 0 < M by omega)
  generalize (n + 1) % M = r at *
  have key : ∀ x, x < 2 * M → x % M = if x < M then x else x - M := by
    intro x hx
    split
    · exact Nat.mod_eq_of_lt ‹_›
    · rw [Nat.mod_eq_sub_mod (by omega), Nat.mod_eq_of_lt (by omega)]
  have k2 : ∀ q, q < M → (p + M - q) % M = if q ≤ p then p - q else p + M - q := by
    intro q hq
    rcases Nat.eq_zero_or_pos q with h | h
    · subst h; rw [Nat.sub_zero, Nat.add_mod_right, Nat.mod_eq_of_lt hp]; simp
    · rw [key _ (by omega)]
      by_cases h : q ≤ p
      · rw [if_neg (by omega), if_pos h]; omega
      · rw [if_pos (by omega), if_neg h]
  rw [k2 r hlt]
  by_cases h : r = M - 1
  · rw [if_pos h, k2 0 (by omega)]; split <;> split <;> split <;> omega
  · rw [if_neg h, k2 _ (by omega)]; split <;> split <;> (try split) <;> omega

theorem waitDelay_latched (s : State) (i a) : (waitDelay s).latched i a = s.latched i a := rfl
theorem waitDelay_par (s : State) : (waitDelay s).par = s.par := rfl
theorem waitDelay_cycleDelay (s : State) : (waitDelay s).cycleDelay = s.cycleDelay := rfl
theorem waitDelay_effect {t : State} (h1 : t.en = false) (h2 : t.loadN = true) (h3 : t.clk = false) : ChainEffect t (waitDelay t) [.delay t.cycleDelay] :=
    ⟨⟨rfl, rfl, rfl, rfl, rfl, rfl, rfl⟩, ⟨rfl, rfl, rfl⟩, rfl, rfl, rfl, waitDelay_shows _, h1, h2, h3⟩
theorem waitDelay_wrap (s : State) : (waitDelay s).wrap = s.wrap := rfl
theorem waitDelay_ready {s : State} (h : s.Ready) : (waitDelay s).Ready := ⟨⟨h.sized.latCount, h.sized.pendCount⟩, h.clk⟩

theorem litBits_sum (b : Byte) : litBits b = (b.getLsbD 0).toNat + (b.getLsbD 1).toNat + (b.getLsbD 2).toNat + (b.getLsbD 3).toNat + (b.getLsbD 4).toNat + (b.getLsbD 5).toNat + (b.getLsbD 6).toNat + (b.getLsbD 7).toNat := by
  revert b; decide +kernel

/-- The lit pixels of a new column byte: the top bit leaves, the carry enters (R164). -/
theorem litBits_scrolled (s : State) (c i : Nat) : litBits (s.scrolledByte (col s.par c) i) + ((s.columnOf i c).getLsbD 7).toNat =
    litBits (s.columnOf i c) + ((s.scrolledByte (col s.par c) i).getLsbD 0).toNat := by
  rw [litBits_sum, litBits_sum]
  have h : ∀ b, b < 7 → (s.scrolledByte (col s.par c) i).getLsbD (b + 1) = (s.columnOf i c).getLsbD b := by
    intro b hb; rw [scrolledByte_getLsbD_succ _ _ _ hb, columnOf_getLsbD _ _ _ _ (by omega)]
  have h0 := h 0 (by omega); have h1 := h 1 (by omega); have h2 := h 2 (by omega); have h3 := h 3 (by omega); have h4 := h 4 (by omega)
  have h5 := h 5 (by omega); have h6 := h 6 (by omega)
  simp only [Nat.zero_add, Nat.reduceAdd] at *
  rw [h0, h1, h2, h3, h4, h5, h6]; omega

theorem sum_map_add (l : List Nat) (f g : Nat → Nat) : (l.map fun x => f x + g x).sum = (l.map f).sum + (l.map g).sum := by
  induction l with
  | nil => rfl
  | cons a l ih => simp only [List.map_cons, List.sum_cons, ih]; omega

theorem sum_map_comm (l m : List Nat) (f : Nat → Nat → Nat) : (l.map fun i => (m.map fun c => f i c).sum).sum = (m.map fun c => (l.map fun i => f i c).sum).sum := by
  induction l with
  | nil => simp
  | cons a l ih => simp only [List.map_cons, List.sum_cons, ih, sum_map_add]

/-! ARG takes no part in a scroll step: the commands read it before the first one (R168, R170). -/

/-- The state with another ARG. -/
def withArg (v : Word) (s : State) : State := { s with arg := v }

theorem withArg_session (v : Word) (f : Nat → Frame) (s : State) : session f (withArg v s) = withArg v (session f s) := by
  have e := lineEvents_congr (s := s) (t := withArg v s) (m := 0) rfl rfl (sessionActs s.par.n f) 0
  rw [Nat.zero_add] at e
  rw [session_eq, session_eq, show (withArg v s).par = s.par from rfl, e]
  rfl

theorem withArg_scrollColumn (v : Word) (s : State) (c : Nat) :
    scrollColumn (withArg v s) c = withArg v (scrollColumn s c) :=
  withArg_session v (fun j => pack (col s.par c) (s.scrolledByte (col s.par c) (j - 1))) s

theorem withArg_scrollColumns (v : Word) (l : List Nat) (s : State) :
    l.foldl scrollColumn (withArg v s) = withArg v (l.foldl scrollColumn s) := by
  induction l generalizing s with
  | nil => rfl
  | cons c l ih => rw [List.foldl_cons, List.foldl_cons, withArg_scrollColumn, ih]

theorem withArg_openLine (v : Word) (s : State) : openLine (withArg v s) = withArg v (openLine s) := rfl

theorem withArg_chainClose (v : Word) (s : State) : chainClose (withArg v s) = withArg v (chainClose s) := rfl

theorem withArg_waitDelay (v : Word) (s : State) : waitDelay (withArg v s) = withArg v (waitDelay s) := rfl

theorem withArg_scrollStep (v : Word) (s : State) : scrollStep (withArg v s) = withArg v (scrollStep s) := by
  simp only [scrollStep, withArg_scrollColumns, withArg_openLine, withArg_chainClose]

theorem withArg_cycleStepsOf (v : Word) (n : Nat) (s : State) :
    cycleStepsOf n (withArg v s) = withArg v (cycleStepsOf n s) := by
  induction n generalizing s with
  | zero => rfl
  | succ n ih =>
    cases n with
    | zero => exact withArg_scrollStep v s
    | succ n => simp only [cycleStepsOf, withArg_scrollStep, withArg_waitDelay, ih]

end Sys2Proof.Machine
end

