-- ==== Sys2Proof/Laws/Word.lean ====
section
/-! SUPPORT. Laws/Word.lean: the loop of SET_WORD (R155 to R157). -/

namespace Sys2Proof.Machine
open Sys2Proof

/-- The order of the columns does not matter to what is written. -/
theorem ColumnsWritten.of_mem_iff {s t : State} {k : Nat} {as bs : List Nat} {byte} (h : ColumnsWritten s t k as byte) (e : ∀ c, c ∈ bs ↔ c ∈ as) : ColumnsWritten s t k bs byte := by
  intro i hi
  obtain ⟨h1, h2⟩ := h i hi
  refine ⟨fun hk => ⟨fun c hc => (h1 hk).1 c ((e c).mp hc), fun a ha => (h1 hk).2 a (fun c hc => ha c ((e c).mpr hc))⟩, h2⟩

/-- What SET_WORD's loop has done after the devices 1 to k (R156, R157). -/
structure WordWritten (s t : State) (len k : Nat) : Prop where
  eff : ChainEffect s t ((List.range' 1 k).flatMap fun k => [8, 7, 6, 5, 4, 3, 2, 1].flatMap fun c =>
        sessionActs s.par.n fun j =>
          if j = k then pack (col s.par c) (columnByte s.par (s.glyphAt (len - k)) c) else 0)
  cols : ∀ i < s.par.n, ∀ c, 1 ≤ c → c ≤ 8 → t.latched i (col s.par c) =
        if i < k then pack (col s.par c) (columnByte s.par (s.glyphAt (len - (i + 1))) c)
        else s.latched i (col s.par c)
  pend : ∀ i < s.par.n, t.pending i =
        if i + 1 = k then pack (col s.par 1) (columnByte s.par (s.glyphAt (len - k)) 1) else 0
  noop : ∀ i < s.par.n, t.latched i 0 = if k = 1 ∧ i = 0 then s.latched i 0 else 0
  rest : ∀ i < s.par.n, ∀ a, a ≠ 0 → (∀ c, 1 ≤ c → c ≤ 8 → a ≠ col s.par c) → t.latched i a = s.latched i a

theorem col_ne_zero {p : Params} (h : p.Legal) {c : Nat} (h1 : 1 ≤ c) (h8 : c ≤ 8) : col p c ≠ 0 := by
  intro e; have := (col_toNat h h1 h8).1; rw [e] at this; simp at this

theorem glyphAt_congr {s t : State} (h : t.glyph = s.glyph) (g) : t.glyphAt g = s.glyphAt g := by simp [State.glyphAt, h]

theorem wordTo_written (s : State) (hl : s.par.Legal) (hr : s.Ready) (len : Nat) : ∀ k, 1 ≤ k → k ≤ len → WordWritten s (wordTo len k s) len k := by
  intro k
  induction k with
  | zero => intro h; omega
  | succ k ih =>
    intro _ hk
    by_cases hk0 : k = 0
    · subst hk0
      have h := setLetterOn_columns hl hr 1 (s.glyphAt (len - 1))
      have e : wordTo len (0 + 1) s = setLetterOn 1 (s.glyphAt (len - 1)) s := rfl
      rw [e]
      refine ⟨by have := h.effect; unfold chipFrame at this; rw [show List.range' 1 (0+1) = [1] from rfl, List.flatMap_cons, List.flatMap_nil, List.append_nil]; exact this, ?_, fun i hi => h.pending i hi 1 (by decide), ?_, ?_⟩
      · intro i hi c h1 h8
        obtain ⟨p, q⟩ := h.columns i hi
        by_cases e : i = 0
        · subst e; rw [(p rfl).1 c (by simp; omega)]; simp
        · rw [(q (by omega)).2 _ (col_ne_zero hl h1 h8), if_neg (by omega)]
      · intro i hi
        obtain ⟨p, q⟩ := h.columns i hi
        by_cases e : i = 0
        · subst e; rw [(p rfl).2 _ (fun c hc => Ne.symm (col_ne_zero hl (by simp at hc; omega) (by simp at hc; omega)))]; simp
        · rw [(q (by omega)).1]; simp [e]
      · intro i hi a ha hc
        obtain ⟨p, q⟩ := h.columns i hi
        by_cases e : i = 0
        · subst e; rw [(p rfl).2 _ (fun c hc' => hc c (by simp at hc'; omega) (by simp at hc'; omega))]
        · rw [(q (by omega)).2 a ha]
    · have w := ih (by omega) (by omega)
      have hp := w.eff.host.par
      have e : wordTo len (k + 1) s = setLetterOn (k + 1) (s.glyphAt (len - (k + 1))) (wordTo len k s) := by
        rw [wordTo]; simp only [glyphAt_congr w.eff.config.glyph]
      have h := setLetterOn_columns (hp ▸ hl) (w.eff.ready hr) (k + 1) (s.glyphAt (len - (k + 1)))
      have hc := h.columns
      have he := h.effect
      have hpe := fun i hi => h.pending i hi 1 (by decide)
      rw [hp] at he hc hpe
      unfold ColumnsWritten at hc
      rw [hp] at hc
      rw [e]
      refine ⟨?_, ?_, hpe, ?_, ?_⟩
      · rw [List.range'_1_concat, List.flatMap_append]
        have := w.eff.trans he
        unfold chipFrame at this
        rw [List.flatMap_singleton, Nat.add_comm 1 k]
        exact this
      · intro i hi c h1 h8
        obtain ⟨p, q⟩ := hc i hi
        by_cases e : i = k
        · subst e; rw [(p rfl).1 c (by simp; omega)]; simp
        · rw [(q (by omega)).2 _ (col_ne_zero hl h1 h8), w.cols i hi c h1 h8]
          by_cases h : i < k
          · simp [h, show i < k + 1 by omega]
          · simp [h, show ¬ i < k + 1 by omega]
      · intro i hi
        obtain ⟨p, q⟩ := hc i hi
        rw [if_neg (by omega)]
        by_cases e : i = k
        · subst e; rw [(p rfl).2 _ (fun c hc => Ne.symm (col_ne_zero hl (by simp at hc; omega) (by simp at hc; omega))), w.noop i hi, if_neg (by omega)]
        · exact (q (by omega)).1
      · intro i hi a ha hca
        obtain ⟨p, q⟩ := hc i hi
        by_cases e : i = k
        · subst e; rw [(p rfl).2 _ (fun c hc' => hca c (by simp at hc'; omega) (by simp at hc'; omega)), w.rest i hi a ha hca]
        · rw [(q (by omega)).2 a ha, w.rest i hi a ha hca]

end Sys2Proof.Machine
end

