-- ==== Sys2Proof/Laws/Durations.lean ====
section
/-! SUPPORT. Laws/Durations.lean: how many half-period waits, and which inter-step waits, a line activity holds (R91 to R94, R168,
R209). -/

namespace Sys2Proof.Machine
open Sys2Proof

/-- Half-period waits of a line activity: 32 per frame, 2 per close (R93, R94). -/
def actPeriods (acts : List LineAct) : Nat :=
  (acts.map fun a => match a with
    | .sent _ => 32
    | .closed => 2
    | .opened => 0
    | .delay _ => 0).sum

/-- The inter-step waits of a line activity (R168). -/
def actDelays (acts : List LineAct) : List Word :=
  acts.filterMap fun a => match a with
    | .delay d => some d
    | .opened => none
    | .sent _ => none
    | .closed => none

theorem halfPeriods_append (es fs : List Event) : halfPeriods (es ++ fs) = halfPeriods es + halfPeriods fs := by
  simp [halfPeriods]

theorem halfPeriods_reverse (es : List Event) : halfPeriods es.reverse = halfPeriods es := by simp [halfPeriods]

theorem delays_append (es fs : List Event) : delays (es ++ fs) = delays es ++ delays fs := by simp [delays]

theorem delays_reverse (es : List Event) : delays es.reverse = (delays es).reverse := by simp [delays, List.filterMap_reverse]

theorem frame_halfPeriods (out inn : Frame) : halfPeriods (FrameEvent.frame out inn).events = 32 := by
  rw [frame_events_eq]
  have : ∀ l : List Nat, halfPeriods (l.flatMap fun j => bitEvents (out.getLsbD (15 - j)) (inn.getLsbD (15 - j))) =
      2 * l.length := by
    intro l
    induction l with
    | nil => rfl
    | cons j l ih =>
      rw [List.flatMap_cons, halfPeriods_append, ih, List.length_cons]
      simp [bitEvents, halfPeriods]
      omega
  rw [this]; rfl

theorem frame_delays (out inn : Frame) : delays (FrameEvent.frame out inn).events = [] := by
  rw [frame_events_eq]
  have : ∀ l : List Nat, delays (l.flatMap fun j => bitEvents (out.getLsbD (15 - j)) (inn.getLsbD (15 - j))) = [] := by
    intro l
    induction l with
    | nil => rfl
    | cons j l ih => rw [List.flatMap_cons, delays_append, ih]; simp [bitEvents, delays]
  exact this _

theorem lineEvents_halfPeriods (s : State) (acts : List LineAct) (off : Nat) :
    halfPeriods ((lineEvents s off acts).flatMap FrameEvent.events) = actPeriods acts := by
  induction acts generalizing off with
  | nil => rfl
  | cons a acts ih =>
    cases a <;> simp only [lineEvents, List.flatMap_cons, halfPeriods_append, ih, actPeriods, List.map_cons, List.sum_cons,
      frame_halfPeriods] <;> rfl

theorem lineEvents_delays (s : State) (acts : List LineAct) (off : Nat) :
    delays ((lineEvents s off acts).flatMap FrameEvent.events) = actDelays acts := by
  induction acts generalizing off with
  | nil => rfl
  | cons a acts ih =>
    cases a <;> simp only [lineEvents, List.flatMap_cons, delays_append, ih, actDelays, List.filterMap_cons,
      frame_delays] <;> rfl

/-- What a line activity adds to the record has the activity's waits. -/
theorem Shows.halfPeriods {s t : State} {acts : List LineAct} {evs : List Event} (h : Shows s t acts)
    (e : t.trace = evs ++ s.trace) : halfPeriods evs = actPeriods acts := by
  rw [h.trace] at e
  rw [← List.append_cancel_right e, halfPeriods_reverse, lineEvents_halfPeriods]

theorem Shows.delays {s t : State} {acts : List LineAct} {evs : List Event} (h : Shows s t acts)
    (e : t.trace = evs ++ s.trace) : delays evs = (actDelays acts).reverse := by
  rw [h.trace] at e
  rw [← List.append_cancel_right e, delays_reverse, lineEvents_delays]

theorem actPeriods_append (as bs : List LineAct) : actPeriods (as ++ bs) = actPeriods as + actPeriods bs := by
  simp [actPeriods]

theorem actPeriods_sessionActs (n : Nat) (f : Nat → Frame) : actPeriods (sessionActs n f) = 32 * n + 2 := by
  have : ∀ l : List Nat, actPeriods (l.map fun j => .sent (f j)) = 32 * l.length := by
    intro l
    induction l with
    | nil => rfl
    | cons j l ih => simp only [actPeriods, List.map_cons, List.sum_cons, List.length_cons] at ih ⊢; omega
  rw [sessionActs, actPeriods_append]
  have h := this (devicesDown n)
  rw [devicesDown_length] at h
  simp only [actPeriods, List.map_cons, List.sum_cons, List.map_nil, List.sum_nil] at h ⊢
  omega

theorem actPeriods_flatMap {g : Nat → List LineAct} {k : Nat} (h : ∀ c, actPeriods (g c) = k) (l : List Nat) :
    actPeriods (l.flatMap g) = l.length * k := by
  induction l with
  | nil => simp [actPeriods]
  | cons c l ih => rw [List.flatMap_cons, actPeriods_append, ih, h, List.length_cons, Nat.succ_mul, Nat.add_comm]

theorem actDelays_append (as bs : List LineAct) : actDelays (as ++ bs) = actDelays as ++ actDelays bs := by
  simp [actDelays]

theorem actDelays_sessionActs (n : Nat) (f : Nat → Frame) : actDelays (sessionActs n f) = [] := by
  simp [sessionActs, actDelays, List.filterMap_map]

theorem actPeriods_scrollActs (s : State) : actPeriods (scrollActs s) = 256 * s.par.n + 18 := by
  rw [scrollActs, actPeriods_append, actPeriods_flatMap (fun c => actPeriods_sessionActs s.par.n _)]
  simp [columns, actPeriods]
  omega

theorem actDelays_scrollActs (s : State) : actDelays (scrollActs s) = [] := by
  rw [scrollActs, actDelays_append]
  have : ∀ l : List Nat, actDelays (l.flatMap fun c => sessionActs s.par.n fun j =>
      pack (col s.par c) (s.scrolledByte (col s.par c) (j - 1))) = [] := by
    intro l
    induction l with
    | nil => rfl
    | cons c l ih => rw [List.flatMap_cons, actDelays_append, ih, actDelays_sessionActs]; rfl
  rw [this]; rfl

end Sys2Proof.Machine
end

