-- ==== Sys2Proof/Laws/Host.lean ====
section
/-! SUPPORT. Laws/Host.lean: which input lands, the bits of STATUS, and a host write that is dropped (R25 to R29). -/

namespace Sys2Proof.Machine
open Sys2Proof

/-- While a command runs, no input lands if none is to come or the next one waits for the command. -/
theorem nextArrival_busy {s : State} (h : s.inbox = [] ∨ ∃ a rest, s.inbox = a :: rest ∧ a.during = none)
    (hb : s.busy = true) : s.nextArrival = none := by
  unfold State.nextArrival
  rcases h with h | ⟨a, rest, h, hd⟩
  · rw [h]
  · simp [h, hd, hb, State.putsOff]

theorem carryOver_none {s : State} (h : s.inbox = [] ∨ ∃ a rest, s.inbox = a :: rest ∧ a.during = none) :
    s.carryOver = s := by
  unfold State.carryOver
  rcases h with h | ⟨⟨a, d⟩, rest, h, rfl⟩ <;> rw [h]

/-- A step in which no input is due for the running command is the controller's own transition. -/
theorem step_undisturbed {s : State} (h : s.inbox = [] ∨ ∃ a rest, s.inbox = a :: rest ∧ a.during = none)
    (hb : s.busy = true) : step s = advance s := by
  rw [step, nextArrival_busy h hb]
  exact congrArg advance (carryOver_none h)

theorem nextArrival_lands {s : State} {a : Arrival} {rest : List Arrival} (h : s.inbox = a :: rest)
    (hb : s.LandsNow a.during) : s.nextArrival = some (a, rest) := by
  unfold State.nextArrival
  rcases hb with hb | ⟨d, hd, hf⟩
  · simp [h, hb]
  · simp [h, hd, hf, State.putsOff]

theorem step_lands {s : State} {a : Arrival} {rest : List Arrival} (h : s.inbox = a :: rest)
    (hb : s.LandsNow a.during) :
    step s = .next (land a.input (a.during.getD 0) { s with inbox := rest }) := by
  rw [step, nextArrival_lands h hb]

/-- Taking a transition before an arrival changes nothing but the arrival's distance. -/
theorem carryOver_eq (s : State) : s.carryOver = { s with inbox := s.carryOver.inbox } := by
  unfold State.carryOver; split <;> rfl

/-- A step in which an arrival falls later: the transition is taken, and the arrival is due that many events sooner. -/
theorem step_putsOff {s : State} {a : Input} {d : Nat} {rest : List Arrival} (h : s.inbox = ⟨a, some d⟩ :: rest)
    (hb : s.busy = true) (hf : s.fallsLater d = true) :
    step s = advance { s with inbox := ⟨a, some (s.elapsed + d - s.coming.length)⟩ :: rest } := by
  have hn : s.nextArrival = none := by
    unfold State.nextArrival
    simp [h, hb, hf, State.putsOff]
  rw [step, hn]
  simp only [State.carryOver, h]

theorem progressTo_eq (k : Nat) (s : State) : s.progressTo k = { s with activity := (s.progressTo k).activity } := by
  unfold State.progressTo; split <;> rfl

theorem progressTo_busy (k : Nat) (s : State) : (s.progressTo k).busy = s.busy := by
  unfold State.progressTo State.busy
  cases h : s.activity <;> simp [h]

theorem progressTo_idle {s : State} (h : s.activity = .idle) (k : Nat) : s.progressTo k = s := by
  unfold State.progressTo; rw [h]

theorem elapsed_counting {s : State} {c : Word} {k : Nat} (h : s.activity = .counting c k) : s.elapsed = k := by
  rw [State.elapsed, h]

/-- How far the host has seen the command come has no part in what the command does. -/
theorem advance_progressTo {s : State} (hb : s.busy = true) (k : Nat) : advance (s.progressTo k) = advance s := by
  unfold advance State.progressTo
  cases ha : s.activity
  case idle => simp [ha, State.busy] at hb
  all_goals simp [State.retire]

/-- The state the COUNT_DEVICES command starts its loop in. -/
def countStart (s : State) : State := (exchange (pack 0 Config.sentinel) (openLine s)).2

theorem withInbox_countStart (b : List Arrival) (s : State) :
    countStart (withInbox b s) = withInbox b (countStart s) := by
  have e : openLine (withInbox b s) = withInbox b (openLine s) := rfl
  rw [countStart, countStart, e, withInbox_exchange]

/-- A transition after which the command goes on is one of COUNT_DEVICES: whatever inputs are to come it is the same, it
leaves the loop running, and it has events (R107, R108(c)). -/
theorem advance_goesOn {s : State} (hs : s.busy = true) (hu : s.undisturbed.busy = true) :
    (∀ b, advance (withInbox b s) = .next (withInbox b s.undisturbed)) ∧
      (∃ m, s.undisturbed.activity = .counting m 0) ∧ s.trace.length < s.undisturbed.trace.length := by
  obtain ⟨c, v, hv, ht, he⟩ : ∃ (c : Word) (v : State), v.activity = .idle ∧ s.trace.length ≤ v.trace.length ∧
      ∀ b, advance (withInbox b s) = .next (countLoop Config.countBudget c (withInbox b v)) := by
    have e := advance_undisturbed s
    cases ha : s.activity with
    | idle => simp [State.busy, ha] at hs
    | counting n k =>
      refine ⟨n, s.retire, rfl, le_refl _, fun b => ?_⟩
      rw [advance, show (withInbox b s).activity = .counting n k from ha]; rfl
    | accepted w k =>
      simp only [advance, ha, runWord] at e
      cases hd : decode s.retire.par.n w with
      | error x =>
        rw [hd] at e
        rw [← Host.Outcome.next.inj e] at hu
        cases hu
      | ok i =>
        rw [hd] at e
        by_cases hi : i = .countDevices
        · subst hi
          refine ⟨0, countStart s.retire, ?_, ?_, fun b => ?_⟩
          · rw [countStart, exchange_eq]; rfl
          · exact (exchange_trace_lt (pack 0 Config.sentinel) (openLine s.retire)).le.trans' (Nat.le_succ _)
          · rw [advance, show (withInbox b s).activity = .accepted w k from ha]
            simp only [runWord, show (withInbox b s).retire = withInbox b s.retire from rfl,
              show (withInbox b s.retire).par = s.retire.par from rfl, hd]
            exact congrArg (fun v => Host.Outcome.next (countLoop Config.countBudget 0 v)) (withInbox_countStart ..)
        · have := exec_activity hi e
          simp [State.busy, this, State.retire] at hu
  have h0 := he s.inbox
  rw [show withInbox s.inbox s = s from rfl, advance_undisturbed, withInbox_countLoop] at h0
  have h0 := Host.Outcome.next.inj h0
  refine ⟨fun b => ?_, ?_, ?_⟩
  · rw [he, withInbox_countLoop, h0]; rfl
  · rw [h0] at hu
    rw [h0]
    change (countLoop Config.countBudget c v).busy = true at hu
    change ∃ m, (countLoop Config.countBudget c v).activity = .counting m 0
    rcases countLoop_activity Config.countBudget c v with h | h
    · simp [State.busy, h, hv] at hu
    · exact h
  · rw [h0]
    exact ht.trans_lt (countLoop_trace_lt 255 c v)

/-- A step of a COUNT_DEVICES that goes on with its loop, no input landing in it. -/
theorem step_counting {s : State} {c : Word} {k : Nat} (ha : s.activity = .counting c k) (hu : s.Undisturbed) :
    ∃ b, step s = .next (withInbox b (countLoop Config.countBudget c s.retire)) := by
  refine ⟨s.carryOver.inbox, ?_⟩
  have hc : s.carryOver = withInbox s.carryOver.inbox s := carryOver_eq s
  rw [step, show s.nextArrival = none from hu]
  show advance s.carryOver = _
  rw [advance, show s.carryOver.activity = .counting c k by rw [hc]; exact ha, ← withInbox_countLoop]
  conv_lhs => rw [hc]
  rfl

/-! What a host read sees while a command runs. -/

theorem visibleAt_activity (s : State) (k : Nat) : (s.visibleAt k).activity = s.activity := rfl

theorem visibleAt_busy (s : State) (k : Nat) : (s.visibleAt k).busy = s.busy := rfl

theorem visibleAt_ovr (s : State) (k : Nat) : (s.visibleAt k).ovr = s.ovr := rfl

theorem visibleAt_ill (s : State) (k : Nat) : (s.visibleAt k).ill = s.ill := rfl

theorem visibleAt_arg (s : State) (k : Nat) : (s.visibleAt k).arg = s.arg := rfl

theorem visibleAt_result (s : State) (k : Nat) :
    (s.visibleAt k).result = s.result ∨ (s.visibleAt k).result = s.undisturbed.result := by
  unfold State.visibleAt
  split
  · exact .inr rfl
  · exact .inl rfl

theorem overrun_advance {s u : State} (hb : s.busy = true) (h : advance s = .next u) :
    advance (overrun s) = .next (overrun u) := by
  unfold advance at h ⊢
  cases ha : s.activity with
  | idle => simp [State.busy, ha] at hb
  | accepted w k =>
    rw [ha] at h
    rw [show (overrun s).activity = .accepted w k from ha]
    simp only [runWord, show s.retire.par = s.par from rfl, show (overrun s).retire.par = s.par from rfl] at h ⊢
    cases hd : decode s.par.n w with
    | error e => rw [hd] at h; obtain rfl := Host.Outcome.next.inj h; rfl
    | ok i => rw [hd] at h; exact overrun_exec i _ _ h
  | counting n k =>
    rw [ha] at h
    rw [show (overrun s).activity = .counting n k from ha]
    obtain rfl := Host.Outcome.next.inj h
    exact congrArg _ (overrun_countLoop _ _ s.retire)

theorem ofBool_shift_getLsbD (b : Bool) (k : Nat) (hk : k < 32) (j : Nat) :
    ((BitVec.ofBool b).setWidth 32 <<< k).getLsbD j = (decide (j = k) && b) := by
  rw [BitVec.getLsbD_shiftLeft, BitVec.getLsbD_setWidth, BitVec.getLsbD_ofBool]
  by_cases h : j = k
  · subst h; simp [hk]
  · rcases Nat.lt_or_ge j k with h' | h'
    · simp [h, h']
    · simp [h, show j - k ≠ 0 by omega]

/-- The bits of STATUS: BUSY, EN, ILL, OVR, and zeros above (R28). -/
theorem statusWord_getLsbD (s : State) (j : Nat) : s.statusWord.getLsbD j =
    if j = 0 then s.busy else if j = 1 then s.en else if j = 2 then s.ill else if j = 3 then s.ovr else false := by
  have h0 := ofBool_shift_getLsbD s.busy 0 (by omega) j
  rw [BitVec.shiftLeft_zero] at h0
  simp only [State.statusWord, BitVec.getLsbD_or, h0, ofBool_shift_getLsbD _ 1 (by omega),
    ofBool_shift_getLsbD _ 2 (by omega), ofBool_shift_getLsbD _ 3 (by omega)]
  by_cases e0 : j = 0
  · subst e0; simp
  by_cases e1 : j = 1
  · subst e1; simp
  by_cases e2 : j = 2
  · subst e2; simp
  by_cases e3 : j = 3
  · subst e3; simp
  simp [e0, e1, e2, e3]

end Sys2Proof.Machine
end

