-- ==== Sys2Proof/Laws/PerInstr.lean ====
section
/-! SUPPORT. Laws/PerInstr.lean: the family EncodedRow: the word of every command finds its row in the opcode map and has that
row's must-be-zero bits zero (R62, R64, R65). -/

namespace Sys2Proof.Laws.EncodedRow
open Sys2Proof

/-- The opcode of the command's word has a row, and the word matches the row's mask. -/
def Statement (i : Instr) : Prop :=
  ∃ r, opTable.find? (fun r => r.op == opField (encode i)) = some r ∧ encode i &&& r.fmt.mask = matchWord r.op

theorem of_cmdWord {op : BitVec 6} {s : Byte} {h k : Bool} {a d : Byte} {i : Instr} (r : Row)
    (e : encode i = cmdWord op s h k a d) (f : opTable.find? (fun r => r.op == op) = some r)
    (m : cmdWord op s h k a d &&& r.fmt.mask = matchWord r.op) : Statement i :=
  ⟨r, by rw [e, opField_cmdWord]; exact f, by rw [e]; exact m⟩

theorem of_frameWord {op : BitVec 6} {s : Byte} {g : Frame} {i : Instr} (r : Row)
    (e : encode i = frameWord op s g) (f : opTable.find? (fun r => r.op == op) = some r)
    (m : frameWord op s g &&& r.fmt.mask = matchWord r.op) : Statement i :=
  ⟨r, by rw [e, opField_frameWord]; exact f, by rw [e]; exact m⟩

theorem nop : Statement .nop :=
  of_cmdWord _ rfl rfl (mask_N _)
theorem sessionOpen : Statement .sessionOpen :=
  of_cmdWord _ rfl rfl (mask_N _)
theorem sessionSend (frm : Frame) : Statement (.sessionSend frm) :=
  of_frameWord _ rfl rfl (mask_F _ _)
theorem sessionClose : Statement .sessionClose :=
  of_cmdWord _ rfl rfl (mask_N _)
theorem countDevices : Statement .countDevices :=
  of_cmdWord _ rfl rfl (mask_N _)
theorem rawExchange (frm : Frame) : Statement (.rawExchange frm) :=
  of_frameWord _ rfl rfl (mask_F _ _)
theorem rawClose : Statement .rawClose :=
  of_cmdWord _ rfl rfl (mask_N _)
theorem chipSetPending (scr : Byte) (frm : Frame) : Statement (.chipSetPending scr frm) :=
  of_frameWord _ rfl rfl (mask_SF _ _ _)
theorem getPending (scr : Byte) : Statement (.getPending scr) :=
  of_cmdWord _ rfl rfl (mask_S _ _)
theorem chipLatch (scr : Byte) : Statement (.chipLatch scr) :=
  of_cmdWord _ rfl rfl (mask_S _ _)
theorem getLatched (scr : Byte) (adr : Byte) : Statement (.getLatched scr adr) :=
  of_cmdWord _ rfl rfl (mask_SA _ _ _)
theorem setRegister (scr : Byte) (adr : Byte) (dat : Byte) : Statement (.setRegister scr adr dat) :=
  of_cmdWord _ rfl rfl (mask_SAD _ _ _ _)
theorem resetRegisters : Statement .resetRegisters :=
  of_cmdWord _ rfl rfl (mask_N _)
theorem setLed (scr : Byte) (coord : Bool) (adr : Byte) (dat : Byte) : Statement (.setLed scr coord adr dat) :=
  of_cmdWord _ rfl rfl (mask_SKAD _ _ _ _ _)
theorem resetLedAt (scr : Byte) (adr : Byte) (dat : Byte) : Statement (.resetLedAt scr adr dat) :=
  of_cmdWord _ rfl rfl (mask_SAD _ _ _ _)
theorem setRow (scr : Byte) (dat : Byte) : Statement (.setRow scr dat) :=
  of_cmdWord _ rfl rfl (mask_SD _ _ _)
theorem loadGlyph (scr : Byte) (half : Bool) : Statement (.loadGlyph scr half) :=
  of_cmdWord _ rfl rfl (mask_SH _ _ _)
theorem setLetter (scr : Byte) (dat : Byte) : Statement (.setLetter scr dat) :=
  of_cmdWord _ rfl rfl (mask_SD _ _ _)
theorem setWord (dat : Byte) : Statement (.setWord dat) :=
  of_cmdWord _ rfl rfl (mask_D _ _)
theorem cycleSteps : Statement .cycleSteps :=
  of_cmdWord _ rfl rfl (mask_N _)
theorem cycleSet : Statement .cycleSet :=
  of_cmdWord _ rfl rfl (mask_N _)
theorem setCycle (wrap : Bool) : Statement (.setCycle wrap) :=
  of_cmdWord _ rfl rfl (mask_W _ _)
theorem getCycle : Statement .getCycle :=
  of_cmdWord _ rfl rfl (mask_N _)
theorem setCycleDelay : Statement .setCycleDelay :=
  of_cmdWord _ rfl rfl (mask_N _)
theorem getCycleDelay : Statement .getCycleDelay :=
  of_cmdWord _ rfl rfl (mask_N _)

end Sys2Proof.Laws.EncodedRow
end

