-- ==== Sys2Proof/Tests/Slice0.lean ====
section
/-! SUPPORT. Tests/Slice0.lean: the spec's own vectors (95_test_vectors.md, named in each comment; 30_encoding.md R69), one step
each on a small state. -/

namespace Sys2Proof.Tests
open Sys2Proof Sys2Proof.Machine

-- One theorem after the other: evaluated side by side they ask for more threads than a check has room for.
set_option Elab.async false

/-! ### Decoding: words of the spec, one per command -/

theorem test_decode_nop : decodeWord 0x00000000 = .ok .nop := by decide +kernel
theorem test_decode_sessionOpen : decodeWord 0x04000000 = .ok .sessionOpen := by decide +kernel
theorem test_decode_sessionSend : decodeWord 0x08000F08 = .ok (.sessionSend 0x0F08) := by decide +kernel
theorem test_decode_sessionClose : decodeWord 0x0C000000 = .ok .sessionClose := by decide +kernel
theorem test_decode_countDevices : decodeWord 0x10000000 = .ok .countDevices := by decide +kernel
theorem test_decode_rawExchange : decodeWord 0x14001234 = .ok (.rawExchange 0x1234) := by decide +kernel
theorem test_decode_rawClose : decodeWord 0x18000000 = .ok .rawClose := by decide +kernel
theorem test_decode_chipSetPending : decodeWord 0x20080A05 = .ok (.chipSetPending 2 0x0A05) := by decide +kernel
theorem test_decode_getPending : decodeWord 0x24080000 = .ok (.getPending 2) := by decide +kernel
theorem test_decode_chipLatch : decodeWord 0x28040000 = .ok (.chipLatch 1) := by decide +kernel
theorem test_decode_getLatched : decodeWord 0x2C100C00 = .ok (.getLatched 4 0x0C) := by decide +kernel
theorem test_decode_setRegister : decodeWord 0x4008035A = .ok (.setRegister 2 0x03 0x5A) := by decide +kernel
theorem test_decode_resetRegisters : decodeWord 0x44000000 = .ok .resetRegisters := by decide +kernel
theorem test_decode_setLed : decodeWord 0x60090304 = .ok (.setLed 2 true 3 4) := by decide +kernel
theorem test_decode_resetLedAt : decodeWord 0x64080304 = .ok (.resetLedAt 2 3 4) := by decide +kernel
theorem test_decode_setRow : decodeWord 0x680400A5 = .ok (.setRow 1 0xA5) := by decide +kernel
theorem test_decode_loadGlyph : decodeWord 0x6C060000 = .ok (.loadGlyph 1 true) := by decide +kernel
theorem test_decode_setLetter : decodeWord 0x70040001 = .ok (.setLetter 1 1) := by decide +kernel
theorem test_decode_setWord : decodeWord 0x74000003 = .ok (.setWord 3) := by decide +kernel
theorem test_decode_cycleSteps : decodeWord 0x80000000 = .ok .cycleSteps := by decide +kernel
theorem test_decode_cycleSet : decodeWord 0x84000000 = .ok .cycleSet := by decide +kernel
theorem test_decode_setCycle : decodeWord 0x88000001 = .ok (.setCycle true) := by decide +kernel
theorem test_decode_getCycle : decodeWord 0x8C000000 = .ok .getCycle := by decide +kernel
theorem test_decode_setCycleDelay : decodeWord 0x90000000 = .ok .setCycleDelay := by decide +kernel
theorem test_decode_getCycleDelay : decodeWord 0x94000000 = .ok .getCycleDelay := by decide +kernel

/-- 2.1: the illegal words of the spec, N = 2. -/
theorem test_decode_illegal :
    decode 2 0x1C000000 = .error .unassignedOp ∧ decode 2 0xFC000000 = .error .unassignedOp ∧
    decode 2 0x00000001 = .error .mustBeZero ∧ decode 2 0x0C000001 = .error .mustBeZero ∧
    decode 2 0x2C080301 = .error .mustBeZero ∧ decode 2 0x600A0304 = .error .mustBeZero ∧
    decode 2 0x44000100 = .error .mustBeZero ∧ decode 2 0x74000100 = .error .mustBeZero ∧
    decode 2 0x88000002 = .error .mustBeZero ∧
    decode 2 0x6C080000 = .error .glyphSlot ∧ decode 2 0x70040002 = .error .glyphSlot := by decide +kernel

/-- 2.1: legal although S is out of range. -/
theorem test_decode_screen_out_of_range : decode 2 0x40FC0000 = .ok (.setRegister 63 0 0) := by decide +kernel

/-- WellFormed: the two slot checks refuse. -/
theorem test_wf_loadGlyph : (Instr.loadGlyph 2 true).wf 2 = false := by decide
theorem test_wf_setLetter : (Instr.setLetter 1 2).wf 2 = false := by decide

theorem test_decodeTableWord : decodeTableWord 32 0x4008035A = some (.setRegister 2 0x03 0x5A) := by decide +kernel

/-- S1. -/
theorem test_pack : pack 15 8 = 0x0F08 ∧ pack 32 0 = 0x2000 ∧ pack 34 99 = 0x2263 ∧ pack 0 1 = 0x0001 := by decide

/-- R67: assembler syntax. -/
theorem test_asm : asm (.setLed 2 true 3 4) = "SET_LED 2, 3, 4, 1" := by decide +kernel

/-! ### Helpers -/

/-- The reset state with `n` devices. -/
def fresh (n : Nat) : State := State.resetWith (Params.withDevices n)

/-- The state a command leaves. -/
def after (i : Instr) (s : State) : State :=
  match exec i s with
  | .next t => t
  | .fault _ => s
  | .refused _ => s

/-- The state a step leaves. -/
def stepped (s : State) : State :=
  match step s with
  | .next t => t
  | .fault _ => s
  | .refused _ => s

/-- LAT[i][a] set to a frame, for a start state. -/
def withLat (i : Nat) (f : Frame) (s : State) : State := { s with lat := s.lat.modify i (latchInto f) }

/-- The column registers 1..8 of a chip. -/
def columnsOf (i : Nat) (s : State) : List Frame := columns.map fun c => s.latched i (BitVec.ofNat 8 c)

/-- The sixteen bits of a frame as DIN samples. -/
def din (fs : List Frame) (s : State) : State := { s with dinIn := fs.flatMap wireBits }

/-! ### Transport and session -/

/-- TR1. -/
theorem test_sessionOpen : (after .sessionOpen (fresh 1)).statusWord = 2 ∧
    (after .sessionOpen (fresh 1)).trace = [.pin .loadN false] := by decide +kernel

/-- TR2. -/
theorem test_sessionSend : let t := after (.sessionSend 0x0F08) (din [0] (after .sessionOpen (fresh 1)))
    t.pend = [0x0F08] ∧ t.result = 0 ∧ t.clk = false ∧ t.dout = false ∧ t.trace.length = 97 ∧ halfPeriods t.trace = 32 := by
  decide +kernel

/-- TR4, TR5. -/
theorem test_sessionSend_bits : (after (.sessionSend 0) (din [0xAAAA] (fresh 1))).result = 0x0000AAAA ∧
    (after (.sessionSend 0) (din [1] (fresh 1))).result = 1 := by decide +kernel

/-- TR3. -/
theorem test_sessionClose : let t := after .sessionClose (after (.sessionSend 0x0F08) (after .sessionOpen (fresh 1)))
    t.en = false ∧ t.latched 0 15 = 0x0F08 ∧ t.trace.take 3 = [.waitHalf, .pin .loadN true, .waitHalf] := by decide +kernel

/-- TR9. -/
theorem test_sessionClose_two : let t := after .sessionClose { fresh 2 with pend := [0x0C01, 0x0A0F] }
    t.latched 0 0x0C = 0x0C01 ∧ t.latched 1 0x0A = 0x0A0F ∧ t.pend = [0x0C01, 0x0A0F] := by decide +kernel

/-- TR10. -/
theorem test_rawExchange : let t := after (.rawExchange 0x1234) (din [0xFFFF] (fresh 2))
    t.result = 0x0000FFFF ∧ t.pend = [0, 0] := by decide +kernel

/-- TR11. -/
theorem test_rawClose : let t := after .rawClose (after (.sessionSend 0x0C01) (after .sessionOpen (fresh 2)))
    t.en = false ∧ t.loadN = true ∧ t.latched 0 0x0C = 0 := by decide +kernel

/-- TR14, TR16: the chain's answers to the sentinel and the dummies. -/
theorem test_countDevices :
    let t := after .countDevices { fresh 2 with dinIn := chainDin [0, 0] [0x00FF, 0, 0] }
    t.result = 2 ∧ t.en = false ∧ halfPeriods t.trace = 98 ∧
    (after .countDevices { fresh 2 with dinIn := chainDin [0x01FF, 0] [0x00FF, 0] }).result = 1 := by decide +kernel

/-- TR17: the sentinel exchange's own return is not tested. -/
theorem test_countDevices_stale :
    (after .countDevices { fresh 2 with dinIn := chainDin [0, 0x01FF] [0x00FF, 0, 0] }).result = 2 := by decide +kernel

/-! ### Chip registers -/

/-- CH1, CH4, CH5. -/
theorem test_chipSetPending : (after (.chipSetPending 2 0x0A05) (fresh 2)).pend = [0, 0x0A05] ∧
    (after (.chipSetPending 0 0x0101) (fresh 2)).pend = [0x0101, 0] ∧
    (after (.chipSetPending 9 0x0202) (fresh 2)).pend = [0x0202, 0] := by decide +kernel

/-- CH3. -/
theorem test_getPending : (after (.getPending 2) { fresh 2 with pend := [0, 0x0A05] }).result = 0x0A05 := by decide +kernel

/-- CH7, CH8, CH10. -/
theorem test_chipLatch : (after (.chipLatch 1) { fresh 2 with pend := [0x1001, 0] }).lat = (fresh 2).lat ∧
    (after (.chipLatch 1) { fresh 2 with pend := [0x0F33, 0] }).latched 0 15 = 0x0F33 ∧
    (after (.chipLatch 1) { fresh 2 with pend := [0x0005, 0] }).latched 0 0 = 5 := by decide +kernel

/-- CH6, CH9. -/
theorem test_getLatched : (after (.getLatched 7 5) (withLat 0 0x0555 (fresh 2))).result = 0x0555 ∧
    (after (.getLatched 1 0xFF) (withLat 0 0x0F55 (fresh 2))).result = 0 := by decide +kernel

/-! ### Chain writes -/

/-- CW1. -/
theorem test_setRegister : let t := after (.setRegister 2 0x03 0x5A) (fresh 4)
    t.latched 1 3 = 0x035A ∧ t.pend = [0, 0x035A, 0, 0] ∧ halfPeriods t.trace = 130 := by decide +kernel

/-- CW4, CW5. -/
theorem test_setRegister_corners :
    (after (.setRegister 3 1 1) (withLat 1 0x0005 (fresh 2))).latched 1 0 = 0 ∧
    (after (.setRegister 1 0x20 0x11) (fresh 2)).pend = [0x2011, 0] := by decide +kernel

/-- CW7. -/
theorem test_resetRegisters : let t := after .resetRegisters { fresh 1 with pend := [0x0777] }
    (List.range 16).map (fun a => t.latched 0 (BitVec.ofNat 8 a)) =
      [0, 0x0100, 0x0200, 0x0300, 0x0400, 0x0500, 0x0600, 0x0700, 0x0800, 0x0900, 0x0A0F, 0x0B07, 0x0C01, 0x0D00, 0x0E00,
        0x0F00] ∧ t.pend = [0] := by decide +kernel

/-! ### Pixels -/

/-- S8. -/
theorem test_setLed : (after (.setLed 2 true 3 4) (withLat 1 0x03A1 (fresh 2))).latched 1 3 = 0x03A9 ∧
    (after (.setLed 1 false 8 0x80) (fresh 2)).latched 0 8 = 0x0880 := by decide +kernel

/-- PX2, PX3, PX12. -/
theorem test_setLed_corners : after (.setLed 1 false 9 0x55) (fresh 2) = fresh 2 ∧
    after (.setLed 1 true 2 9) (fresh 2) = fresh 2 ∧
    (after (.setLed 3 false 1 0xFF) (withLat 0 5 (fresh 2))).latched 0 0 = 0 := by decide +kernel

/-- S8, PX8. -/
theorem test_resetLedAt : (after (.resetLedAt 2 3 4) (withLat 1 0x03A9 (fresh 2))).latched 1 3 = 0x03A1 ∧
    (after (.resetLedAt 1 2 9) (withLat 0 0x023C (fresh 2))).latched 0 2 = 0x0200 := by decide +kernel

/-- PX14. -/
theorem test_setRow : columnsOf 0 (after (.setRow 1 0xA5) (fresh 1)) =
    [0x0101, 0x0200, 0x0301, 0x0400, 0x0500, 0x0601, 0x0700, 0x0801] := by decide +kernel

/-! ### Glyphs -/

/-- GL1, GL3: the second half of the "L". -/
theorem test_loadGlyph : (after (.loadGlyph 0 true) { fresh 1 with arg := 0xFF010101, glyph := [0x01010101] }).glyph =
    [0xFF01010101010101] := by decide +kernel

/-- GL3. -/
theorem test_setLetter : columnsOf 0 (after (.setLetter 1 0) { fresh 1 with glyph := [0xFF01010101010101] }) =
    [0x01FF, 0x0280, 0x0380, 0x0480, 0x0580, 0x0680, 0x0780, 0x0880] := by decide +kernel

/-- GL10. -/
theorem test_setWord : let t := after (.setWord 2) { fresh 3 with glyph := [1, 2, 4] }
    t.latched 0 2 = 0x0201 ∧ t.latched 1 1 = 0x0101 ∧ columnsOf 2 t = [0, 0, 0, 0, 0, 0, 0, 0] := by decide +kernel

/-! ### Scrolling and configuration -/

/-- SC3, SC6. -/
theorem test_cycleSteps :
    (let t := after .cycleSteps { withLat 0 0x0180 (withLat 1 0x0101 (fresh 2)) with arg := 1 }
     (t.latched 0 1, t.latched 1 1) = (0x0100, 0x0103)) ∧
    (let t := after .cycleSteps { withLat 1 0x0180 (fresh 2) with arg := 1, wrap := false }
     (t.latched 0 1, t.latched 1 1) = (0x0100, 0x0100)) := by decide +kernel

/-- SC9: two waits between three steps. -/
theorem test_cycleSteps_waits : delays (after .cycleSteps { fresh 2 with arg := 3 }).trace = [50, 50] := by decide +kernel

/-- SC7, for one device. -/
theorem test_cycleSet : columnsOf 0 (after .cycleSet (withLat 0 0x05A5 (fresh 1))) =
    [0x0100, 0x0200, 0x0300, 0x0400, 0x05A5, 0x0600, 0x0700, 0x0800] := by decide +kernel

/-- CF2. -/
theorem test_setCycle : (after (.setCycle false) (fresh 1)).wrap = false := by decide +kernel
theorem test_getCycle : (after .getCycle (fresh 1)).result = 1 := by decide +kernel

/-- S7, CF5. -/
theorem test_setCycleDelay : (after .setCycleDelay { fresh 1 with arg := 0xFFFFFF6A }).cycleDelay = 0 ∧
    (after .setCycleDelay { fresh 1 with arg := 150 }).cycleDelay = 150 ∧
    (after .setCycleDelay { fresh 1 with arg := 0x80000000 }).cycleDelay = 0 := by decide +kernel
theorem test_getCycleDelay : (after .getCycleDelay (fresh 1)).result = 50 := by decide +kernel

/-! ### Host interface, illegal words, reset -/

/-- HI8, through the inbox: accepted, run, then read. -/
theorem test_host_open_then_status : (stepped (stepped (stepped { fresh 1 with
    inbox := politely [issue .sessionOpen, rstat] }))).returned = [(.status, 2)] := by decide +kernel

/-- HI4, HI6: a CMD write during a command is dropped and sets OVR, and the command completes. -/
theorem test_host_overrun : let t := stepped (stepped (stepped { fresh 1 with
      inbox := [⟨issue (.setCycle false), none⟩, ⟨.write .cmd 0x1C000000, some 0⟩] }))
    t.wrap = false ∧ t.ovr = true ∧ t.ill = false ∧ t.busy = false := by decide +kernel

/-- HI3, HI7: an illegal word sets ILL, and a STATUS write clears it. -/
theorem test_host_illegal : let t := stepped (stepped { fresh 1 with inbox := politely [.write .cmd 0x1C000000, wstat 4] })
    t.statusWord = 4 ∧ (stepped t).statusWord = 0 := by decide +kernel

/-- RS2: a reset after three events of a SET_REGISTER: the line was open, and the record shows it. -/
theorem test_reset_during_command : let t := stepped (stepped { fresh 1 with
      inbox := [⟨issue (.setRegister 1 1 1), none⟩, ⟨.reset, some 3⟩] })
    t.lat = (fresh 1).lat ∧ t.busy = false ∧ t.en = false ∧
    t.trace = [.reset, .waitHalf, .pin .dout false, .pin .loadN false] := by decide +kernel

theorem test_withFetchWord : (stepped (State.reset.withFetchWord 32 0x4008035A)).latched 1 3 = 0x035A := by decide +kernel

/-! ### Witnesses: for every statement with hypotheses, a state and operands that meet them all. The name after `met_` is the
statement's. States are built from the reset state of `n` devices. -/

/-- The reset state with `n` devices and the given activity, ARG, coming inputs and DIN samples. -/
def start (n : Nat) (a : Activity) (arg : Word) (inbox : List Arrival) (samples : List Bool) : State :=
  { fresh n with activity := a, arg := arg, inbox := inbox, dinIn := samples }

theorem legal_withDevices {n : Nat} (h1 : 1 ≤ n) (h2 : n ≤ 255) : (Params.withDevices n).Legal := by
  refine ⟨⟨h1, h2⟩, ?_, ?_⟩
  · show [1, 2, 3, 4, 5, 6, 7, 8, 0x09, 0x0A, 0x0B, 0x0C, (0x0F : Byte)].Nodup
    decide
  · show ∀ a ∈ [1, 2, 3, 4, 5, 6, 7, 8, 0x09, 0x0A, 0x0B, 0x0C, (0x0F : Byte)], 1 ≤ a.toNat ∧ a.toNat ≤ 15
    decide

theorem start_inv {n : Nat} (h1 : 1 ≤ n) (h2 : n ≤ 255) {a : Activity} (ha : ∀ c k, a ≠ .counting c k) (arg : Word)
    (inbox : List Arrival) (samples : List Bool) : (start n a arg inbox samples).Inv where
  legal := legal_withDevices h1 h2
  latCount := by simp [start, fresh, State.resetWith]
  pendCount := by simp [start, fresh, State.resetWith]
  glyphCount := by simp [start, fresh, State.resetWith]
  latTag i b := .inl (resetWith_latched _ i b)
  loadN := rfl
  clkLow := rfl
  delayRange := by show (50#32).toNat < 2 ^ 31; decide
  countOpen c k h := absurd h (ha c k)

theorem idle_inv {n : Nat} (h1 : 1 ≤ n) (h2 : n ≤ 255) (arg : Word) (samples : List Bool) :
    (start n .idle arg [] samples).Inv := start_inv h1 h2 (by intro c k h; cases h) arg [] samples

/-- The smallest and the largest legal block. -/
theorem met_InvariantAtReset : (Params.withDevices 1).Legal ∧ (Params.withDevices 255).Legal :=
  ⟨legal_withDevices (by omega) (by omega), legal_withDevices (by omega) (by omega)⟩

theorem met_DecodeOfEncode : (Instr.loadGlyph 254 true).wf 255 = true ∧ (Instr.setLetter 255 0).wf 1 = true := by decide

theorem met_EncodeOfDecode : decode 2 0x6C040000 = .ok (.loadGlyph 1 false) := by decide +kernel

/-- The boundary OP values of each reserved range, and a row with a must-be-zero bit set. -/
theorem met_ReservedWordsAreIllegal :
    ([(0x1C000000 : Word), 0x30000000, 0x3C000000, 0x48000000, 0x5C000000, 0x78000000, 0x7C000000, 0x98000000,
      0xFC000000].all fun w => (w.extractLsb' 26 6).toNat ∈
        [0x07] ++ List.range' 0x0C 4 ++ List.range' 0x12 6 ++ [0x1E, 0x1F] ++ List.range' 0x26 26) = true ∧
    ((0x18, (0xFC020000 : Word)) ∈ specRows ∧ ((0x600A0304 : Word).extractLsb' 26 6).toNat = 0x18 ∧
      (0x600A0304 : Word) &&& 0xFC020000 ≠ BitVec.ofNat 32 0x18 <<< 26) ∧
    (3 : Byte).toNat < 4 := by decide +kernel

/-- A running command with a reset to come. -/
theorem met_StepKeepsInvariant_and_PinDiscipline :
    let s := start 2 (.accepted 0x4008035A 0) 0 [⟨.reset, some 5⟩] []
    s.Inv ∧ s.WireOk ∧ ∃ t, step s = .next t :=
  ⟨start_inv (by omega) (by omega) (by intro c k h; cases h) _ _ _, rfl, _, rfl⟩

theorem met_StepRunsDecodedCommand :
    let s := start 2 (.accepted 0x4008035A 0) 0 [⟨.read .status, none⟩] []
    s.activity = .accepted 0x4008035A 0 ∧ (∃ a rest, s.inbox = a :: rest ∧ a.during = none) ∧
      decode s.par.n 0x4008035A = .ok (.setRegister 2 0x03 0x5A) :=
  ⟨rfl, ⟨_, _, rfl, rfl⟩, by show decode 2 _ = _; decide +kernel⟩

theorem met_IllegalWordSetsIllOnly :
    let s := start 2 (.accepted 0x1C000000 0) 0 [] []
    s.activity = .accepted 0x1C000000 0 ∧ s.inbox = [] ∧ decode s.par.n 0x1C000000 = .error .unassignedOp :=
  ⟨rfl, rfl, by show decode 2 _ = _; decide +kernel⟩

theorem met_IdleWritesAreTaken :
    (start 1 .idle 0 [⟨.write .cmd 0x04000000, none⟩] []).activity = .idle ∧
    (start 1 .idle 0 [⟨.write .cmd 0x04000000, none⟩] []).inbox = [⟨.write .cmd 0x04000000, none⟩] ∧
    (start 1 .idle 0 [⟨.write .arg 7, some 3⟩] []).inbox = [⟨.write .arg 7, some 3⟩] := ⟨rfl, rfl, rfl⟩

theorem met_BusyWritesAreDropped :
    (start 1 (.accepted 0x88000000 0) 0 [⟨.write .arg 7, some 0⟩] []).busy = true ∧
    (start 1 (.accepted 0x88000000 0) 0 [⟨.write .arg 7, some 0⟩] []).inbox = [⟨.write .arg 7, some 0⟩] ∧
    (start 1 (.accepted 0x88000000 0) 0 [⟨.write .arg 7, some 0⟩] []).LandsNow (some 0) ∧
    (start 1 (.counting 5 0) 0 [⟨.write .cmd 7, some 9⟩] []).busy = true :=
  ⟨rfl, rfl, .inr ⟨0, rfl, by decide +kernel⟩, rfl⟩

/-- Idle, and during a command. -/
theorem met_StatusAndResultWrites :
    (start 1 .idle 0 [⟨.write .status 4, none⟩] []).LandsNow none ∧
    (start 1 (.accepted 0x88000000 0) 0 [⟨.write .result 4, some 0⟩] []).LandsNow (some 0) ∧
    (start 1 (.accepted 0x88000000 0) 0 [⟨.write .result 4, some 0⟩] []).inbox = [⟨.write .result 4, some 0⟩] :=
  ⟨.inl rfl, .inr ⟨0, rfl, by decide +kernel⟩, rfl⟩

theorem met_IdleReads : (start 1 .idle 0 [⟨.read .status, none⟩] []).activity = .idle ∧
    (start 1 .idle 0 [⟨.read .status, none⟩] []).inbox = [⟨.read .status, none⟩] := ⟨rfl, rfl⟩

theorem met_BusyReads : (start 1 (.accepted 0x8C000000 0) 0 [⟨.read .result, some 1⟩] []).busy = true ∧
    (start 1 (.accepted 0x8C000000 0) 0 [⟨.read .result, some 1⟩] []).LandsNow (some 1) ∧
    (start 1 (.accepted 0x8C000000 0) 0 [⟨.read .result, some 1⟩] []).inbox = [⟨.read .result, some 1⟩] :=
  ⟨rfl, .inr ⟨1, rfl, by decide +kernel⟩, rfl⟩

/-- Idle, and during the one event of a SESSION_OPEN. -/
theorem met_ResetTakesEffectAtOnce : (start 1 .idle 0 [⟨.reset, none⟩] []).LandsNow none ∧
    (start 1 (.accepted 0x04000000 0) 0 [⟨.reset, some 1⟩] []).LandsNow (some 1) ∧
    (start 1 (.accepted 0x04000000 0) 0 [⟨.reset, some 1⟩] []).inbox = [⟨.reset, some 1⟩] :=
  ⟨.inl rfl, .inr ⟨1, rfl, by decide +kernel⟩, rfl⟩

/-- R40, R108(c), R196: a reset due more events on than one transition of COUNT_DEVICES has, no sentinel returning. -/
theorem met_ArrivalsLandInTheRunningCommand :
    (start 1 (.counting 256 0) 0 [⟨.reset, some 100000⟩] []).busy = true ∧
    (start 1 (.counting 256 0) 0 [⟨.reset, some 100000⟩] []).inbox = [⟨.reset, some 100000⟩] := ⟨rfl, rfl⟩

theorem met_ParametersNeverChange_and_RecordOnlyGrows : ∃ t, step (start 1 (.accepted 0x04000000 0) 0 [] []) = .next t :=
  ⟨_, rfl⟩

/-- The invariant alone, for the smallest block and for two devices: met_SessionCloseLatchesEveryChip and every other statement
whose only hypothesis it is. -/
theorem met_Inv : (start 1 .idle 0 [] []).Inv ∧ (start 2 .idle 0 [] []).Inv :=
  ⟨idle_inv (by omega) (by omega) _ _, idle_inv (by omega) (by omega) _ _⟩

/-- The boundary columns and rows of SET_LED, RESET_LED_AT and SET_ROW (R141, R144): each clause has a value on either side
of its range, and no value is on both sides. -/
theorem met_SetLedWritesColumn_and_ResetLedAtClears :
    ([0, 9, 255].all fun v : Byte => v.toNat < 1 ∨ 8 < v.toNat) = true ∧
    ([1, 8].all fun v : Byte => 1 ≤ v.toNat ∧ v.toNat ≤ 8 ∧ ¬(v.toNat < 1 ∨ 8 < v.toNat)) = true := by decide +kernel

/-- The boundary device numbers of a block of two devices, addresses of GET_LATCHED, and lengths of SET_WORD (R113, R115,
R156). -/
theorem met_ChipLatch_and_GetLatched_and_SetWord : let n := (start 2 .idle 0 [] []).par.n
    ([1, 2].all fun v : Byte => 1 ≤ v.toNat ∧ v.toNat ≤ n) = true ∧
    ([0, 3, 255].all fun v : Byte => ¬(1 ≤ v.toNat ∧ v.toNat ≤ n)) = true ∧
    (15 : Byte).toNat ≤ 15 ∧ 15 < (16 : Byte).toNat ∧ (1 : Byte) ≠ 0 ∧ (0 : Byte) = 0 := by decide +kernel

/-- The default glyph map, first and last column and row. -/
theorem met_DefaultRenderIsRowMajor : (start 2 .idle 0 [] []).par.render = .byDefault ∧
    ([1, 8].all fun c : Nat => 1 ≤ c ∧ c ≤ 8) = true ∧ ([0, 7].all fun y : Nat => decide (y < 8)) = true := by decide +kernel

/-- n = 1, the smallest count: the first dummy returns the sentinel. -/
theorem met_CountDevicesReturnsCount : let s := start 1 .idle 0 [] (chainDin [0] [0x00FF, 0])
    dataOf (s.drawnFrame (16 * 1)) = 0xFF ∧ ∀ k, 1 ≤ k → k < 1 → dataOf (s.drawnFrame (16 * k)) ≠ 0xFF :=
  ⟨by decide +kernel, by omega⟩

/-- A line that returns zeros only. -/
theorem drawnFrame_zeros {s : State} {m : Nat} (h : s.dinIn = List.replicate m false) {k : Nat} (hk : 16 * k + 16 ≤ m) :
    s.drawnFrame (16 * k) = 0 := by
  apply BitVec.eq_of_getLsbD_eq
  intro i hi
  have := drawnFrame_getLsbD s (16 * k) (j := 15 - i) (by omega)
  rw [show 15 - (15 - i) = i by omega] at this
  rw [this, State.draw, h, List.getElem?_replicate, if_pos (by omega)]
  simp

/-- 257 frames of zeros: no low byte 0xFF in the first 256 dummies, from the start and inside the loop; and inside the loop with
the sentinel at once (n = 0). -/
theorem met_CountDevicesGoesOn :
    (∀ k, 1 ≤ k → k ≤ 256 →
      dataOf ((start 1 .idle 0 [] (List.replicate (16 * 257) false)).drawnFrame (16 * k)) ≠ 0xFF) ∧
    (let s := start 1 (.counting 256 0) 0 [] (List.replicate (16 * 256) false)
     s.Undisturbed ∧ ∀ k < 256, dataOf (s.drawnFrame (16 * k)) ≠ 0xFF) ∧
    (let s := start 1 (.counting 256 0) 0 [] (List.replicate 16 true)
     s.Undisturbed ∧ dataOf (s.drawnFrame (16 * 0)) = 0xFF ∧ ∀ k < 0, dataOf (s.drawnFrame (16 * k)) ≠ 0xFF) := by
  refine ⟨fun k _ h => ?_, ⟨rfl, fun k h => ?_⟩, rfl, by decide +kernel, fun k h => absurd h (by omega)⟩
  · rw [drawnFrame_zeros rfl (by omega)]; decide
  · rw [drawnFrame_zeros rfl (by omega)]; decide

theorem met_CountDevicesRunsOnWithoutSentinel (m : Nat) :
    let s := start 1 (.accepted (encode .countDevices) 0) 0 [] (List.replicate (16 * (256 * (m + 1) + 1)) false)
    s.inbox = [] ∧ s.activity = .accepted (encode .countDevices) 0 ∧
      ∀ k, 1 ≤ k → k ≤ 256 * (m + 1) → dataOf (s.drawnFrame (16 * k)) ≠ 0xFF := by
  refine ⟨rfl, rfl, fun k _ h => ?_⟩
  rw [drawnFrame_zeros rfl (by omega)]; decide

theorem met_CountDevicesMeasuresTheChain : (∀ f ∈ [(0x0102 : Frame), 0x0304], dataOf f ≠ 0xFF) ∧
    (start 2 .idle 0 [] (chainDin [0x0102, 0x0304] (0x00FF :: List.replicate 2 0))).dinIn =
      chainDin [0x0102, 0x0304] (0x00FF :: List.replicate 2 0) := ⟨by simp; decide, by simp only [start]⟩

/-- The nearest and the farthest of two devices. -/
theorem met_FillerFramesSurroundTheRealOne : (start 2 .idle 0 [] []).Inv ∧
    1 ≤ (1 : Byte).toNat ∧ (2 : Byte).toNat ≤ (start 2 .idle 0 [] []).par.n :=
  ⟨met_Inv.2, by decide, by show (2 : Byte).toNat ≤ 2; decide⟩

theorem met_ResetDataBytes : (Params.withDevices 4).Legal ∧ (0x0D : Byte) ∉ [(0x09 : Byte), 0x0A, 0x0B, 0x0C, 0x0F] :=
  ⟨legal_withDevices (by omega) (by omega), by decide⟩

/-- LOAD_GLYPH and SET_LETTER: the last slot, and the first one out of range. -/
theorem met_LoadGlyphReplacesHalf_and_SetLetterWritesGlyph : (start 2 .idle 0 [] []).Inv ∧
    (1 : Byte).toNat < (start 2 .idle 0 [] []).par.n ∧ (start 2 .idle 0 [] []).par.n ≤ (2 : Byte).toNat :=
  ⟨met_Inv.2, by show (1 : Byte).toNat < 2; decide, by show 2 ≤ (2 : Byte).toNat; decide⟩

/-- ARG = 1, for the scroll step and its lit count, with WRAP = 1 and WRAP = 0. -/
theorem met_ScrollStepShiftsColumns_and_ScrollStepLitCount : (start 2 .idle 1 [] []).Inv ∧
    (start 2 .idle 1 [] []).arg = 1 ∧ (start 2 .idle 1 [] []).wrap = true ∧
    (after (.setCycle false) (start 2 .idle 1 [] [])).wrap = false := ⟨idle_inv (by omega) (by omega) _ _, rfl, rfl, rfl⟩

/-- ARG = 0, ARG = 2 (the least for the recurrence), and ARG above the 8N places of the ring. -/
theorem met_CycleStepsMoveBits : (start 1 .idle 0 [] []).arg = 0 ∧ (start 1 .idle 2 [] []).arg.toNat = 0 + 2 ∧
    (start 1 .idle 9 [] []).Inv ∧ (start 1 .idle 9 [] []).arg ≠ 0 :=
  ⟨rfl, rfl, idle_inv (by omega) (by omega) _ _, by show (9 : Word) ≠ 0; decide⟩

theorem met_CycleDelayCommands : (start 1 .idle 0x7FFFFFFF [] []).arg.toNat < 2 ^ 31 ∧
    2 ^ 31 ≤ (start 1 .idle 0x80000000 [] []).arg.toNat := by decide +kernel

theorem met_RegistersHaveTheirWriters_and_LatchedChangesOnlyAtCommit :
    exec .getCycle (start 1 .idle 0 [] []) = .next { start 1 .idle 0 [] [] with result := 1 } ∧
    exec .nop (start 1 .idle 0 [] []) = .next (start 1 .idle 0 [] []) ∧ Instr.nop ≠ .sessionClose := ⟨rfl, rfl, by decide⟩

/-- Every command answers and adds its events to the record, from every state; and the conditions of the single clauses hold
at a value each (COUNT_DEVICES: met_CountDevicesReturnsCount). -/
theorem met_CommandDurations : (start 1 .idle 1 [] []).Inv ∧ 1 ≤ (start 1 .idle 1 [] []).arg.toNat ∧
    (∀ i s, ∃ t evs, exec i s = .next t ∧ t.trace = evs ++ s.trace) ∧
    1 ≤ (1 : Byte).toNat ∧ (8 : Byte).toNat ≤ 8 ∧ (0 : Byte).toNat < (start 1 .idle 1 [] []).par.n := by
  refine ⟨idle_inv (by omega) (by omega) _ _, by decide +kernel, fun i s => ?_, by decide, by decide, by decide +kernel⟩
  obtain ⟨t, h, k⟩ := exec_kept i s
  obtain ⟨evs, e⟩ := k.grows
  exact ⟨t, evs, h, e⟩

end Sys2Proof.Tests
end

section
/-! PROOFS. What is so at reset, and what every step keeps or only adds to, whatever lands in it (00_scope.md R5, R8). -/

namespace Sys2Proof.Machine
open Sys2Proof

/-! ### What a step can do -/

/-- The arrival that lands is the oldest one, and only if it is due now. -/
theorem nextArrival_eq_some_iff {s : State} {a : Arrival} {rest : List Arrival} :
    s.nextArrival = some (a, rest) ↔ s.inbox = a :: rest ∧ s.LandsNow a.during := by
  refine ⟨fun h => ?_, fun ⟨h, hl⟩ => nextArrival_lands h hl⟩
  unfold State.nextArrival at h
  split at h
  · cases h
  · rename_i b bs hi
    split at h <;> cases h
    rename_i hw
    refine ⟨hi, ?_⟩
    cases hb : s.busy
    · exact .inl hb
    · have hp : s.putsOff a = false := by simpa [hb] using hw
      cases hd : a.during <;> simp only [State.putsOff, hd] at hp
      · cases hp
      · exact .inr ⟨_, rfl, hp⟩

/-- A step lets the oldest input land, or takes the controller's own transition with no input landing in it (R25, R52). -/
theorem step_cases {s t : State} (h : step s = .next t) :
    (∃ a rest, s.inbox = a :: rest ∧ s.LandsNow a.during ∧
      t = land a.input (a.during.getD 0) { s with inbox := rest }) ∨
    (s.Undisturbed ∧ t = s.carryOver.undisturbed) := by
  unfold step at h
  split at h
  · rename_i a rest ha
    obtain ⟨hi, hl⟩ := nextArrival_eq_some_iff.mp ha
    exact .inl ⟨a, rest, hi, hl, (Host.Outcome.next.inj h).symm⟩
  · rename_i hn
    rw [advance_undisturbed] at h
    exact .inr ⟨hn, (Host.Outcome.next.inj h).symm⟩

/-! ### Fixed parameters and growing records -/

/-- From `s` to `t` the parameters are the same, events and returned values are only added to the record, and no draw is
taken back. -/
structure Extends (s t : State) : Prop where
  par : t.par = s.par
  trace : ∃ evs, t.trace = evs ++ s.trace
  returned : ∃ vs, t.returned = vs ++ s.returned
  drawn : s.drawn ≤ t.drawn

theorem Extends.trans {s t u : State} (h : Extends s t) (k : Extends t u) : Extends s u where
  par := k.par.trans h.par
  trace := by
    obtain ⟨e, he⟩ := h.trace
    obtain ⟨f, hf⟩ := k.trace
    exact ⟨f ++ e, by rw [hf, he, List.append_assoc]⟩
  returned := by
    obtain ⟨v, hv⟩ := h.returned
    obtain ⟨w, hw⟩ := k.returned
    exact ⟨w ++ v, by rw [hw, hv, List.append_assoc]⟩
  drawn := h.drawn.trans k.drawn

/-- A change of fields that are neither parameters nor record. -/
theorem Extends.of_eq {s t : State} (p : t.par = s.par) (e : t.trace = s.trace) (r : t.returned = s.returned)
    (d : t.drawn = s.drawn) : Extends s t :=
  ⟨p, ⟨[], e⟩, ⟨[], r⟩, d.ge⟩

/-- What no command changes includes the parameters and the values returned to the host. -/
theorem Kept.toExtends {s t : State} (h : Kept s t) : Extends s t :=
  ⟨h.par, h.grows, ⟨[], h.returned⟩, h.drawn⟩

theorem progressTo_extends (k : Nat) (s : State) : Extends s (s.progressTo k) := by
  rw [progressTo_eq]
  exact .of_eq rfl rfl rfl rfl

theorem carryOver_extends (s : State) : Extends s s.carryOver := by
  rw [carryOver_eq]
  exact .of_eq rfl rfl rfl rfl

/-- A read adds the value read to the values returned (R8(b)). -/
theorem answer_extends (r : HostReg) (v : Word) (s : State) : Extends s (s.answer r v) :=
  ⟨rfl, ⟨[], rfl⟩, ⟨[(r, v)], rfl⟩, le_refl _⟩

theorem hostWrite_extends (r : HostReg) (v : Word) (s : State) : Extends s (hostWrite r v s) := by
  cases r <;> simp only [hostWrite]
  case cmd => split <;> exact .of_eq rfl rfl rfl rfl
  case arg => split <;> exact .of_eq rfl rfl rfl rfl
  case result => exact .of_eq rfl rfl rfl rfl
  case status => exact .of_eq rfl rfl rfl rfl

/-- A reset adds the events of the running command that have happened, and its own mark (R196; log 10, 11). -/
theorem resetDuring_extends (k : Nat) (s : State) : Extends s (resetDuring k s) :=
  ⟨rfl, ⟨.reset :: (s.coming.take k).reverse, rfl⟩, ⟨[], rfl⟩, Nat.le_add_right ..⟩

theorem land_extends (a : Input) (d : Nat) (s : State) : Extends s (land a d s) := by
  cases a
  case write r v => exact (progressTo_extends _ s).trans (hostWrite_extends r v _)
  case read r => exact (progressTo_extends _ s).trans (answer_extends r _ _)
  case reset => exact resetDuring_extends _ s

/-- Every step keeps the parameters and only adds to the record. -/
theorem step_extends {s t : State} (h : step s = .next t) : Extends s t := by
  obtain ⟨a, rest, -, -, rfl⟩ | ⟨-, rfl⟩ := step_cases h
  · have taken : Extends s { s with inbox := rest } := .of_eq rfl rfl rfl rfl
    exact taken.trans (land_extends ..)
  · exact (carryOver_extends s).trans (undisturbed_kept _).toExtends

/-- Settles O20: whether an input lands in the step or a command's transition is taken, the record is extended. -/
theorem recordOnlyGrows : Obligations.RecordOnlyGrows := by
  intro s t h
  obtain ⟨-, htrace, hreturned, hdrawn⟩ := step_extends h
  exact ⟨htrace, hreturned, hdrawn⟩

/-- Settles O19: a reset puts the parameters back as they were, and nothing else that can land or run touches them. -/
theorem parametersNeverChange : Obligations.ParametersNeverChange :=
  fun _ _ h => (step_extends h).par

/-! ### Reset -/

theorem resetWith_inv {p : Params} (h : p.Legal) : (State.resetWith p).Inv where
  legal := h
  latCount := List.length_replicate
  pendCount := List.length_replicate
  glyphCount := List.length_replicate
  latTag i a := .inl (resetWith_latched p i a)
  loadN := rfl
  clkLow := rfl
  delayRange := show (50 : Word).toNat < 2 ^ 31 by decide
  countOpen _ _ h := nomatch h

/-- Nothing is shown yet, and the pins are at their reset levels (R22, R31). -/
theorem resetWith_wireOk (p : Params) : (State.resetWith p).WireOk := rfl

theorem default_legal : Params.default.Legal := by decide

/-- Settles O7: the reset state meets each clause of the invariant, and its record is empty. -/
theorem invariantAtReset : Obligations.InvariantAtReset :=
  ⟨fun p h => ⟨resetWith_inv h, resetWith_wireOk p⟩, resetWith_inv default_legal, resetWith_wireOk _⟩

end Sys2Proof.Machine
end

section
/-! PROOFS. What every step keeps of the block: the invariant and the pins' discipline (10_state.md R15 to R22; R90, R95,
R207). -/

namespace Sys2Proof.Machine
open Sys2Proof

/-! ### What an input that lands leaves alone -/

/-- The block without the host's side: what a host access can change is blanked. -/
def State.withoutHost (s : State) : State :=
  { s with arg := 0, ill := false, ovr := false, activity := .idle, inbox := [], returned := [] }

theorem progressTo_withoutHost (k : Nat) (s : State) : (s.progressTo k).withoutHost = s.withoutHost := by
  rw [progressTo_eq]; rfl

theorem hostWrite_withoutHost (r : HostReg) (v : Word) (s : State) : (hostWrite r v s).withoutHost = s.withoutHost := by
  cases r <;> simp only [hostWrite]
  case cmd => split <;> rfl
  case arg => split <;> rfl
  case status => rfl

/-- A host access changes the host's side alone; a reset is the only input that changes more. -/
theorem land_withoutHost {a : Input} (ha : a ≠ .reset) (d : Nat) (s : State) :
    (land a d s).withoutHost = s.withoutHost := by
  cases a
  case write r v => exact (hostWrite_withoutHost r v _).trans (progressTo_withoutHost _ s)
  case read r => exact progressTo_withoutHost _ s
  case reset => exact absurd rfl ha

/-- The invariant's part that does not speak of the running command does not speak of the host's side. -/
theorem invCore_withoutHost_iff {s : State} : s.withoutHost.InvCore ↔ s.InvCore :=
  ⟨fun h => ⟨h.legal, h.latCount, h.pendCount, h.glyphCount, h.latTag, h.loadN, h.clkLow, h.delayRange⟩,
    fun h => ⟨h.legal, h.latCount, h.pendCount, h.glyphCount, h.latTag, h.loadN, h.clkLow, h.delayRange⟩⟩

theorem invCore_congr {s t : State} (e : t.withoutHost = s.withoutHost) (h : s.InvCore) : t.InvCore :=
  invCore_withoutHost_iff.mp (e ▸ invCore_withoutHost_iff.mpr h)

theorem wireOk_congr {s t : State} (e : t.withoutHost = s.withoutHost) (h : s.WireOk) : t.WireOk :=
  show t.withoutHost.WireOk from e ▸ h

theorem carryOver_withoutHost (s : State) : s.carryOver.withoutHost = s.withoutHost := by
  rw [carryOver_eq]; rfl

/-! ### The invariant -/

/-- The line is open while COUNT_DEVICES loops (R107): the invariant's clause about the running command. -/
def State.CountOpen (s : State) : Prop := ∀ n k, s.activity = .counting n k → s.en = true

theorem countOpen_of_idle {s : State} (h : s.activity = .idle) : s.CountOpen :=
  fun _ _ hc => nomatch h.symm.trans hc

theorem progressTo_countOpen {s : State} (h : s.CountOpen) (k : Nat) : (s.progressTo k).CountOpen := by
  unfold State.progressTo
  split
  · exact h
  · exact fun _ _ hc => nomatch hc
  · rename_i n j ha; exact fun _ _ _ => h n j ha

theorem hostWrite_countOpen {s : State} (h : s.CountOpen) (r : HostReg) (v : Word) : (hostWrite r v s).CountOpen := by
  cases r <;> simp only [hostWrite]
  case cmd =>
    split
    · exact h
    · exact fun _ _ hc => nomatch hc
  case arg => split <;> exact h
  case result => exact h
  case status => exact h

theorem land_countOpen {s : State} (h : s.CountOpen) (a : Input) (d : Nat) : (land a d s).CountOpen := by
  cases a
  case write r v => exact hostWrite_countOpen (progressTo_countOpen h _) r v
  case read r => exact progressTo_countOpen h _
  case reset => exact countOpen_of_idle rfl

/-- A command that leaves the controller counting is COUNT_DEVICES, and has the line open. -/
theorem exec_countOpen {i : Instr} {s t : State} (ha : s.activity = .idle) (e : exec i s = .next t) : t.CountOpen := by
  by_cases hi : i = .countDevices
  · subst hi
    obtain rfl := Host.Outcome.next.inj e
    exact countLoop_open _ _ _ (by rw [exchange_eq]; rfl) (by rw [exchange_eq]; exact ha)
  · exact countOpen_of_idle ((exec_activity hi e).trans ha)

theorem runWord_countOpen {w : Word} {s t : State} (ha : s.activity = .idle) (e : runWord w s = .next t) :
    t.CountOpen := by
  unfold runWord at e
  split at e
  · obtain rfl := Host.Outcome.next.inj e
    exact countOpen_of_idle ha
  · exact exec_countOpen ha e

theorem undisturbed_countOpen {s : State} (h : s.CountOpen) : s.undisturbed.CountOpen := by
  have e := advance_undisturbed s
  unfold advance at e
  split at e
  · rwa [← Host.Outcome.next.inj e]
  · exact runWord_countOpen rfl e
  · rename_i n k ha
    rw [← Host.Outcome.next.inj e]
    exact countLoop_open _ _ _ (h n k ha) rfl

/-- A reset during a command leaves the block as after construction (R195, R196). -/
theorem resetDuring_invCore {s : State} (h : s.par.Legal) (k : Nat) : (resetDuring k s).InvCore :=
  have r := (resetWith_inv h).invCore
  ⟨h, r.latCount, r.pendCount, r.glyphCount, r.latTag, rfl, rfl, r.delayRange⟩

theorem land_invCore {s : State} (h : s.InvCore) (a : Input) (d : Nat) : (land a d s).InvCore := by
  by_cases ha : a = .reset
  · subst ha; exact resetDuring_invCore h.legal _
  · exact invCore_congr (land_withoutHost ha d s) h

/-- Settles O8: an input that lands changes the host's side or resets the block, and a transition is made of operations that
each keep the invariant; the line stays open as long as COUNT_DEVICES loops. -/
theorem stepKeepsInvariant : Obligations.StepKeepsInvariant := by
  intro s t h e
  obtain ⟨a, rest, -, -, rfl⟩ | ⟨-, rfl⟩ := step_cases e
  · have taken : (withInbox rest s).InvCore := invCore_congr (s := s) rfl h.invCore
    have opened : (withInbox rest s).CountOpen := h.countOpen
    exact (land_invCore taken _ _).inv (land_countOpen opened _ _)
  · have taken : s.carryOver.InvCore := invCore_congr (carryOver_withoutHost s) h.invCore
    have opened : s.carryOver.CountOpen := by rw [carryOver_eq]; exact h.countOpen
    exact (invCore_closed.undisturbed taken).inv (undisturbed_countOpen opened)

/-! ### The pins' discipline -/

/-- The events of a running transition up to any point keep the discipline, and a reset puts the pins at the levels the
record then says (R195; log 10). -/
theorem resetDuring_wireOk {s : State} (h : s.Wired) (k : Nat) : (resetDuring k s).WireOk := by
  have parts : s.undisturbed.trace = (s.coming.drop k).reverse ++ ((s.coming.take k).reverse ++ s.trace) := by
    rw [undisturbed_trace, ← List.append_assoc, ← List.reverse_append, List.take_append_drop]
  have whole : s.undisturbed.WireOk := (wired_closed.undisturbed h).ok
  rw [State.WireOk, parts] at whole
  obtain ⟨q, hq⟩ := pinsAfter_suffix _ _ whole
  show (pinsAfter ((s.coming.take k).reverse ++ s.trace)).bind _ = _
  rw [hq]
  rfl

theorem land_wireOk {s : State} (h : s.Wired) (a : Input) (d : Nat) : (land a d s).WireOk := by
  by_cases ha : a = .reset
  · subst ha; exact resetDuring_wireOk h _
  · exact wireOk_congr (land_withoutHost ha d s) h.ok

/-- Settles O9: a host access moves no pin, a reset keeps the first events of a transition, and a transition keeps the
discipline as each of its operations does. CLK is low where a transition begins, by the invariant. -/
theorem stepKeepsPinDiscipline : Obligations.StepKeepsPinDiscipline := by
  intro s t h hw e
  obtain ⟨a, rest, -, -, rfl⟩ | ⟨-, rfl⟩ := step_cases e
  · have taken : (withInbox rest s).Wired := ⟨hw, h.clkLow⟩
    exact land_wireOk taken _ _
  · have taken : s.carryOver.Wired := by rw [carryOver_eq]; exact ⟨hw, h.clkLow⟩
    exact (wired_closed.undisturbed taken).ok

end Sys2Proof.Machine
end

section
/-! PROOFS. The reset state, how an accepted word runs, and what an input does when it lands, idle or during a command
(10_state.md R24 to R31; R180, R184, R195, R196). -/

namespace Sys2Proof.Machine
open Sys2Proof

/-! ### Reset -/

theorem resetWith_statusWord (p : Params) : (State.resetWith p).statusWord = 0 := by
  simp [State.statusWord, State.busy, State.resetWith]

/-- Settles O6: each clause of R31 as the reset state holds it, the mirror and the glyph slots read register by register. -/
theorem resetValues : Obligations.ResetValues := by
  intro p s
  exact ⟨rfl, List.length_replicate, resetWith_latched p, List.length_replicate, resetWith_pending p, rfl, rfl,
    List.length_replicate, resetWith_glyphAt p, rfl, rfl, rfl, rfl, rfl, rfl, resetWith_statusWord p, rfl⟩

/-! ### How an accepted word runs -/

theorem busy_of_accepted {s : State} {w : Word} {k : Nat} (h : s.activity = .accepted w k) : s.busy = true := by
  rw [State.busy, h]

/-- A step in which an accepted word runs and no input lands. -/
theorem step_runWord {s : State} {w : Word} {k : Nat} (ha : s.activity = .accepted w k)
    (hi : s.inbox = [] ∨ ∃ a rest, s.inbox = a :: rest ∧ a.during = none) : step s = runWord w s.retire := by
  rw [step_undisturbed hi (busy_of_accepted ha), advance, ha]

/-- Settles O11: no input lands, so the step runs the accepted word, which decodes. -/
theorem stepRunsDecodedCommand : Obligations.StepRunsDecodedCommand := by
  intro s w k i ha hi hd
  have hd : decode s.retire.par.n w = .ok i := hd
  rw [step_runWord ha hi, runWord, hd]
  rfl

/-- Settles O12: no input lands, so the step runs the accepted word, which does not decode. -/
theorem illegalWordSetsIllOnly : Obligations.IllegalWordSetsIllOnly := by
  intro s w k e ha hi hd
  have hd : decode s.retire.par.n w = .error e := hd
  rw [step_runWord ha hi, runWord, hd]
  rfl

/-! ### Inputs that land while the block is idle -/

theorem busy_of_idle {s : State} (h : s.activity = .idle) : s.busy = false := by
  rw [State.busy, h]

theorem undisturbed_idle {s : State} (h : s.activity = .idle) : s.undisturbed = s := by
  rw [State.undisturbed, advance, h]

/-- The transition of an idle block has no events (R6). -/
theorem coming_idle {s : State} (h : s.activity = .idle) : s.coming = [] := by
  simp [State.coming, undisturbed_idle h]

theorem visibleAt_idle {s : State} (h : s.activity = .idle) (k : Nat) : s.visibleAt k = s := by
  simp [State.visibleAt, coming_idle h, undisturbed_idle h, enAfter]

/-- Settles O13: an input lands at once in an idle block, where a CMD write starts the command and an ARG write is stored. -/
theorem idleWritesAreTaken : Obligations.IdleWritesAreTaken := by
  intro s v d rest ha
  have taken : (withInbox rest s).activity = .idle := ha
  have lands : ∀ r, s.inbox = ⟨.write r v, d⟩ :: rest → step s = .next (hostWrite r v (withInbox rest s)) := by
    intro r hi
    rw [step_lands hi (.inl (busy_of_idle ha))]
    exact congrArg (fun t => Host.Outcome.next (hostWrite r v t)) (progressTo_idle taken _)
  refine ⟨fun hi => ?_, fun hi => ?_⟩
  all_goals
    rw [lands _ hi, hostWrite, busy_of_idle taken]
    rfl

/-- Settles O16: an idle block has no event to come, so the read sees the registers as they are. -/
theorem idleReads : Obligations.IdleReads := by
  intro s r d rest ha hi
  have taken : (withInbox rest s).activity = .idle := ha
  refine ⟨readReg r s, ?_, ?_, ?_, ?_, ?_⟩
  · rw [step_lands hi (.inl (busy_of_idle ha))]
    show Host.Outcome.next (((withInbox rest s).progressTo _).answer r (readReg r ((withInbox rest s).visibleAt _))) = _
    rw [progressTo_idle taken, visibleAt_idle taken]
    cases r <;> rfl
  · rintro rfl; rfl
  · rintro rfl; rfl
  · rintro rfl; rfl
  · rintro rfl j
    show s.statusWord.getLsbD j = _
    rw [statusWord_getLsbD, busy_of_idle ha]
    split
    · simp [*]
    · rfl

/-! ### Inputs that land during a command -/

/-- A write that lands first moves the mark of how far the command has come, which is all it does besides (log 2). -/
theorem land_write (r : HostReg) (v : Word) (d : Nat) (s : State) :
    land (.write r v) d s = hostWrite r v (s.progressTo (s.elapsed + d)) := rfl

/-- A CMD or ARG write is dropped while a command runs (R29). -/
theorem hostWrite_busy {s : State} {r : HostReg} (hb : s.busy = true) (hr : r = .cmd ∨ r = .arg) (v : Word) :
    hostWrite r v s = overrun s := by
  rcases hr with rfl | rfl <;> simp [hostWrite, hb]

theorem land_write_busy {s : State} {r : HostReg} (hb : s.busy = true) (hr : r = .cmd ∨ r = .arg) (v : Word) (d : Nat) :
    land (.write r v) d s = overrun (s.progressTo (s.elapsed + d)) :=
  hostWrite_busy ((progressTo_busy _ s).trans hb) hr v

/-- Settles O14: the write only sets OVR, which takes no part in what a command does (`overrun_advance`), nor does how far
the host has seen it come (`advance_progressTo`). -/
theorem busyWritesAreDropped : Obligations.BusyWritesAreDropped := by
  intro s r v d rest hb hr hi hl
  let q := withInbox rest s
  have hq : q.busy = true := hb
  let p := q.progressTo (q.elapsed + d)
  have hp : p.busy = true := (progressTo_busy _ q).trans hq
  have hstep : step s = .next (overrun p) := by
    rw [step_lands hi hl]
    exact congrArg _ (land_write_busy hq hr v d)
  have goes : advance p = .next q.undisturbed := by rw [advance_progressTo hq, advance_undisturbed]
  refine ⟨overrun p, hstep, ?_, hp, q.undisturbed, overrun q.undisturbed, advance_undisturbed q,
    overrun_advance hp goes, rfl⟩
  show overrun (q.progressTo _) = _
  rw [progressTo_eq]
  rfl

/-- Settles O15: whether or not a command runs, the write finds the block with at most the command's mark moved. -/
theorem statusAndResultWrites : Obligations.StatusAndResultWrites := by
  intro s v d rest hl
  let q := withInbox rest s
  let p := q.progressTo (q.elapsed + d.getD 0)
  have hp : p.busy = s.busy := progressTo_busy _ q
  have hpe : p = { q with activity := p.activity } := progressTo_eq _ q
  refine ⟨fun hi => ⟨writeStatus v p, step_lands hi hl, hp, ?_⟩, fun hi => ⟨p, step_lands hi hl, hp, hpe⟩⟩
  have hill : (s.ill && !v.getLsbD 2) = if v.getLsbD 2 then false else s.ill := by cases v.getLsbD 2 <;> simp
  have hovr : (s.ovr && !v.getLsbD 3) = if v.getLsbD 3 then false else s.ovr := by cases v.getLsbD 3 <;> simp
  rw [← hill, ← hovr, hpe]
  rfl

/-- Settles O17: the read sees the block as the events so far have left it (`visibleAt`), and only moves the mark of how far
the command has come. -/
theorem busyReads : Obligations.BusyReads := by
  intro s r d rest hb hi hl
  let q := withInbox rest s
  let seen := q.visibleAt (q.elapsed + d)
  have hseen : seen.busy = true := hb
  refine ⟨(q.progressTo (q.elapsed + d)).answer r (readReg r seen), q.undisturbed, readReg r seen, q.coming.reverse,
    step_lands hi hl, (progressTo_busy _ q).trans hb, ?_, advance_undisturbed q, undisturbed_trace q, ?_, ?_, ?_, ?_⟩
  · rw [progressTo_eq]; rfl
  · rintro rfl; rfl
  · rintro rfl; rfl
  · rintro rfl; exact visibleAt_result q _
  · rintro rfl
    have bits : ∀ j, (readReg .status seen).getLsbD j = _ := statusWord_getLsbD seen
    refine ⟨(bits 0).trans hseen, (bits 1).trans ?_, bits 2, bits 3, fun j hj => (bits j).trans ?_⟩
    · rw [List.reverse_reverse]; rfl
    · rw [if_neg (by omega), if_neg (by omega), if_neg (by omega), if_neg (by omega)]

/-- Settles O18: the events that stay are the first ones of the running transition, and the rest of the block is as after
construction. -/
theorem resetTakesEffectAtOnce : Obligations.ResetTakesEffectAtOnce := by
  intro s d rest hl hi
  let q := withInbox rest s
  refine ⟨resetDuring (q.elapsed + d.getD 0) q, q.undisturbed, q.coming.reverse,
    (q.coming.take (q.elapsed + d.getD 0)).reverse, step_lands hi hl, advance_undisturbed q, undisturbed_trace q, ?_, ?_⟩
  · rw [List.reverse_reverse]; rfl
  · have hc : ∀ evs, sampleCount evs.reverse = sampleCount evs := fun evs => List.countP_reverse
    rw [hc]
    rfl

/-! ### An input due during a command lands in it -/

theorem land_inbox (a : Input) (d : Nat) (s : State) : (land a d s).inbox = s.inbox := by
  cases a
  case reset => rfl
  case read r => show (s.progressTo _).inbox = _; rw [progressTo_eq]
  case write r v =>
    have hp : (s.progressTo (s.elapsed + d)).inbox = s.inbox := by rw [progressTo_eq]
    rw [land_write, ← hp]
    cases r <;> simp only [hostWrite]
    case cmd => split <;> rfl
    case arg => split <;> rfl
    case status => rfl

/-- A step in which an arrival falls later: the command is still running, at the start of its next transition, and the
arrival is due by as many events sooner as the transition has shown, at least one. -/
theorem step_fallsLater {s : State} {a : Input} {d : Nat} {rest : List Arrival} (hb : s.busy = true)
    (hi : s.inbox = ⟨a, some d⟩ :: rest) (hf : s.fallsLater d = true) :
    ∃ (v : State) (e : Nat), step s = .next v ∧ v.busy = true ∧ v.inbox = ⟨a, some e⟩ :: rest ∧
      Kept (withInbox v.inbox s) v ∧ s.trace.length < v.trace.length ∧
      v.trace.length + (v.elapsed + e) = s.trace.length + (s.elapsed + d) := by
  obtain ⟨hu, hlt⟩ : s.undisturbed.busy = true ∧ s.coming.length < s.elapsed + d := by
    simpa [State.fallsLater] using hf
  obtain ⟨same, ⟨m, hm⟩, grows⟩ := advance_goesOn hb hu
  have hlen : s.undisturbed.trace.length = s.coming.length + s.trace.length := by
    rw [undisturbed_trace, List.length_append, List.length_reverse]
  let b : List Arrival := ⟨a, some (s.elapsed + d - s.coming.length)⟩ :: rest
  have hv : (withInbox b s).undisturbed = withInbox b s.undisturbed := by
    have := advance_undisturbed (withInbox b s)
    rw [same] at this
    exact (Host.Outcome.next.inj this).symm
  refine ⟨withInbox b s.undisturbed, s.elapsed + d - s.coming.length, ?_, hu, rfl, ?_, grows, ?_⟩
  · rw [step_putsOff hi hb hf]
    exact same b
  · have kept := undisturbed_kept (withInbox b s)
    rwa [hv] at kept
  · have he : (withInbox b s.undisturbed).elapsed = 0 := elapsed_counting hm
    show s.undisturbed.trace.length + _ = _
    rw [he, hlen]
    omega

theorem run_succ_of_step {s v : State} (h : step s = .next v) (m : Nat) : core.run (m + 1) s = core.run m v := by
  have h : core.step s = .next v := h
  simp only [Host.Core.run, h]

/-- Steps of the running command lead to the transition an arrival falls in, at the same moment of the record: by induction
on how many events the arrival is away. -/
theorem arrival_comesDue (n : Nat) : ∀ (s : State) (a : Input) (d : Nat) (rest : List Arrival), s.elapsed + d = n →
    s.busy = true → s.inbox = ⟨a, some d⟩ :: rest →
    ∃ (m : Nat) (u : State) (e : Nat), core.run m s = .next u ∧ u.busy = true ∧ u.inbox = ⟨a, some e⟩ :: rest ∧
      u.LandsNow (some e) ∧ Kept (withInbox u.inbox s) u ∧
      u.trace.length + (u.elapsed + e) = s.trace.length + (s.elapsed + d) := by
  induction n using Nat.strongRecOn with
  | ind n ih =>
    intro s a d rest hn hb hi
    cases hf : s.fallsLater d
    case false =>
      exact ⟨0, s, d, rfl, hb, hi, .inr ⟨d, rfl, hf⟩, .refl s, rfl⟩
    case true =>
      obtain ⟨v, e, hstep, hvb, hvi, hk, hgrow, hdue⟩ := step_fallsLater hb hi hf
      obtain ⟨m, u, e', hrun, hub, hui, hul, hku, hdue'⟩ := ih (v.elapsed + e) (by omega) v a e rest rfl hvb hvi
      refine ⟨m + 1, u, e', ?_, hub, hui, hul, ?_, hdue'.trans hdue⟩
      · rw [run_succ_of_step hstep, hrun]
      · exact Kept.after (t := withInbox u.inbox v) ⟨hk.par, hk.arg, hk.ovr, rfl, hk.returned, hk.grows, hk.drawn⟩ hku

/-- Settles O59: the command's transitions bring the arrival's moment nearer (`arrival_comesDue`), and in the one it falls in
it lands. -/
theorem arrivalsLandInTheRunningCommand : Obligations.ArrivalsLandInTheRunningCommand := by
  intro s a d rest hb hi
  obtain ⟨m, u, e, hrun, hub, hui, hul, hk, hdue⟩ := arrival_comesDue _ s a d rest rfl hb hi
  obtain ⟨evs, hevs⟩ := hk.grows
  have hevs : u.trace = evs ++ s.trace := hevs
  refine ⟨m, u, land a e (withInbox rest u), e, evs, hrun, hub, hui, hul, hevs, ?_, hk.par, hk.arg, hk.ovr, hk.returned,
    step_lands hui hul, land_inbox .., ?_, ?_⟩
  · rw [hevs, List.length_append] at hdue
    omega
  · rintro rfl
    exact ⟨rfl, rfl, rfl, rfl, rfl⟩
  · rintro r v rfl hr
    have hq : (withInbox rest u).busy = true := hub
    rw [land_write_busy hq hr]
    exact ⟨rfl, (progressTo_busy _ _).trans hq⟩

end Sys2Proof.Machine
end

section
/-! PROOFS. Which commands write which piece of state (10_state.md R14 to R28; R47). -/

namespace Sys2Proof.Machine
open Sys2Proof

/-! ### Commands that leave the mirror alone -/

/-- COUNT_DEVICES changes the line, RESULT and what runs, and not the mirror (R107). -/
theorem countDevices_keeps {s t : State} (e : exec .countDevices s = .next t) :
    ∃ u, Quiet s u ∧ u.lat = s.lat ∧ u.pend = s.pend ∧
      ((∃ m, t = { u with activity := .counting m 0 }) ∨ (∃ m, t = { u with result := m })) := by
  obtain rfl := Host.Outcome.next.inj e
  have hq := (openLine_quiet s).trans (exchange_quiet (pack 0 Config.sentinel) (openLine s))
  have hx : (exchange (pack 0 Config.sentinel) (openLine s)).2.lat = s.lat ∧
      (exchange (pack 0 Config.sentinel) (openLine s)).2.pend = s.pend := by rw [exchange_eq]; exact ⟨rfl, rfl⟩
  obtain ⟨u, q, hl, hp, h⟩ :=
    countLoop_keeps Config.countBudget 0 (exchange (pack 0 Config.sentinel) (openLine s)).2
  exact ⟨u, hq.trans q, hl.trans hx.1, hp.trans hx.2, h⟩

/-- The mirror and the line as they are: what the configuration commands and the reads of the mirror leave alone. -/
structure SameMirrorAndLine (s t : State) : Prop where
  lat : t.lat = s.lat
  pend : t.pend = s.pend
  en : t.en = s.en
  loadN : t.loadN = s.loadN
  clk : t.clk = s.clk
  dout : t.dout = s.dout
  trace : t.trace = s.trace

/-- LOAD_GLYPH writes a glyph slot, or sets ILL where the slot is out of range (R150; log 12). -/
theorem loadGlyph_sameMirrorAndLine {g : Byte} {h : Bool} {s t : State} (e : exec (.loadGlyph g h) s = .next t) :
    SameMirrorAndLine s t := by
  simp only [exec, execLoadGlyph] at e
  split at e
  all_goals
    obtain rfl := Host.Outcome.next.inj e
    exact ⟨rfl, rfl, rfl, rfl, rfl, rfl, rfl⟩

/-- NOP, the reads of the mirror and the configuration commands with LOAD_GLYPH leave the mirror and the line alone. -/
theorem exec_sameMirrorAndLine {i : Instr} {s t : State} (e : exec i s = .next t) {d a : Byte} {h w : Bool}
    (hi : i ∈ [.loadGlyph d h, .nop, .getPending d, .getLatched d a, .setCycle w, .getCycle, .setCycleDelay,
      .getCycleDelay]) : SameMirrorAndLine s t := by
  simp only [List.mem_cons, List.not_mem_nil, or_false] at hi
  rcases hi with rfl | rfl | rfl | rfl | rfl | rfl | rfl | rfl
  · exact loadGlyph_sameMirrorAndLine e
  all_goals
    obtain rfl := Host.Outcome.next.inj e
    exact ⟨rfl, rfl, rfl, rfl, rfl, rfl, rfl⟩

/-- What an exchange on the line leaves alone: LAT, EN and LOAD_N. -/
structure SameLatchAndEnable (s t : State) : Prop where
  lat : t.lat = s.lat
  en : t.en = s.en
  loadN : t.loadN = s.loadN

/-- RAW_EXCHANGE changes CLK, DOUT, RESULT, the draws and the record (R105). -/
theorem rawExchange_keeps {f : Frame} {s t : State} (e : exec (.rawExchange f) s = .next t) :
    SameLatchAndEnable s t ∧ t.pend = s.pend := by
  simp only [exec, execRawExchange, exchange_eq] at e
  obtain rfl := Host.Outcome.next.inj e
  exact ⟨⟨rfl, rfl, rfl⟩, rfl⟩

/-- SESSION_SEND shifts PEND and changes CLK, DOUT, RESULT, the draws and the record (R103). -/
theorem sessionSend_keeps {f : Frame} {s t : State} (e : exec (.sessionSend f) s = .next t) :
    SameLatchAndEnable s t := by
  simp only [exec, execSessionSend, chainSend_eq] at e
  obtain rfl := Host.Outcome.next.inj e
  exact ⟨rfl, rfl, rfl⟩

/-! ### The writers of each register -/

/-- RESULT, WRAP, CYCLE_DELAY, the glyph slots and ILL change only in the commands that are there to change them (R18, R19,
R20, R27, R28). -/
theorem exec_writers {i : Instr} {s t : State} (e : exec i s = .next t) :
    (i ≠ .countDevices → ¬ WritesResult i → t.result = s.result) ∧
    ((∀ w, i ≠ .setCycle w) → t.wrap = s.wrap) ∧
    (i ≠ .setCycleDelay → t.cycleDelay = s.cycleDelay) ∧
    ((∀ g h, i ≠ .loadGlyph g h) → t.glyph = s.glyph) ∧
    (i.wf s.par.n = true → t.ill = s.ill) := by
  rcases exec_cases e with ⟨q, -⟩ | ⟨u, v, q, rfl, hw⟩ | ⟨rfl, -⟩ | ⟨w, rfl, rfl⟩ | ⟨d, rfl, -, rfl⟩ | ⟨g, h, v, rfl, rfl⟩ |
    ⟨hwf, rfl⟩
  · exact ⟨fun _ _ => q.result, fun _ => q.config.wrap, fun _ => q.config.cycleDelay, fun _ => q.config.glyph,
      fun _ => q.host.ill⟩
  · exact ⟨fun _ h => absurd hw h, fun _ => q.config.wrap, fun _ => q.config.cycleDelay, fun _ => q.config.glyph,
      fun _ => q.host.ill⟩
  · obtain ⟨u, q, -, -, ⟨m, rfl⟩ | ⟨m, rfl⟩⟩ := countDevices_keeps e
    all_goals
      exact ⟨fun h => absurd rfl h, fun _ => q.config.wrap, fun _ => q.config.cycleDelay, fun _ => q.config.glyph,
        fun _ => q.host.ill⟩
  · exact ⟨fun _ _ => rfl, fun h => absurd rfl (h w), fun _ => rfl, fun _ => rfl, fun _ => rfl⟩
  · exact ⟨fun _ _ => rfl, fun _ => rfl, fun h => absurd rfl h, fun _ => rfl, fun _ => rfl⟩
  · exact ⟨fun _ _ => rfl, fun _ => rfl, fun _ => rfl, fun k => absurd rfl (k g h), fun _ => rfl⟩
  · exact ⟨fun _ _ => rfl, fun _ => rfl, fun _ => rfl, fun _ => rfl, fun h => absurd (hwf.symm.trans h) (by decide)⟩

/-- The commands with no chain send leave PEND alone, CHIP_SET_PENDING apart (R16). -/
theorem exec_pend {i : Instr} {s t : State} (e : exec i s = .next t) {f : Frame} {d a : Byte} {h w : Bool}
    (hi : i ∈ [.nop, .sessionOpen, .sessionClose, .countDevices, .rawExchange f, .rawClose, .getPending d,
      .chipLatch d, .getLatched d a, .loadGlyph d h, .setCycle w, .getCycle, .setCycleDelay, .getCycleDelay]) :
    t.pend = s.pend := by
  by_cases hq : i ∈ [.loadGlyph d h, .nop, .getPending d, .getLatched d a, .setCycle w, .getCycle, .setCycleDelay,
      .getCycleDelay]
  · exact (exec_sameMirrorAndLine e hq).pend
  · have rest : i = .countDevices ∨ i = .rawExchange f ∨ i = .sessionOpen ∨ i = .sessionClose ∨ i = .rawClose ∨
        i = .chipLatch d := by
      simp only [List.mem_cons, List.not_mem_nil, or_false] at hi hq
      tauto
    rcases rest with rfl | rfl | rfl | rfl | rfl | rfl
    · obtain ⟨u, -, -, hp, ⟨m, rfl⟩ | ⟨m, rfl⟩⟩ := countDevices_keeps e <;> exact hp
    · exact (rawExchange_keeps e).2
    all_goals
      obtain rfl := Host.Outcome.next.inj e
      rfl

/-- The commands of the chip and configuration families, NOP and LOAD_GLYPH leave the line alone (R21, R22). -/
theorem exec_line {i : Instr} {s t : State} (e : exec i s = .next t) {f : Frame} {d a : Byte} {h w : Bool}
    (hi : i ∈ [.nop, .chipSetPending d f, .getPending d, .chipLatch d, .getLatched d a, .loadGlyph d h,
      .setCycle w, .getCycle, .setCycleDelay, .getCycleDelay]) :
    t.en = s.en ∧ t.loadN = s.loadN ∧ t.clk = s.clk ∧ t.dout = s.dout ∧ t.trace = s.trace := by
  by_cases hq : i ∈ [.loadGlyph d h, .nop, .getPending d, .getLatched d a, .setCycle w, .getCycle, .setCycleDelay,
      .getCycleDelay]
  · have k := exec_sameMirrorAndLine e hq
    exact ⟨k.en, k.loadN, k.clk, k.dout, k.trace⟩
  · have rest : i = .chipSetPending d f ∨ i = .chipLatch d := by
      simp only [List.mem_cons, List.not_mem_nil, or_false] at hi hq
      tauto
    rcases rest with rfl | rfl
    all_goals
      obtain rfl := Host.Outcome.next.inj e
      exact ⟨rfl, rfl, rfl, rfl, rfl⟩

/-- Opening and closing the line move LOAD_N alone (R102, R104, R106). -/
theorem exec_open_close_pins {i : Instr} {s t : State} (e : exec i s = .next t)
    (hi : i ∈ [.sessionOpen, .sessionClose, .rawClose]) : t.clk = s.clk ∧ t.dout = s.dout := by
  simp only [List.mem_cons, List.not_mem_nil, or_false] at hi
  rcases hi with rfl | rfl | rfl
  all_goals
    obtain rfl := Host.Outcome.next.inj e
    exact ⟨rfl, rfl⟩

/-- A single exchange neither opens nor closes the line (R103, R105). -/
theorem exec_exchange_enable {i : Instr} {s t : State} (e : exec i s = .next t) {f : Frame}
    (hi : i ∈ [.sessionSend f, .rawExchange f]) : t.en = s.en ∧ t.loadN = s.loadN := by
  simp only [List.mem_cons, List.not_mem_nil, or_false] at hi
  rcases hi with rfl | rfl
  · exact ⟨(sessionSend_keeps e).en, (sessionSend_keeps e).loadN⟩
  · exact ⟨(rawExchange_keeps e).1.en, (rawExchange_keeps e).1.loadN⟩

/-- Settles O54: one lemma per group of registers above; ARG and OVR no command writes (`exec_kept`). -/
theorem registersHaveTheirWriters : Obligations.RegistersHaveTheirWriters := by
  intro i s t e
  obtain ⟨hresult, hwrap, hdelay, hglyph, hill⟩ := exec_writers e
  obtain ⟨t', e', kept⟩ := exec_kept i s
  obtain rfl := Host.Outcome.next.inj (e.symm.trans e')
  refine ⟨fun hc hs hr hp hl hg hd => hresult hc ?_, hwrap, hdelay, hglyph, kept.arg, kept.ovr, hill,
    fun _ _ _ _ _ => exec_pend e, fun _ _ _ _ _ => exec_line e, exec_open_close_pins e, fun _ => exec_exchange_enable e⟩
  rintro (⟨f, h⟩ | ⟨f, h⟩ | ⟨d, h⟩ | ⟨d, a, h⟩ | h | h)
  · exact hs f h
  · exact hr f h
  · exact hp d h
  · exact hl d a h
  · exact hg h
  · exact hd h

/-- Settles O55: of the commands with no chain close, the transport's and the mirror's leave LAT alone each by its own meaning,
the others with the whole mirror. -/
theorem latchedChangesOnlyAtCommit : Obligations.LatchedChangesOnlyAtCommit := by
  intro i s t e hclose hlatch hset hreset hled hledAt hrow hletter hword hsteps hcycle
  cases i
  case sessionClose => exact absurd rfl hclose
  case chipLatch => exact absurd rfl (hlatch _)
  case setRegister => exact absurd rfl (hset _ _ _)
  case resetRegisters => exact absurd rfl hreset
  case setLed => exact absurd rfl (hled _ _ _ _)
  case resetLedAt => exact absurd rfl (hledAt _ _ _)
  case setRow => exact absurd rfl (hrow _ _)
  case setLetter => exact absurd rfl (hletter _ _)
  case setWord => exact absurd rfl (hword _)
  case cycleSteps => exact absurd rfl hsteps
  case cycleSet => exact absurd rfl hcycle
  case sessionSend => exact (sessionSend_keeps e).lat
  case rawExchange => exact (rawExchange_keeps e).1.lat
  case countDevices =>
    obtain ⟨u, -, hl, -, ⟨m, rfl⟩ | ⟨m, rfl⟩⟩ := countDevices_keeps e <;> exact hl
  case loadGlyph => exact (loadGlyph_sameMirrorAndLine e).lat
  all_goals
    obtain rfl := Host.Outcome.next.inj e
    rfl

end Sys2Proof.Machine
end

section
/-! PROOFS. Every command and step answers, and COUNT_DEVICES with and without a chain that returns its sentinel
(20_memory.md R51, R52; R107, R108, R179). -/

namespace Sys2Proof.Machine
open Sys2Proof

/-! ### Totality -/

theorem step_answers (s : State) : ∃ t, step s = .next t := by
  unfold step
  split
  · exact ⟨_, rfl⟩
  · exact ⟨_, advance_undisturbed _⟩

/-- Settles O10: each command's meaning answers (`exec_kept`); in a step an input lands or the transition is taken, which
answers too. -/
theorem everyStepAnswers : Obligations.EveryStepAnswers := by
  refine ⟨fun i s => ?_, step_answers⟩
  obtain ⟨t, h, -⟩ := exec_kept i s
  exact ⟨t, h⟩

/-! ### COUNT_DEVICES without a sentinel -/

/-- The draws after a line activity are those that follow the sixteen of each frame it sent. -/
theorem Shows.drawnFrame {s t : State} {acts : List LineAct} (h : Shows s t acts) (off : Nat) :
    t.drawnFrame off = s.drawnFrame (16 * sentCount acts + off) :=
  drawnFrame_congr h.dinIn h.drawn off

/-- From `s` to `t` COUNT_DEVICES has made `n` dummy exchanges and is still in its loop (R107, R108(c)). -/
structure CountsOn (s t : State) (n : Nat) : Prop where
  counting : ∃ c k, t.activity = .counting c k
  draws : ∀ off, t.drawnFrame off = s.drawnFrame (16 * n + off)
  en : t.en = s.en
  result : t.result = s.result
  lat : t.lat = s.lat
  pend : t.pend = s.pend
  inbox : t.inbox = s.inbox

theorem CountsOn.trans {s t u : State} {n m : Nat} (h : CountsOn s t n) (k : CountsOn t u m) : CountsOn s u (n + m) where
  counting := k.counting
  draws off := by rw [k.draws, h.draws, Nat.mul_add, Nat.add_assoc]
  en := k.en.trans h.en
  result := k.result.trans h.result
  lat := k.lat.trans h.lat
  pend := k.pend.trans h.pend
  inbox := k.inbox.trans h.inbox

/-- That BUSY has fallen where a transition begins is nothing the loop is told by (log 1). -/
theorem CountsOn.of_retire {s t : State} {n : Nat} (h : CountsOn s.retire t n) : CountsOn s t n :=
  ⟨h.counting, h.draws, h.en, h.result, h.lat, h.pend, h.inbox⟩

/-- One transition's worth of the loop without a sentinel. -/
theorem countLoop_countsOn (b : Nat) (c : Word) (s : State) (h : ∀ k < b, dataOf (s.drawnFrame (16 * k)) ≠ 0xFF) :
    CountsOn s (countLoop b c s) b := by
  obtain ⟨hcounting, hen, hshows, -, hlat, hpend, hresult, hinbox⟩ := countLoop_goesOn b c s h
  refine ⟨⟨_, _, hcounting⟩, fun off => ?_, hen, hresult, hlat, hpend, hinbox⟩
  rw [hshows.drawnFrame, sentCount, List.countP_replicate, if_pos rfl]

theorem busy_of_counting {s : State} {c : Word} {k : Nat} (h : s.activity = .counting c k) : s.busy = true := by
  rw [State.busy, h]

/-- With no input to come, `m` steps of the loop without a sentinel are `m` transitions of `Config.countBudget` dummy
exchanges each. -/
theorem run_countsOn (m : Nat) : ∀ s : State, s.inbox = [] → (∃ c k, s.activity = .counting c k) →
    (∀ k < Config.countBudget * m, dataOf (s.drawnFrame (16 * k)) ≠ 0xFF) →
    ∃ t, core.run m s = .next t ∧ CountsOn s t (Config.countBudget * m) := by
  induction m with
  | zero => exact fun s _ ha _ => ⟨s, rfl, ha, fun off => by simp, rfl, rfl, rfl, rfl, rfl⟩
  | succ m ih =>
    intro s hi ⟨c, k, ha⟩ hn
    have hstep : step s = .next (countLoop Config.countBudget c s.retire) := by
      rw [step_undisturbed (.inl hi) (busy_of_counting ha), advance, ha]
    have hv := (countLoop_countsOn Config.countBudget c s.retire fun j hj =>
      hn j (hj.trans_le (Nat.le_mul_of_pos_right _ m.succ_pos))).of_retire
    generalize countLoop Config.countBudget c s.retire = v at hstep hv
    obtain ⟨t, hrun, ht⟩ := ih v (hv.inbox.trans hi) hv.counting fun j hj => by
      rw [hv.draws, ← Nat.mul_add]
      exact hn _ (by rw [Nat.mul_succ]; omega)
    refine ⟨t, (run_succ_of_step hstep m).trans hrun, ?_⟩
    rw [Nat.mul_succ, Nat.add_comm]
    exact hv.trans ht

/-- The start of COUNT_DEVICES leaves the host's side, the configuration and RESULT alone, and opens the line without
touching the mirror (R107). -/
theorem countStart_quiet (s : State) : Quiet s (countStart s) := (openLine_quiet s).trans (exchange_quiet _ _)

theorem countStart_en (s : State) : (countStart s).en = true := by rw [countStart, exchange_eq]; rfl

theorem countStart_lat (s : State) : (countStart s).lat = s.lat := by rw [countStart, exchange_eq]; rfl

theorem countStart_pend (s : State) : (countStart s).pend = s.pend := by rw [countStart, exchange_eq]; rfl

/-- The `k`-th dummy exchange, counted from 0, is the exchange after the sentinel's and `k` others. -/
theorem countStart_dummyFrame (s : State) (k : Nat) :
    (countStart s).drawnFrame (16 * k) = s.drawnFrame (16 * (k + 1)) := by
  rw [countStart, countStart_drawnFrame, Nat.mul_succ, Nat.add_comm]

theorem exec_countDevices (s : State) :
    exec .countDevices s = .next (countLoop Config.countBudget 0 (countStart s)) := rfl

theorem decode_countDevices (n : Nat) : decode n (encode .countDevices) = .ok .countDevices := by
  have h : decodeWord (encode .countDevices) = .ok .countDevices := by decide
  rw [decode_eq h, Instr.wf, if_pos rfl]

/-- Settles O31: the first step brings the command into its loop, where each later step leaves it (`run_countsOn`). -/
theorem countDevicesRunsOnWithoutSentinel : Obligations.CountDevicesRunsOnWithoutSentinel := by
  intro s m hi ⟨k, ha⟩ hn
  have hstep : step s = .next (countLoop Config.countBudget 0 (countStart s.retire)) :=
    stepRunsDecodedCommand s _ k _ ha (.inl hi) (decode_countDevices _)
  have hdummy : ∀ j < Config.countBudget * (m + 1), dataOf ((countStart s.retire).drawnFrame (16 * j)) ≠ 0xFF := by
    intro j hj
    rw [countStart_dummyFrame]
    exact hn (j + 1) j.succ_pos hj
  have hv := countLoop_countsOn Config.countBudget 0 (countStart s.retire) fun j hj =>
    hdummy j (hj.trans_le (Nat.le_mul_of_pos_right _ m.succ_pos))
  generalize countLoop Config.countBudget 0 (countStart s.retire) = v at hstep hv
  have quiet := countStart_quiet s.retire
  obtain ⟨t, hrun, ht⟩ := run_countsOn m v (hv.inbox.trans (quiet.host.inbox.trans hi)) hv.counting fun j hj => by
    rw [hv.draws, ← Nat.mul_add]
    exact hdummy _ (by rw [Nat.mul_succ]; omega)
  have hall := hv.trans ht
  obtain ⟨c, e, hcounting⟩ := hall.counting
  exact ⟨t, (run_succ_of_step hstep m).trans hrun, busy_of_counting hcounting,
    hall.en.trans (countStart_en _), hall.result.trans quiet.result, hall.lat.trans (countStart_lat _),
    hall.pend.trans (countStart_pend _)⟩

/-! ### COUNT_DEVICES on a chain -/

theorem wireBits_length (f : Frame) : (wireBits f).length = 16 := by
  rw [wireBits, List.length_map, List.length_range]

/-- Sixteen samples that are the bits of a frame in wire order are received as that frame (R35, R94). -/
theorem drawnFrame_of_wireBits {s : State} {off : Nat} {f : Frame} {rest : List Bool}
    (h : s.dinIn.drop off = wireBits f ++ rest) : s.drawnFrame off = f := by
  apply BitVec.eq_of_getLsbD_eq
  intro i hi
  have hj : 15 - i < 16 := by omega
  have hbit : s.dinIn[off + (15 - i)]? = some (f.getLsbD i) := by
    rw [← List.getElem?_drop, h, List.getElem?_append_left (by rwa [wireBits_length])]
    simp [wireBits, hj, show 15 - (15 - i) = i by omega]
  have hdraw := drawnFrame_getLsbD s off hj
  rw [show 15 - (15 - i) = i by omega] at hdraw
  rw [hdraw, State.draw, hbit, Option.getD_some]

theorem flatMap_wireBits_length (fs : List Frame) : (fs.flatMap wireBits).length = 16 * fs.length := by
  simp [List.length_flatMap, wireBits_length, Nat.mul_comm]

theorem drop_flatMap_wireBits (fs : List Frame) (k : Nat) :
    (fs.flatMap wireBits).drop (16 * k) = (fs.drop k).flatMap wireBits := by
  induction k generalizing fs with
  | zero => rfl
  | succ k ih =>
    cases fs with
    | nil => simp
    | cons f fs =>
      rw [List.flatMap_cons, Nat.mul_succ, Nat.add_comm, ← List.drop_drop, List.drop_left' (wireBits_length f), ih,
        List.drop_succ_cons]

/-- Samples that are frames in wire order are received as these frames, one per exchange. -/
theorem drawnFrame_of_frames {s : State} {fs : List Frame} (h : s.dinIn = fs.flatMap wireBits) {k : Nat}
    (hk : k < fs.length) : s.drawnFrame (16 * k) = fs[k] := by
  refine drawnFrame_of_wireBits (rest := (fs.drop (k + 1)).flatMap wireBits) ?_
  rw [h, drop_flatMap_wireBits, List.drop_eq_getElem_cons hk, List.flatMap_cons]

/-- A chain returns what its registers hold, farthest device first, and then what was sent into it (R51). -/
theorem chainReturns_eq (q out : List Frame) : chainReturns q out = (q.reverse ++ out).take out.length := by
  induction out generalizing q with
  | nil => simp [chainReturns]
  | cons f out ih =>
    have hpath : q.reverse ++ f :: out = (f :: q).reverse ++ out := by simp
    have hlast : (f :: q).reverse = (f :: q).getLast (by simp) :: (f :: q).dropLast.reverse := by
      conv_lhs => rw [← List.dropLast_append_getLast (List.cons_ne_nil f q), List.reverse_append]
      rfl
    rw [chainReturns, ih, hpath, hlast, List.cons_append, List.length_cons, List.take_succ_cons]

/-- Sent into a chain of M devices with M frames behind it, a frame comes back last. -/
theorem chainReturns_replicate (q : List Frame) (f g : Frame) :
    chainReturns q (f :: List.replicate q.length g) = q.reverse ++ [f] := by
  have hlen : (f :: List.replicate q.length g).length = q.reverse.length + 1 := by simp
  rw [chainReturns_eq, hlen, List.take_length_add_append, List.take_succ_cons, List.take_zero]

/-- COUNT_DEVICES where the dummy exchange number `n + 1` is the first to return a low byte 0xFF (R107). -/
theorem exec_countDevices_ends {s : State} {n : Nat} (hn : n < Config.countBudget)
    (hf : dataOf (s.drawnFrame (16 * (n + 1))) = 0xFF)
    (hno : ∀ k < n, dataOf (s.drawnFrame (16 * (k + 1))) ≠ 0xFF) :
    exec .countDevices s =
      .next { closeLine (dummies (n + 1) (countStart s)) with result := BitVec.ofNat 32 (n + 1) } := by
  have hcount : (0 : Word) + BitVec.ofNat 32 (n + 1) = BitVec.ofNat 32 (n + 1) := BitVec.zero_add _
  rw [exec_countDevices, countLoop_ends n _ 0 _ hn (by rwa [countStart_dummyFrame])
    (fun k hk => by rw [countStart_dummyFrame]; exact hno k hk), hcount]

theorem countDevices_draws (s : State) (n : Nat) : (dummies n (countStart s)).dinIn = s.dinIn.drop (16 * (n + 1)) := by
  have h := ((countStart_shows s).trans (dummies_shows n (countStart s))).dinIn
  rwa [sentCount_append, sentCount, sentCount, List.countP_replicate, if_pos rfl, Nat.add_comm] at h

/-- Settles O32: the frames received are the M the chain held, none of which ends the count, and then the sentinel
(`chainReturns_replicate`), which the M-th dummy exchange returns. -/
theorem countDevicesMeasuresTheChain : Obligations.CountDevicesMeasuresTheChain := by
  intro s q h1 h256 hq hdin
  obtain ⟨n, hn⟩ : ∃ n, q.length = n + 1 := ⟨q.length - 1, by omega⟩
  have hdin : s.dinIn = (q.reverse ++ [0x00FF]).flatMap wireBits := by
    rw [hdin, chainDin, chainReturns_replicate]
  have hlen : (q.reverse ++ [(0x00FF : Frame)]).length = n + 2 := by simp [hn]
  have hsentinel : s.drawnFrame (16 * (n + 1)) = 0x00FF := by
    rw [drawnFrame_of_frames hdin (by omega), List.getElem_append_right (by simp [hn])]
    simp [hn]
  have hstored : ∀ k < n, dataOf (s.drawnFrame (16 * (k + 1))) ≠ 0xFF := by
    intro k hk
    have hk : k + 1 < q.reverse.length := by rw [List.length_reverse]; omega
    rw [drawnFrame_of_frames hdin (by omega), List.getElem_append_left hk]
    exact hq _ (List.mem_reverse.mp (List.getElem_mem hk))
  refine ⟨_, exec_countDevices_ends (show n < 256 by omega) (by rw [hsentinel]; decide) hstored, ?_, ?_, rfl, ?_⟩
  · show (dummies (n + 1) (countStart s)).activity = _
    rw [dummies_eq]
    exact (countStart_quiet s).host.activity
  · show BitVec.ofNat 32 (n + 1) = _
    rw [hn]
  · show (dummies (n + 1) (countStart s)).dinIn = []
    rw [countDevices_draws, List.drop_eq_nil_iff, hdin, flatMap_wireBits_length, hlen]

end Sys2Proof.Machine
end

section
/-! PROOFS. The mirror-writing commands write the same values into the same registers when they are issued again
(20_memory.md R42). -/

namespace Sys2Proof.Machine
open Sys2Proof

/-! ### Commands issued twice -/

/-- LAT and PEND are the same. -/
def SameMirror (t u : State) : Prop := u.lat = t.lat ∧ u.pend = t.pend

/-- Mirrors of one size that read the same are the same. -/
theorem SameMirror.of_reads {t u : State} (ht : t.Sized) (hu : u.Sized) (hp : u.par = t.par)
    (hl : ∀ i < t.par.n, ∀ a, u.latched i a = t.latched i a) (hq : ∀ i < t.par.n, u.pending i = t.pending i) :
    SameMirror t u :=
  ⟨lat_ext ht hu hp hl, pend_ext ht hu hp hq⟩

/-- Issued twice in a row from `s`, the command leaves the mirror as issued once (R42). -/
def Repeats (i : Instr) (s : State) : Prop := ∃ t u, exec i s = .next t ∧ exec i t = .next u ∧ SameMirror t u

/-! ### One register of one device -/

/-- A register's data byte read, changed by `f` and written back: the read is the column byte's (R140, R125). -/
def rewriteByte (scr a : Byte) (f : Byte → Byte) (s : State) : State :=
  writeChip scr.toNat a (f (s.lowByteAt scr a)) s

/-- The same frame written again finds every register it writes as it leaves it. -/
theorem writeChip_twice (k : Nat) (a d : Byte) {s : State} (hr : s.Ready) :
    SameMirror (writeChip k a d s) (writeChip k a d (writeChip k a d s)) := by
  have e := writeChip_effect k a d hr.sized hr.clk
  have ht := e.ready hr
  have e' := writeChip_effect k a d ht.sized ht.clk
  have hp := e.host.par
  refine .of_reads ht.sized (e'.sized ht.sized) e'.host.par (fun i hi b => ?_) fun i hi => ?_
  · rw [writeChip_latched k a d ht.sized hi]
    rw [hp] at hi
    rw [writeChip_latched k a d hr.sized hi]
    split
    · split <;> rfl
    · split <;> rfl
  · rw [writeChip_pending k a d ht.sized hi]
    rw [hp] at hi
    rw [writeChip_pending k a d hr.sized hi]

/-- A column byte reads as written, or, of a device or an address out of range, as before. -/
theorem lowByteAt_writeChip (scr a d : Byte) {s : State} (hr : s.Ready) :
    (writeChip scr.toNat a d s).lowByteAt scr a = d ∨
      (writeChip scr.toNat a d s).lowByteAt scr a = s.lowByteAt scr a := by
  have hp := (writeChip_effect scr.toNat a d hr.sized hr.clk).host.par
  unfold State.lowByteAt
  rw [hp]
  split
  · rw [writeChip_latched _ _ _ hr.sized (by omega), if_pos (by omega)]
    split
    · exact .inl (dataOf_pack a d)
    · exact .inr rfl
  · exact .inr rfl

/-- A change that does nothing the second time gives the same byte whether it starts from its own result or again from where
it started. -/
theorem apply_of_idempotent {f : Byte → Byte} (hf : ∀ x, f (f x) = f x) {x y : Byte} (h : y = f x ∨ y = x) :
    f y = f x := by
  rcases h with rfl | rfl
  · exact hf x
  · rfl

theorem rewriteByte_twice (scr a : Byte) {f : Byte → Byte} (hf : ∀ x, f (f x) = f x) {s : State} (hr : s.Ready) :
    SameMirror (rewriteByte scr a f s) (rewriteByte scr a f (rewriteByte scr a f s)) := by
  have same := apply_of_idempotent hf (lowByteAt_writeChip scr a (f (s.lowByteAt scr a)) hr)
  unfold rewriteByte
  rw [same]
  exact writeChip_twice _ _ _ hr

theorem rewriteByte_par (scr a : Byte) (f : Byte → Byte) (s : State) : (rewriteByte scr a f s).par = s.par :=
  (writeChip_quiet ..).host.par

/-- A command whose whole meaning is one idempotent change of a column byte. -/
theorem repeats_of_rewriteByte {i : Instr} (scr : Byte) (a : Params → Byte) (f : Byte → Byte)
    (hf : ∀ x, f (f x) = f x) (h : ∀ s, exec i s = .next (rewriteByte scr (a s.par) f s)) {s : State} (hr : s.Ready) : Repeats i s := by
  refine ⟨_, _, h s, h _, ?_⟩
  rw [rewriteByte_par]
  exact rewriteByte_twice _ _ hf hr

theorem repeats_of_id {i : Instr} (h : ∀ s, exec i s = .next s) (s : State) : Repeats i s :=
  ⟨s, s, h s, h s, rfl, rfl⟩

theorem setRegister_repeats (scr adr dat : Byte) {s : State} (hr : s.Ready) : Repeats (.setRegister scr adr dat) s :=
  repeats_of_rewriteByte scr (fun _ => adr) (fun _ => dat) (fun _ => rfl) (fun _ => rfl) hr

theorem or_or_self (x m : Byte) : x ||| m ||| m = x ||| m := by rw [BitVec.or_assoc, BitVec.or_self]

theorem and_and_self (x m : Byte) : x &&& m &&& m = x &&& m := by rw [BitVec.and_assoc, BitVec.and_self]

theorem setLed_repeats (scr : Byte) (coord : Bool) (adr dat : Byte) {s : State} (hr : s.Ready) :
    Repeats (.setLed scr coord adr dat) s := by
  cases ha : inOneToEight adr
  case false => exact repeats_of_id (fun s => by simp [exec, execSetLed, ha]) s
  case true =>
    cases coord
    case false =>
      exact repeats_of_rewriteByte scr (fun p => col p adr.toNat) (fun _ => dat) (fun _ => rfl)
        (fun s => by simp [exec, execSetLed, ha, rewriteByte]) hr
    case true =>
      cases hd : inOneToEight dat
      case false => exact repeats_of_id (fun s => by simp [exec, execSetLed, ha, hd]) s
      case true =>
        exact repeats_of_rewriteByte scr (fun p => col p adr.toNat) (· ||| rowMask dat)
          (fun x => or_or_self x _) (fun s => by simp [exec, execSetLed, ha, hd, rewriteByte]) hr

theorem resetLedAt_repeats (scr adr dat : Byte) {s : State} (hr : s.Ready) : Repeats (.resetLedAt scr adr dat) s := by
  cases ha : inOneToEight adr
  case false => exact repeats_of_id (fun s => by simp [exec, execResetLedAt, ha]) s
  case true =>
    cases hd : inOneToEight dat
    case false =>
      exact repeats_of_rewriteByte scr (fun p => col p adr.toNat) (fun _ => 0) (fun _ => rfl)
        (fun s => by simp [exec, execResetLedAt, ha, hd, rewriteByte]) hr
    case true =>
      exact repeats_of_rewriteByte scr (fun p => col p adr.toNat) (· &&& ~~~(rowMask dat))
        (fun x => and_and_self x _) (fun s => by simp [exec, execResetLedAt, ha, hd, rewriteByte]) hr

/-! ### The eight columns of a device -/

/-- The same bytes written again to the same columns. -/
theorem ColumnWrites.twice {s t u : State} {k c : Nat} {cs : List Nat} {byte byte' : Nat → Byte} (hr : s.Ready)
    (h : ColumnWrites s t k cs byte) (g : ColumnWrites t u k cs byte') (hlast : cs.getLast? = some c)
    (same : ∀ c ∈ cs, byte' c = byte c) : SameMirror t u := by
  have hp := h.effect.host.par
  have ht := h.effect.ready hr
  refine .of_reads ht.sized (g.effect.sized ht.sized) g.effect.host.par (fun i hi a => ?_) fun i hi => ?_
  · obtain ⟨own', other'⟩ := g.columns i hi
    obtain ⟨own, other⟩ := h.columns i (hp ▸ hi)
    rw [hp] at own'
    by_cases hk : i + 1 = k
    · by_cases ha : ∃ c ∈ cs, a = col s.par c
      · obtain ⟨c, hc, rfl⟩ := ha
        rw [(own' hk).1 c hc, (own hk).1 c hc, same c hc]
      · exact (own' hk).2 a fun c hc e => ha ⟨c, hc, e⟩
    · by_cases ha : a = 0
      · rw [ha, (other' hk).1, (other hk).1]
      · exact (other' hk).2 a ha
  · rw [g.pending i hi c hlast, h.pending i (hp ▸ hi) c hlast, hp, same c (List.mem_of_getLast? hlast)]

/-- A column byte reads as written, or, of a device out of range, as before. -/
theorem ColumnWrites.lowByteAt {s t : State} {scr : Byte} {cs : List Nat} {byte : Nat → Byte}
    (h : ColumnWrites s t scr.toNat cs byte) {c : Nat} (hc : c ∈ cs) :
    t.lowByteAt scr (col s.par c) = byte c ∨ t.lowByteAt scr (col s.par c) = s.lowByteAt scr (col s.par c) := by
  unfold State.lowByteAt
  rw [h.effect.host.par]
  split
  · obtain ⟨own, -⟩ := h.columns (scr.toNat - 1) (by omega)
    rw [(own (by omega)).1 c hc]
    exact .inl (dataOf_pack _ _)
  · exact .inr rfl

theorem setRow_repeats (scr dat : Byte) {s : State} (hl : s.par.Legal) (hr : s.Ready) :
    Repeats (.setRow scr dat) s := by
  refine ⟨_, _, rfl, rfl, ?_⟩
  have h := setRow_columns hl hr scr dat
  have g := setRow_columns (h.effect.host.par.symm ▸ hl) (h.effect.ready hr) scr dat
  refine h.twice hr g (c := 8) rfl fun c hc => ?_
  rw [h.effect.host.par]
  exact apply_of_idempotent (f := (· ||| (BitVec.ofBool (dat.getLsbD (c - 1))).setWidth 8)) (fun x => or_or_self x _)
    (h.lowByteAt hc)

theorem setLetterOn_twice (k : Nat) (g : Glyph) {s : State} (hl : s.par.Legal) (hr : s.Ready) :
    SameMirror (setLetterOn k g s) (setLetterOn k g (setLetterOn k g s)) := by
  have h := setLetterOn_columns hl hr k g
  have hp := h.effect.host.par
  have h' := setLetterOn_columns (hp.symm ▸ hl) (h.effect.ready hr) k g
  exact h.twice hr h' (c := 1) rfl fun c _ => by rw [hp]

theorem setLetter_repeats (scr dat : Byte) {s : State} (hl : s.par.Legal) (hr : s.Ready) :
    Repeats (.setLetter scr dat) s := by
  by_cases hd : dat.toNat < s.par.n
  · have q := setLetterOn_quiet scr.toNat (s.glyphAt dat.toNat) s
    have once : exec (.setLetter scr dat) s = .next (setLetterOn scr.toNat (s.glyphAt dat.toNat) s) := if_pos hd
    refine ⟨_, _, once, if_pos (q.host.par.symm ▸ hd), ?_⟩
    rw [glyphAt_congr q.config.glyph]
    exact setLetterOn_twice _ _ hl hr
  · exact ⟨illegalWord s, illegalWord s, if_neg hd, if_neg hd, rfl, rfl⟩

/-! ### The devices of a word -/

theorem WordWritten.twice {s t u : State} {len k : Nat} (hr : s.Ready) (h : WordWritten s t len k)
    (g : WordWritten t u len k) : SameMirror t u := by
  have hp := h.eff.host.par
  have ht := h.eff.ready hr
  have hglyph : ∀ j, t.glyphAt j = s.glyphAt j := glyphAt_congr h.eff.config.glyph
  have cols := g.cols
  have pend := g.pend
  have noop := g.noop
  have rest := g.rest
  simp only [hp, hglyph] at cols pend noop rest
  refine .of_reads ht.sized (g.eff.sized ht.sized) g.eff.host.par (fun i hi a => ?_) fun i hi => ?_
  all_goals rw [hp] at hi
  · by_cases ha : a = 0
    · rw [ha, noop i hi, h.noop i hi]
      split <;> rfl
    · by_cases hc : ∃ c, 1 ≤ c ∧ c ≤ 8 ∧ a = col s.par c
      · obtain ⟨c, h1, h8, rfl⟩ := hc
        rw [cols i hi c h1 h8, h.cols i hi c h1 h8]
        split <;> rfl
      · exact rest i hi a ha fun c h1 h8 e => hc ⟨c, h1, h8, e⟩
  · rw [pend i hi, h.pend i hi]

theorem setWord_repeats (dat : Byte) {s : State} (hl : s.par.Legal) (hr : s.Ready) : Repeats (.setWord dat) s := by
  refine ⟨_, _, rfl, rfl, ?_⟩
  have hp : (wordTo (min dat.toNat s.par.n) (min dat.toNat s.par.n) s).par = s.par := (wordTo_quiet ..).host.par
  rw [hp]
  generalize min dat.toNat s.par.n = len at hp
  cases len with
  | zero => exact ⟨rfl, rfl⟩
  | succ k =>
    have h := wordTo_written s hl hr (k + 1) (k + 1) k.succ_pos (le_refl _)
    exact h.twice hr (wordTo_written _ (hp.symm ▸ hl) (h.eff.ready hr) (k + 1) (k + 1) k.succ_pos (le_refl _))

/-! ### The reset of the registers -/

/-- The mirror RESET_REGISTERS leaves: RV of each address in every device, and no-op frames pending (R131, R132). -/
structure RegistersReset (p : Params) (t : State) : Prop where
  par : t.par = p
  ready : t.Ready
  latched : ∀ i < p.n, ∀ a : Byte, t.latched i a = if a.toNat < 16 then pack a (resetByte p a) else 0
  pending : ∀ i < p.n, t.pending i = 0

theorem resetPasses_passed {s : State} (hr : s.Ready) : Passed s ((List.range 16).foldl resetPass s) [] := by
  have start : Passed s s (List.range 16) :=
    ⟨rfl, hr, ⟨[], rfl⟩, fun i _ a ha h => absurd (List.mem_range.mpr ha) h, fun h => absurd h (by decide)⟩
  rw [List.range_eq_range', List.range'_succ] at start ⊢
  exact (foldl_chainEffect (resetPass_passed s) _ _ _ start).2

theorem Passed.latched {s t : State} (h : Passed s t []) {i : Nat} (hi : i < s.par.n) {a : Byte} (ha : a.toNat < 16) :
    t.latched i a = pack a (resetByte s.par a) := by
  have e : BitVec.ofNat 8 a.toNat = a := by simp
  simpa only [e] using h.lat i hi a.toNat ha List.not_mem_nil

theorem resetRegisters_registersReset {s : State} (hl : s.par.Legal) (hr : s.Ready) :
    RegistersReset s.par (flush s.par.n ((List.range 16).foldl resetPass s)) := by
  have passed := resetPasses_passed hr
  generalize (List.range 16).foldl resetPass s = v at passed
  have hp := passed.par
  have hzero : ∀ i < v.par.n, v.latched i 0 = 0 := by
    intro i hi
    rw [passed.latched (hp ▸ hi) (by decide)]
    exact (congrArg (pack 0) (resetByte_zero hl)).trans pack_zero
  have start : Flushed v v (pack 15 (resetByte s.par 15)) 0 :=
    ⟨rfl, passed.ready, fun i hi => passed.pend rfl i (hp ▸ hi), hzero, fun _ _ _ _ => rfl⟩
  have held : ∀ i < v.par.n, v.latched i (addrOf (pack 15 (resetByte s.par 15))) = pack 15 (resetByte s.par 15) := by
    intro i hi
    rw [addrOf_pack, passed.latched (hp ▸ hi) (by decide)]
  have flushed := (flush_flushed held (by rw [addrOf_pack]; decide) s.par.n 0 v start).1
  refine ⟨flushed.par.trans hp, flushed.ready, fun i hi a => ?_, fun i hi => ?_⟩
  · have hi' : i < v.par.n := hp.symm ▸ hi
    have unchanged : (flush s.par.n v).latched i a = v.latched i a := by
      by_cases ha : a = 0
      · rw [ha, flushed.zero i hi', hzero i hi']
      · exact flushed.lat i hi' a ha
    rw [unchanged]
    split
    · rename_i ha
      exact passed.latched hi ha
    · exact latched_high v i (by omega)
  · rw [flushed.pend i (hp.symm ▸ hi), if_pos (by omega)]

theorem RegistersReset.same {p : Params} {t u : State} (h : RegistersReset p t) (k : RegistersReset p u) :
    SameMirror t u := by
  obtain rfl := h.par
  exact .of_reads h.ready.sized k.ready.sized k.par (fun i hi a => by rw [k.latched i hi, h.latched i hi])
    fun i hi => by rw [k.pending i hi, h.pending i hi]

theorem resetRegisters_repeats {s : State} (hl : s.par.Legal) (hr : s.Ready) : Repeats .resetRegisters s := by
  refine ⟨_, _, rfl, rfl, ?_⟩
  have h := resetRegisters_registersReset hl hr
  have k := resetRegisters_registersReset (h.par.symm ▸ hl) h.ready
  rw [h.par] at k ⊢
  exact h.same k

/-- Settles O56: each command writes registers that it does not read, or reads a byte it changes idempotently. -/
theorem writesAreIdempotentOnMirror : Obligations.WritesAreIdempotentOnMirror := by
  intro scr adr dat coord i hi s h
  have hr := h.ready
  simp only [List.mem_cons, List.not_mem_nil, or_false] at hi
  rcases hi with rfl | rfl | rfl | rfl | rfl | rfl | rfl
  · exact setRegister_repeats scr adr dat hr
  · exact setLed_repeats scr coord adr dat hr
  · exact resetLedAt_repeats scr adr dat hr
  · exact setRow_repeats scr dat h.legal hr
  · exact setLetter_repeats scr dat h.legal hr
  · exact setWord_repeats dat h.legal hr
  · exact resetRegisters_repeats h.legal hr

end Sys2Proof.Machine
end

section
/-! PROOFS. The command word: a command is read back from its word, a word that is read is the word of its command, and
which words are illegal (30_encoding.md R60 to R66, R69). -/

namespace Sys2Proof
open Machine (specRows)

/-! ### The fields of a word -/

theorem opField_matchWord (op : BitVec 6) : opField (matchWord op) = op := by revert op; decide
theorem sField_matchWord (op : BitVec 6) : sField (matchWord op) = 0 := by revert op; decide
theorem hField_matchWord (op : BitVec 6) : hField (matchWord op) = false := by revert op; decide
theorem kField_matchWord (op : BitVec 6) : kField (matchWord op) = false := by revert op; decide
theorem aField_matchWord (op : BitVec 6) : aField (matchWord op) = 0 := by revert op; decide
theorem dField_matchWord (op : BitVec 6) : dField (matchWord op) = 0 := by revert op; decide

/-- The fields of R61 cover the word. -/
theorem cmdWord_fields (w : Word) :
    cmdWord (opField w) (sField w) (hField w) (kField w) (aField w) (dField w) = w := by
  apply BitVec.eq_of_getLsbD_eq
  intro i hi
  interval_cases i <;> simp [cmdWord, matchWord, opField, sField, hField, kField, aField, dField]

/-- Field F covers the fields A and D (R61, R53). -/
theorem cmdWord_addrOf_dataOf (op : BitVec 6) (s : Byte) (f : Frame) :
    cmdWord op s false false (Machine.addrOf f) (Machine.dataOf f) = frameWord op s f := by
  apply BitVec.eq_of_getLsbD_eq
  intro i hi
  interval_cases i <;> simp [cmdWord, frameWord, matchWord, Machine.addrOf, Machine.dataOf]

theorem addrOf_fField (w : Word) : Machine.addrOf (fField w) = aField w := by
  apply BitVec.eq_of_getLsbD_eq
  intro i hi
  simp [Machine.addrOf, fField, aField, hi]

theorem dataOf_fField (w : Word) : Machine.dataOf (fField w) = dField w := by
  apply BitVec.eq_of_getLsbD_eq
  intro i hi
  simp [Machine.dataOf, fField, dField, hi]

/-! ### What a match says about the fields

A word that matches a row under the mask `m` has the row's opcode, and zero in each field that `m` covers (R62). -/

theorem opField_mask (f : Format) : opField f.mask = BitVec.allOnes 6 := by cases f <;> rfl

section
variable {w m : Word} {op : BitVec 6} (h : w &&& m = matchWord op)
include h

theorem extract_of_mask {st len : Nat} (c : m.extractLsb' st len = BitVec.allOnes len) :
    w.extractLsb' st len = (matchWord op).extractLsb' st len := by
  rw [← h, BitVec.extractLsb'_and, c, BitVec.and_allOnes]

theorem getLsbD_of_mask {j : Nat} (c : m.getLsbD j = true) : w.getLsbD j = (matchWord op).getLsbD j := by
  rw [← h, BitVec.getLsbD_and, c, Bool.and_true]

theorem opField_of_mask (c : opField m = BitVec.allOnes 6) : opField w = op :=
  (extract_of_mask h c).trans (opField_matchWord op)

theorem sField_of_mask (c : sField m = BitVec.allOnes 8) : sField w = 0 :=
  (extract_of_mask h c).trans (sField_matchWord op)

theorem hField_of_mask (c : hField m = true) : hField w = false :=
  (getLsbD_of_mask h c).trans (hField_matchWord op)

theorem kField_of_mask (c : kField m = true) : kField w = false :=
  (getLsbD_of_mask h c).trans (kField_matchWord op)

theorem aField_of_mask (c : aField m = BitVec.allOnes 8) : aField w = 0 :=
  (extract_of_mask h c).trans (aField_matchWord op)

theorem dField_of_mask (c : dField m = BitVec.allOnes 8) : dField w = 0 :=
  (extract_of_mask h c).trans (dField_matchWord op)

end

/-! ### The word of each format, from the fields the format names (R62) -/

section
variable {w : Word} {op : BitVec 6}

theorem cmdWord_of_mask {m : Word} (h : w &&& m = matchWord op) (c : opField m = BitVec.allOnes 6) :
    cmdWord op (sField w) (hField w) (kField w) (aField w) (dField w) = w := by
  rw [← opField_of_mask h c, cmdWord_fields]

theorem frameWord_of_mask {m : Word} (h : w &&& m = matchWord op) (c : opField m = BitVec.allOnes 6)
    (ch : hField m = true) (ck : kField m = true) : frameWord op (sField w) (fField w) = w := by
  rw [← cmdWord_addrOf_dataOf, addrOf_fField, dataOf_fField]
  simpa only [hField_of_mask h ch, kField_of_mask h ck] using cmdWord_of_mask h c

theorem word_of_mask_N (h : w &&& Format.N.mask = matchWord op) : cmdWord op 0 false false 0 0 = w := by
  simpa only [sField_of_mask h rfl, hField_of_mask h rfl, kField_of_mask h rfl, aField_of_mask h rfl,
    dField_of_mask h rfl] using cmdWord_of_mask h rfl

theorem word_of_mask_F (h : w &&& Format.F.mask = matchWord op) : frameWord op 0 (fField w) = w := by
  simpa only [sField_of_mask h rfl] using frameWord_of_mask h rfl rfl rfl

theorem word_of_mask_S (h : w &&& Format.S.mask = matchWord op) : cmdWord op (sField w) false false 0 0 = w := by
  simpa only [hField_of_mask h rfl, kField_of_mask h rfl, aField_of_mask h rfl, dField_of_mask h rfl]
    using cmdWord_of_mask h rfl

theorem word_of_mask_SF (h : w &&& Format.SF.mask = matchWord op) : frameWord op (sField w) (fField w) = w :=
  frameWord_of_mask h rfl rfl rfl

theorem word_of_mask_SA (h : w &&& Format.SA.mask = matchWord op) :
    cmdWord op (sField w) false false (aField w) 0 = w := by
  simpa only [hField_of_mask h rfl, kField_of_mask h rfl, dField_of_mask h rfl] using cmdWord_of_mask h rfl

theorem word_of_mask_SAD (h : w &&& Format.SAD.mask = matchWord op) :
    cmdWord op (sField w) false false (aField w) (dField w) = w := by
  simpa only [hField_of_mask h rfl, kField_of_mask h rfl] using cmdWord_of_mask h rfl

theorem word_of_mask_SKAD (h : w &&& Format.SKAD.mask = matchWord op) :
    cmdWord op (sField w) false (kField w) (aField w) (dField w) = w := by
  simpa only [hField_of_mask h rfl] using cmdWord_of_mask h rfl

theorem word_of_mask_SD (h : w &&& Format.SD.mask = matchWord op) :
    cmdWord op (sField w) false false 0 (dField w) = w := by
  simpa only [hField_of_mask h rfl, kField_of_mask h rfl, aField_of_mask h rfl] using cmdWord_of_mask h rfl

theorem word_of_mask_SH (h : w &&& Format.SH.mask = matchWord op) : cmdWord op (sField w) (hField w) false 0 0 = w := by
  simpa only [kField_of_mask h rfl, aField_of_mask h rfl, dField_of_mask h rfl] using cmdWord_of_mask h rfl

theorem word_of_mask_D (h : w &&& Format.D.mask = matchWord op) : cmdWord op 0 false false 0 (dField w) = w := by
  simpa only [sField_of_mask h rfl, hField_of_mask h rfl, kField_of_mask h rfl, aField_of_mask h rfl]
    using cmdWord_of_mask h rfl

/-- The mask of W leaves bit 0 of field D free. -/
theorem dField_of_mask_W (h : w &&& Format.W.mask = matchWord op) :
    dField w = BitVec.setWidth 8 (BitVec.ofBool (wField w)) := by
  have e : dField w &&& dField Format.W.mask = 0 := by
    rw [← dField_matchWord op, ← h]
    exact BitVec.extractLsb'_and.symm
  have bit : wField w = (dField w).getLsbD 0 := by simp [wField, dField]
  have low : ∀ d : Byte, d &&& dField Format.W.mask = 0 → d = BitVec.setWidth 8 (BitVec.ofBool (d.getLsbD 0)) := by
    decide
  rw [bit, ← low _ e]

theorem word_of_mask_W (h : w &&& Format.W.mask = matchWord op) :
    cmdWord op 0 false false 0 (BitVec.setWidth 8 (BitVec.ofBool (wField w))) = w := by
  simpa only [sField_of_mask h rfl, hField_of_mask h rfl, kField_of_mask h rfl, aField_of_mask h rfl,
    dField_of_mask_W h] using cmdWord_of_mask h rfl

end

/-! ### The rows of the opcode map -/

theorem opTable_ops_nodup : (opTable.map Row.op).Nodup := by decide

/-- Looking a row up by its opcode finds it, since no other row has its opcode (R64). -/
theorem opTable_find_op {r : Row} (hr : r ∈ opTable) : opTable.find? (fun q => q.op == r.op) = some r := by
  cases hq : opTable.find? (fun q => q.op == r.op) with
  | none => exact absurd (List.find?_eq_none.mp hq r hr) (by simp)
  | some q =>
    have same : q.op = r.op := by simpa using List.find?_some hq
    rw [List.inj_on_of_nodup_map opTable_ops_nodup (List.mem_of_find?_eq_some hq) hr same]

/-- R65's search: a word is read as the command of the row it matches. -/
theorem decodeWord_eq_ok_iff {w : Word} {i : Instr} :
    decodeWord w = .ok i ↔ ∃ r ∈ opTable, w &&& r.fmt.mask = matchWord r.op ∧ r.build w = i := by
  constructor
  · intro h
    cases hf : opTable.find? (fun r => r.op == opField w) with
    | none => simp [decodeWord, hf] at h
    | some r =>
      rw [decodeWord_of_find hf] at h
      split at h
      · rename_i hm
        exact ⟨r, List.mem_of_find?_eq_some hf, hm, Except.ok.inj h⟩
      · cases h
  · rintro ⟨r, hr, hm, rfl⟩
    rw [decodeWord_of_find (by rw [opField_of_mask hm (opField_mask _)]; exact opTable_find_op hr), if_pos hm]

theorem decode_eq_ok_iff {n : Nat} {w : Word} {i : Instr} :
    decode n w = .ok i ↔ decodeWord w = .ok i ∧ i.wf n = true := by
  unfold decode
  cases decodeWord w with
  | error e => simp
  | ok j =>
    by_cases hj : j.wf n = true
    · simp only [hj, if_true, Except.ok.injEq, iff_self_and]
      rintro rfl
      exact hj
    · simp only [hj, if_false, Except.ok.injEq, reduceCtorEq, false_iff]
      rintro ⟨rfl, hi⟩
      exact hj hi

/-- The command a matching row makes of a word has that word. -/
theorem encode_build {r : Row} (hr : r ∈ opTable) {w : Word} (h : w &&& r.fmt.mask = matchWord r.op) :
    encode (r.build w) = w := by
  simp only [opTable, opTableLow, opTableHigh, List.cons_append, List.nil_append, List.mem_cons, List.not_mem_nil,
    or_false] at hr
  rcases hr with rfl | rfl | rfl | rfl | rfl | rfl | rfl | rfl | rfl | rfl | rfl | rfl | rfl | rfl | rfl | rfl | rfl |
    rfl | rfl | rfl | rfl | rfl | rfl | rfl | rfl
  · exact word_of_mask_N h -- NOP
  · exact word_of_mask_N h -- SESSION_OPEN
  · exact word_of_mask_F h -- SESSION_SEND
  · exact word_of_mask_N h -- SESSION_CLOSE
  · exact word_of_mask_N h -- COUNT_DEVICES
  · exact word_of_mask_F h -- RAW_EXCHANGE
  · exact word_of_mask_N h -- RAW_CLOSE
  · exact word_of_mask_SF h -- CHIP_SET_PENDING
  · exact word_of_mask_S h -- GET_PENDING
  · exact word_of_mask_S h -- CHIP_LATCH
  · exact word_of_mask_SA h -- GET_LATCHED
  · exact word_of_mask_SAD h -- SET_REGISTER
  · exact word_of_mask_N h -- RESET_REGISTERS
  · exact word_of_mask_SKAD h -- SET_LED
  · exact word_of_mask_SAD h -- RESET_LED_AT
  · exact word_of_mask_SD h -- SET_ROW
  · exact word_of_mask_SH h -- LOAD_GLYPH
  · exact word_of_mask_SD h -- SET_LETTER
  · exact word_of_mask_D h -- SET_WORD
  · exact word_of_mask_N h -- CYCLE_STEPS
  · exact word_of_mask_N h -- CYCLE_SET
  · exact word_of_mask_W h -- SET_CYCLE
  · exact word_of_mask_N h -- GET_CYCLE
  · exact word_of_mask_N h -- SET_CYCLE_DELAY
  · exact word_of_mask_N h -- GET_CYCLE_DELAY

/-! ### Reading an encoded command -/

theorem decodeWord_cmdWord {op : BitVec 6} {s : Byte} {h k : Bool} {a d : Byte} {i : Instr} (r : Row)
    (f : opTable.find? (fun r => r.op == op) = some r) (m : cmdWord op s h k a d &&& r.fmt.mask = matchWord r.op)
    (b : r.build (cmdWord op s h k a d) = i) : decodeWord (cmdWord op s h k a d) = .ok i := by
  rw [decodeWord_of_find (by rw [opField_cmdWord]; exact f), if_pos m, b]

theorem decodeWord_frameWord {op : BitVec 6} {s : Byte} {g : Frame} {i : Instr} (r : Row)
    (f : opTable.find? (fun r => r.op == op) = some r) (m : frameWord op s g &&& r.fmt.mask = matchWord r.op)
    (b : r.build (frameWord op s g) = i) : decodeWord (frameWord op s g) = .ok i := by
  rw [decodeWord_of_find (by rw [opField_frameWord]; exact f), if_pos m, b]

/-- The row of a command's opcode builds the command from its word. -/
theorem decodeWord_encode (i : Instr) : decodeWord (encode i) = .ok i := by
  cases i with
  | nop => exact decodeWord_cmdWord _ rfl (mask_N _) rfl
  | sessionOpen => exact decodeWord_cmdWord _ rfl (mask_N _) rfl
  | sessionSend frm => exact decodeWord_frameWord _ rfl (mask_F _ _) (by simp only [fField_frameWord])
  | sessionClose => exact decodeWord_cmdWord _ rfl (mask_N _) rfl
  | countDevices => exact decodeWord_cmdWord _ rfl (mask_N _) rfl
  | rawExchange frm => exact decodeWord_frameWord _ rfl (mask_F _ _) (by simp only [fField_frameWord])
  | rawClose => exact decodeWord_cmdWord _ rfl (mask_N _) rfl
  | chipSetPending scr frm =>
    exact decodeWord_frameWord _ rfl (mask_SF _ _ _) (by simp only [sField_frameWord, fField_frameWord])
  | getPending scr => exact decodeWord_cmdWord _ rfl (mask_S _ _) (by simp only [sField_cmdWord])
  | chipLatch scr => exact decodeWord_cmdWord _ rfl (mask_S _ _) (by simp only [sField_cmdWord])
  | getLatched scr adr =>
    exact decodeWord_cmdWord _ rfl (mask_SA _ _ _) (by simp only [sField_cmdWord, aField_cmdWord])
  | setRegister scr adr dat =>
    exact decodeWord_cmdWord _ rfl (mask_SAD _ _ _ _) (by simp only [sField_cmdWord, aField_cmdWord, dField_cmdWord])
  | resetRegisters => exact decodeWord_cmdWord _ rfl (mask_N _) rfl
  | setLed scr coord adr dat =>
    exact decodeWord_cmdWord _ rfl (mask_SKAD _ _ _ _ _)
      (by simp only [sField_cmdWord, kField_cmdWord, aField_cmdWord, dField_cmdWord])
  | resetLedAt scr adr dat =>
    exact decodeWord_cmdWord _ rfl (mask_SAD _ _ _ _) (by simp only [sField_cmdWord, aField_cmdWord, dField_cmdWord])
  | setRow scr dat => exact decodeWord_cmdWord _ rfl (mask_SD _ _ _) (by simp only [sField_cmdWord, dField_cmdWord])
  | loadGlyph scr half =>
    exact decodeWord_cmdWord _ rfl (mask_SH _ _ _) (by simp only [sField_cmdWord, hField_cmdWord])
  | setLetter scr dat =>
    exact decodeWord_cmdWord _ rfl (mask_SD _ _ _) (by simp only [sField_cmdWord, dField_cmdWord])
  | setWord dat => exact decodeWord_cmdWord _ rfl (mask_D _ _) (by simp only [dField_cmdWord])
  | cycleSteps => exact decodeWord_cmdWord _ rfl (mask_N _) rfl
  | cycleSet => exact decodeWord_cmdWord _ rfl (mask_N _) rfl
  | setCycle wrap => exact decodeWord_cmdWord _ rfl (mask_W _ _) (by cases wrap <;> rfl)
  | getCycle => exact decodeWord_cmdWord _ rfl (mask_N _) rfl
  | setCycleDelay => exact decodeWord_cmdWord _ rfl (mask_N _) rfl
  | getCycleDelay => exact decodeWord_cmdWord _ rfl (mask_N _) rfl

/-- The slot checks of R65 on a command are checks on the fields of its word. -/
theorem wf_iff_fields (n : Nat) (i : Instr) :
    i.wf n = true ↔ (opField (encode i) = 0x1B → (sField (encode i)).toNat < n) ∧
      (opField (encode i) = 0x1C → (dField (encode i)).toNat < n) := by
  cases i
  case loadGlyph scr half => simp [Instr.wf, encode, opField_cmdWord, sField_cmdWord]
  case setLetter scr dat => simp [Instr.wf, encode, opField_cmdWord, dField_cmdWord]
  all_goals simp [Instr.wf, encode, opField_cmdWord, opField_frameWord]

/-! ### The obligations -/

/-- Settles O1: the row of the command's opcode builds it back (`decodeWord_encode`), and its slot is in range. -/
theorem decodeOfEncode : Obligations.DecodeOfEncode := fun _ i hw => decode_eq_ok_iff.mpr ⟨decodeWord_encode i, hw⟩

/-- Settles O2: the row the word matches leaves no bit of it unread (`encode_build`). -/
theorem encodeOfDecode : Obligations.EncodeOfDecode := by
  intro n w i h
  obtain ⟨hd, hw⟩ := decode_eq_ok_iff.mp h
  obtain ⟨r, hr, hm, rfl⟩ := decodeWord_eq_ok_iff.mp hd
  exact ⟨encode_build hr hm, hw⟩

/-- The spec's tables list the rows of the opcode map (R62, R64). -/
theorem specRows_eq : specRows = opTable.map fun r => (r.op.toNat, r.fmt.mask) := rfl

theorem matchWord_eq (op : BitVec 6) : matchWord op = BitVec.ofNat 32 op.toNat <<< 26 := by
  rw [matchWord, BitVec.ofNat_toNat]

/-- Settles O3: a word that matches a row is read as that row's command, whose slot is a field of the word. -/
theorem wordIsLegalExactlyByMaskAndMatch : Obligations.WordIsLegalExactlyByMaskAndMatch := by
  intro n w
  have rows : (∃ r ∈ specRows, w &&& r.2 = BitVec.ofNat 32 r.1 <<< 26) ↔
      ∃ r ∈ opTable, w &&& r.fmt.mask = matchWord r.op := by
    simp [specRows_eq, matchWord_eq]
  rw [rows]
  constructor
  · rintro ⟨i, h⟩
    obtain ⟨rfl, hw⟩ := encodeOfDecode n w i h
    obtain ⟨r, hr, hm, -⟩ := decodeWord_eq_ok_iff.mp (decode_eq_ok_iff.mp h).1
    exact ⟨⟨r, hr, hm⟩, (wf_iff_fields n i).mp hw⟩
  · rintro ⟨⟨r, hr, hm⟩, slots⟩
    refine ⟨r.build w, decode_eq_ok_iff.mpr ⟨decodeWord_eq_ok_iff.mpr ⟨r, hr, hm, rfl⟩, ?_⟩⟩
    rw [wf_iff_fields, encode_build hr hm]
    exact slots

theorem decode_of_error {n : Nat} {w : Word} {e : Illegal} (h : decodeWord w = .error e) : decode n w = .error e := by
  rw [decode, h]

/-- The unassigned OP values of R66. -/
theorem unassigned_notMem : ∀ op : BitVec 6,
    op.toNat ∈ [0x07] ++ List.range' 0x0C 4 ++ List.range' 0x12 6 ++ [0x1E, 0x1F] ++ List.range' 0x26 26 →
      op ∉ opTable.map Row.op := by
  decide

theorem decodeWord_unassigned {w : Word} (h : opField w ∉ opTable.map Row.op) :
    decodeWord w = .error .unassignedOp := by
  have noRow : opTable.find? (fun r => r.op == opField w) = none := by
    rw [List.find?_eq_none]
    intro r hr e
    exact h (List.mem_map.mpr ⟨r, hr, by simpa using e⟩)
  rw [decodeWord, noRow]

/-- Settles O4: an unassigned opcode finds no row, an assigned one finds its own row and no other; the words of the
last two clauses are those of well-formed commands. -/
theorem reservedWordsAreIllegal : Obligations.ReservedWordsAreIllegal := by
  refine ⟨fun n w h => ?_, fun n w op mask hr hop hm => ?_, fun n scr adr dat coord frm i hi => ?_,
    fun n scr dat h => ?_⟩
  · exact decode_of_error (decodeWord_unassigned (unassigned_notMem _ h))
  · rw [specRows_eq, List.mem_map] at hr
    obtain ⟨r, hr, ⟨⟩⟩ := hr
    have own : r.op = opField w := BitVec.eq_of_toNat_eq hop.symm
    apply decode_of_error
    rw [decodeWord_of_find (own ▸ opTable_find_op hr), if_neg (by rw [matchWord_eq]; exact hm)]
  · apply decodeOfEncode
    simp only [List.mem_cons, List.not_mem_nil, or_false] at hi
    rcases hi with rfl | rfl | rfl | rfl | rfl | rfl | rfl | rfl | rfl <;> rfl
  · exact decodeOfEncode _ _ (by simpa [Instr.wf] using h)

theorem decode_of_word {n : Nat} {w : Word} {i : Instr} (e : encode i = w) (h : i.wf n = true) : decode n w = .ok i :=
  e ▸ decodeOfEncode n i h

/-- Settles O5: each word is the word of its command. -/
theorem writtenWordsDecode : Obligations.WrittenWordsDecode :=
  ⟨decode_of_word rfl rfl, decode_of_word rfl rfl, decode_of_word rfl rfl, decode_of_word rfl rfl,
    decode_of_word rfl rfl, decode_of_word rfl rfl, decode_of_word rfl rfl, decode_of_word rfl rfl,
    decode_of_word rfl rfl⟩

end Sys2Proof
end

section
/-! PROOFS. Frame packing, the pseudo-instructions, and the commands that reset the registers, load a glyph and write one
(20_memory.md R53, R58; 30_encoding.md R68; 42_chain_write.md R131, R132; 43_pixel_glyph.md R150 to R154). -/

namespace Sys2Proof.Machine
open Sys2Proof

/-! ### Frame packing -/

theorem pack_getLsbD (a d : Byte) {j : Nat} (hj : j < 16) :
    (pack a d).getLsbD j = if j < 8 then d.getLsbD j else a.getLsbD (j - 8) := by
  by_cases h : j < 8
  · simp [pack, hj, h]
  · simp [pack, hj, h, show 8 ≤ j by omega]

theorem addrOf_getLsbD (f : Frame) {j : Nat} (hj : j < 8) : (addrOf f).getLsbD j = f.getLsbD (8 + j) := by
  simp [addrOf, hj]

/-- Settles O60: a packed frame read bit by bit, and the laws of `addrOf` and `dataOf`. -/
theorem framePackingIsABijection : Obligations.FramePackingIsABijection :=
  ⟨fun a d => ⟨fun _ => pack_getLsbD a d, addrOf_pack a d, dataOf_pack a d⟩,
    fun f => ⟨pack_addrOf_dataOf f, fun _ hj => ⟨addrOf_getLsbD f hj, dataOf_getLsbD f hj⟩⟩,
    by decide, by decide, by decide, by decide⟩

/-! ### The reset data bytes -/

/-- The five configuration addresses are distinct (R5). -/
theorem configAddresses_nodup {p : Params} (h : p.Legal) :
    [p.addrDecodeMode, p.addrIntensity, p.addrScanLimit, p.addrShutdown, p.addrDisplayTest].Nodup :=
  (List.nodup_append.mp h.2.1).2.1

/-- Settles O40: since the addresses are distinct, each one is the first that `resetByte` finds. -/
theorem resetDataBytes : Obligations.ResetDataBytes := by
  intro p h
  have distinct := configAddresses_nodup h
  simp only [List.nodup_cons, List.mem_cons, List.not_mem_nil, or_false, not_or] at distinct
  obtain ⟨⟨d1, d2, d3, d4⟩, ⟨i1, i2, i3⟩, ⟨s1, s2⟩, t1, -⟩ := distinct
  refine ⟨?_, ?_, ?_, ?_, ?_, fun a ha => ?_⟩
  · simp [resetByte]
  · simp [resetByte, Ne.symm d1]
  · simp [resetByte, Ne.symm d2, Ne.symm i1]
  · simp [resetByte, Ne.symm d3, Ne.symm i2, Ne.symm s1]
  · simp [resetByte, Ne.symm d4, Ne.symm i3, Ne.symm s2, Ne.symm t1]
  · simp only [List.mem_cons, List.not_mem_nil, or_false, not_or] at ha
    simp [resetByte, ha]

/-! ### Command words, written out -/

theorem encode_setLetter (scr dat : Byte) :
    encode (.setLetter scr dat) = 0x70000000 ||| scr.setWidth 32 <<< 18 ||| dat.setWidth 32 := by
  simp [encode, cmdWord, matchWord]

theorem encode_loadGlyph (scr : Byte) (half : Bool) : encode (.loadGlyph scr half) =
    0x6C000000 ||| scr.setWidth 32 <<< 18 ||| (BitVec.ofBool half).setWidth 32 <<< 17 := by
  simp [encode, cmdWord, matchWord]

theorem encode_loadGlyph_low (scr : Byte) :
    encode (.loadGlyph scr false) = 0x6C000000 ||| scr.setWidth 32 <<< 18 := by
  simp [encode_loadGlyph]

theorem encode_loadGlyph_high (scr : Byte) :
    encode (.loadGlyph scr true) = 0x6C020000 ||| scr.setWidth 32 <<< 18 := by
  rw [encode_loadGlyph, BitVec.or_assoc, BitVec.or_comm (scr.setWidth 32 <<< 18), ← BitVec.or_assoc]
  rfl

theorem encode_clearColumn (scr column : Byte) : encode (.setLed scr false column 0) =
    0x60000000 ||| scr.setWidth 32 <<< 18 ||| column.setWidth 32 <<< 8 := by
  simp [encode, cmdWord, matchWord]

theorem encode_writeFrame (scr : Byte) (frm : Frame) : encode (.setRegister scr (addrOf frm) (dataOf frm)) =
    0x40000000 ||| scr.setWidth 32 <<< 18 ||| frm.setWidth 32 :=
  cmdWord_addrOf_dataOf 0x10 scr frm

/-- Settles O58: each expansion is the list of R68, with its command words written out. -/
theorem pseudoInstructionExpansions : Obligations.PseudoInstructionExpansions := by
  refine ⟨rfl, fun _ => rfl, fun _ => rfl, fun scr frm => ?_, fun scr c => ?_, rfl, rfl, fun g lo hi => ?_⟩
  · exact congrArg (fun w => [Input.write .cmd w]) (encode_writeFrame scr frm)
  · exact congrArg (fun w => [Input.write .cmd w]) (encode_clearColumn scr c)
  · rw [← encode_loadGlyph_low, ← encode_loadGlyph_high]
    rfl

/-! ### Glyph slots -/

theorem withHalf_getLsbD (g : Glyph) (half : Bool) (v : Word) {j : Nat} (hj : j < 64) :
    (withHalf g half v).getLsbD j =
      if half = false ∧ j < 32 then v.getLsbD j
      else if half = true ∧ 32 ≤ j then v.getLsbD (j - 32)
      else g.getLsbD j := by
  cases half <;> rcases Nat.lt_or_ge j 32 with h | h
  · simp [withHalf, hj, h]
  · simp [withHalf, hj, h, show ¬ j < 32 by omega, show j - 32 < 32 by omega]
  · simp [withHalf, hj, h]
  · simp [withHalf, hj, h, show ¬ j < 32 by omega]

/-- Settles O44: the slot's glyph is the old one with one half replaced (`withHalf_getLsbD`). -/
theorem loadGlyphReplacesHalf : Obligations.LoadGlyphReplacesHalf := by
  intro scr half s h
  refine ⟨encode_loadGlyph scr half, fun hs => ⟨_, if_pos hs, List.length_set .., fun g hg => ?_, fun j hj => ?_, rfl⟩,
    fun hs => if_neg (by omega)⟩
  · simp [State.glyphAt, List.getElem?_set_ne (Ne.symm hg)]
  · have slot : scr.toNat < s.glyph.length := h.glyphCount.symm ▸ hs
    simp only [State.glyphAt, List.getElem?_set_self slot, Option.getD_some]
    exact withHalf_getLsbD _ half s.arg hj

/-- The order in which columns are written does not show in the mirror. -/
theorem ColumnsWritten.congr {s t : State} {k : Nat} {as bs : List Nat} {byte : Nat → Byte}
    (h : ColumnsWritten s t k as byte) (e : ∀ c, c ∈ as ↔ c ∈ bs) : ColumnsWritten s t k bs byte := by
  simpa only [ColumnsWritten, e] using h

/-- Settles O46: the sessions are those of SET_LETTER's loop (`setLetterOn_columns`), column 1 last. -/
theorem setLetterWritesGlyph : Obligations.SetLetterWritesGlyph := by
  intro scr dat s h
  refine ⟨encode_setLetter scr dat, fun hd => ?_, fun hd => if_neg (by omega)⟩
  have w := setLetterOn_columns h.legal h.ready scr.toNat (s.glyphAt dat.toNat)
  exact ⟨_, if_pos hd, w.effect, fun i hi => w.pending i hi 1 rfl, w.columns.congr (by simp; omega)⟩

/-! ### RESET_REGISTERS -/

theorem pack_resetByte_zero {p : Params} (h : p.Legal) : pack 0 (resetByte p 0) = 0 :=
  (congrArg (pack 0) (resetByte_zero h)).trans pack_zero

/-- The sixteen address passes show one session each (R131). -/
theorem resetPasses_effect {s : State} (hr : s.Ready) : ChainEffect s ((List.range 16).foldl resetPass s)
    ((List.range 16).flatMap fun a => sessionActs s.par.n fun _ =>
      pack (BitVec.ofNat 8 a) (resetByte s.par (BitVec.ofNat 8 a))) := by
  rw [List.range_eq_range', List.range'_succ]
  refine (foldl_chainEffect (P := fun t _ => t.par = s.par ∧ t.Ready) ?_ _ _ _ ⟨rfl, hr⟩).1
  rintro t a - ⟨hp, ht⟩
  have e := resetPass_effect ht a
  exact ⟨hp ▸ e, e.host.par.trans hp, e.ready ht⟩

/-- The flush shows one session of one no-op frame after the other (R131, R133). -/
theorem flush_effect {n : Nat} (hn : 1 ≤ n) : ∀ {t : State}, t.Ready →
    ChainEffect t (flush n t) (List.replicate n [LineAct.opened, .sent 0, .closed]).flatten := by
  induction n, hn using Nat.le_induction with
  | base => intro t ht; exact (flushOne ht).1
  | succ n _ ih =>
    intro t ht
    have one := (flushOne ht).1
    exact one.trans (ih (one.ready ht))

/-- Settles O39: the sixteen passes and the flush, one after the other, and the mirror they leave
(`resetRegisters_registersReset`). -/
theorem resetRegistersEndState : Obligations.ResetRegistersEndState := by
  refine ⟨rfl, fun s h => ⟨_, rfl, ?_, fun i hi => ?_⟩⟩
  · have passes := resetPasses_effect h.ready
    exact passes.trans (flush_effect h.legal.1.1 (passes.ready h.ready))
  · have reset := resetRegisters_registersReset h.legal h.ready
    refine ⟨reset.pending i hi, ?_, fun a _ ha => ?_⟩
    · rw [reset.latched i hi, if_pos (by decide)]
      exact pack_resetByte_zero h.legal
    · rw [reset.latched i hi, if_pos (by omega)]

end Sys2Proof.Machine
end

section
/-! PROOFS. The transport and session commands, each as its own effect and together as a host session, and COUNT_DEVICES
up to its sentinel and past a transition without one (40_transport.md R92 to R107; R108, R206). -/

namespace Sys2Proof.Machine
open Sys2Proof

/-! ### The line without frames -/

/-- Settles O21: the arm of NOP, and its word. -/
theorem nopDoesNothing : Obligations.NopDoesNothing := ⟨rfl, fun _ => rfl⟩

/-- Settles O22: `openLine` drives the enable line and records the one pin event. -/
theorem sessionOpenOpensLine : Obligations.SessionOpenOpensLine := ⟨rfl, fun _ => rfl⟩

/-- Settles O23: `closeLine` drives the enable line between two waits. -/
theorem rawCloseClosesLine : Obligations.RawCloseClosesLine := ⟨rfl, fun _ => rfl⟩

/-! ### One frame -/

theorem encode_rawExchange (frm : Frame) : encode (.rawExchange frm) = 0x14000000 ||| frm.setWidth 32 := by
  simp [encode, frameWord, matchWord]

theorem encode_sessionSend (frm : Frame) : encode (.sessionSend frm) = 0x08000000 ||| frm.setWidth 32 := by
  simp [encode, frameWord, matchWord]

/-- The frame the next exchange receives holds its sixteen draws, first one in bit 15 (R94). -/
theorem drawnFrame_zero_getLsbD (s : State) {j : Nat} (hj : j < 16) : (s.drawnFrame 0).getLsbD (15 - j) = s.draw j := by
  rw [drawnFrame_getLsbD s 0 hj, Nat.zero_add]

/-- Settles O24: the exchange as one equation (`exchange_eq`), its frame in RESULT. -/
theorem rawExchangeReturnsSamples : Obligations.RawExchangeReturnsSamples := by
  refine fun frm s => ⟨encode_rawExchange frm, s.drawnFrame 0, fun _ => drawnFrame_zero_getLsbD s, ?_⟩
  show execRawExchange frm s = _
  rw [execRawExchange, exchange_eq, frame_events_drawn]

/-- SESSION_SEND as one equation (R103). -/
theorem exec_sessionSend (frm : Frame) (s : State) : exec (.sessionSend frm) s = .next { s with
    pend := shiftIn frm s.pend
    clk := false
    dout := frm.getLsbD 0
    result := (s.drawnFrame 0).setWidth 32
    dinIn := s.dinIn.drop 16
    drawn := s.drawn + 16
    trace := (exchangeEvents frm s).reverse ++ s.trace } := by
  show execSessionSend frm s = _
  rw [execSessionSend, chainSend_eq, frame_events_drawn]

/-- Settles O25: the chain send as one equation, and the shifted pending registers read one by one. -/
theorem sessionSendShiftsMirror : Obligations.SessionSendShiftsMirror := fun frm s =>
  ⟨encode_sessionSend frm, s.drawnFrame 0, shiftIn frm s.pend, fun _ => drawnFrame_zero_getLsbD s,
    shiftIn_length frm s.pend, fun _ => shiftIn_getElem? frm s.pend, exec_sessionSend frm s⟩

/-! ### The latch of every chip -/

/-- Every chip's read after a chain close, for the chips there are (R99, R114). -/
theorem chainClose_latched {s : State} (hs : s.Sized) {i : Nat} (hi : i < s.par.n) (a : Byte) :
    (chainClose s).latched i a =
      if addrOf (s.pending i) = a ∧ a.toNat ≤ 15 then s.pending i else s.latched i a := by
  have h := latchAll_latched (s := closeLine s) ⟨hs.latCount, hs.pendCount⟩ hi a
  simp only [Nat.lt_succ_iff] at h
  exact h

/-- Settles O26: a chip of the chain is read by `chainClose_latched`; past the last chip every read is 0 before and after. -/
theorem sessionCloseLatchesEveryChip : Obligations.SessionCloseLatchesEveryChip := by
  refine ⟨rfl, fun s h => ⟨chainClose s, rfl, fun i a => ?_, rfl⟩⟩
  by_cases hi : i < s.par.n
  · simp only [chainClose_latched h.sized hi, hi, true_and]
  · have after : (chainClose s).lat.length ≤ i := by
      show (List.zipWith latchInto s.pend s.lat).length ≤ i
      rw [List.length_zipWith, h.pendCount, h.latCount]
      omega
    rw [if_neg (fun latches => hi latches.1), latched_of_ge after, latched_of_ge (by rw [h.latCount]; omega)]

/-- Latching chips one by one, each at most once and in any order, changes the latched registers of exactly these chips,
each by its own pending register alone (R99, R114). -/
theorem foldl_latchChip {l : List Nat} (hl : l.Nodup) (s : State) :
    l.foldl (fun t i => latchChip i t) s =
      { s with lat := s.lat.mapIdx fun i r => if i ∈ l then latchInto (s.pending i) r else r } := by
  induction l generalizing s with
  | nil => simp [List.mapIdx_eq_ofFn]
  | cons k l ih =>
    obtain ⟨hk, hl⟩ := List.nodup_cons.mp hl
    rw [List.foldl_cons, ih hl]
    have hp : ∀ i, (latchChip k s).pending i = s.pending i := fun _ => rfl
    have mapped : ((latchChip k s).lat.mapIdx fun i r => if i ∈ l then latchInto (s.pending i) r else r) =
        s.lat.mapIdx fun i r => if i ∈ k :: l then latchInto (s.pending i) r else r := by
      apply List.ext_getElem?
      intro i
      rw [latchChip_lat, List.getElem?_mapIdx, List.getElem?_mapIdx, List.getElem?_modify]
      by_cases hki : k = i
      · subst hki; simp [hk, Function.comp_def]
      · simp [hki, Ne.symm hki]
    simp only [hp, mapped]
    rfl

/-- Settles O27: the loop latches each chip once (`foldl_latchChip`), which is what `latchAll` does position by position. -/
theorem latchOrderDoesNotMatter : Obligations.LatchOrderDoesNotMatter := by
  intro s h
  rw [foldl_latchChip (List.nodup_reverse.mpr List.nodup_range), latchAll]
  congr 1
  apply List.ext_getElem (by simp [h.latCount, h.pendCount])
  intro i hi _
  have hn : i < s.par.n := by simpa [h.latCount] using hi
  simp [hn, pending_of_lt (s := s) (i := i) (by rw [h.pendCount]; exact hn)]

/-! ### A host session -/

theorem runCommands_cons {i : Instr} {is : List Instr} {s t : State} (h : exec i s = .next t) :
    runCommands (i :: is) s = runCommands is t := by
  rw [runCommands, h]

theorem runCommands_append {is js : List Instr} {s t : State} (h : runCommands is s = .next t) :
    runCommands (is ++ js) s = runCommands js t := by
  induction is generalizing s with
  | nil => obtain rfl := Host.Outcome.next.inj h; rfl
  | cons i is ih =>
    obtain ⟨u, hu⟩ := everyStepAnswers.1 i s
    rw [runCommands_cons hu] at h
    rw [List.cons_append, runCommands_cons hu, ih h]

/-- A run of sends pushes the frames in from the near end, the last one nearest, and latches nothing (R98, R103, R206). -/
theorem runCommands_sends (frames : List Frame) (s : State) :
    ∃ t, runCommands (frames.map .sessionSend) s = .next t ∧ t.par = s.par ∧ t.lat = s.lat ∧
      t.pend = (frames.reverse ++ s.pend).take s.pend.length := by
  induction frames generalizing s with
  | nil => exact ⟨s, rfl, rfl, rfl, by simp⟩
  | cons f fs ih =>
    obtain ⟨u, hsend, upar, ulat, upend⟩ : ∃ u, exec (.sessionSend f) s = .next u ∧ u.par = s.par ∧ u.lat = s.lat ∧
        u.pend = shiftIn f s.pend := ⟨_, exec_sessionSend f s, rfl, rfl, rfl⟩
    obtain ⟨t, hrun, hpar, hlat, hpend⟩ := ih u
    refine ⟨t, (runCommands_cons hsend).trans hrun, hpar.trans upar, hlat.trans ulat, ?_⟩
    rw [hpend, upend, shiftIn_length, shiftIn, take_append_take, List.reverse_cons, List.append_assoc]
    rfl

/-- A chip nearer than the number of frames sent holds one of them, the last one nearest; a farther one holds what was
pending that many places nearer (R206). -/
theorem pending_of_sends {s t : State} {frames : List Frame}
    (h : t.pend = (frames.reverse ++ s.pend).take s.pend.length) {i : Nat} (hi : i < s.pend.length) : t.pending i =
      if i < frames.length then (frames[frames.length - 1 - i]?).getD 0 else s.pending (i - frames.length) := by
  rw [State.pending, h, List.getElem?_take_of_lt hi]
  split
  · next hf => rw [List.getElem?_append_left (by simpa using hf), List.getElem?_reverse hf]
  · next hf => rw [List.getElem?_append_right (by simpa using hf), List.length_reverse, State.pending]

/-- Settles O28: the open leaves the mirror alone, the sends push the frames in (`runCommands_sends`), and the close latches
them (`chainClose_latched`). -/
theorem hostSessionShiftsAndLatches : Obligations.HostSessionShiftsAndLatches := by
  intro s frames h
  obtain ⟨t, hrun, hpar, hlat, hpend⟩ := runCommands_sends frames (openLine s)
  have hlen : t.pend.length = s.par.n := by
    rw [hpend, List.length_take, List.length_append]
    show min s.pend.length (_ + s.pend.length) = _
    rw [h.pendCount]
    omega
  have sized : t.Sized := ⟨by rw [hlat, hpar]; exact h.latCount, by rw [hlen, hpar]; rfl⟩
  refine ⟨chainClose t, ?_, rfl, fun i hi => ?_, fun i hi a => ?_⟩
  · rw [List.cons_append, runCommands_cons (t := openLine s) rfl, runCommands_append hrun]
    rfl
  · exact pending_of_sends (s := openLine s) hpend (by rw [← h.pendCount] at hi; exact hi)
  · rw [chainClose_latched sized (by rw [hpar]; exact hi), latched_congr hlat]
    rfl

/-! ### COUNT_DEVICES -/

theorem Shows.setResult {s t : State} {acts : List LineAct} (h : Shows s t acts) (v : Word) :
    Shows s { t with result := v } acts := ⟨h.trace, h.drawn, h.dinIn, h.dout⟩

theorem Shows.withInbox {s t : State} {acts : List LineAct} (h : Shows s t acts) (b : List Arrival) :
    Shows s (withInbox b t) acts := ⟨h.trace, h.drawn, h.dinIn, h.dout⟩

/-- The start of COUNT_DEVICES and some dummy exchanges move the line and the draws only (R107). -/
theorem dummies_countStart_eq (n : Nat) (s : State) : dummies (n + 1) (countStart s) = { s with
    en := true
    loadN := false
    clk := false
    dout := false
    dinIn := (dummies (n + 1) (countStart s)).dinIn
    drawn := (dummies (n + 1) (countStart s)).drawn
    trace := (dummies (n + 1) (countStart s)).trace } := by
  have h := dummies_eq (n + 1) (countStart s)
  generalize dummies (n + 1) (countStart s) = v at h
  rw [h, countStart, exchange_eq]
  rfl

/-- Settles O29: the loop ends at the first sentinel (`exec_countDevices_ends`), having shown its start, its dummy exchanges
and the close. -/
theorem countDevicesReturnsCount : Obligations.CountDevicesReturnsCount := by
  refine ⟨rfl, fun s n h1 h256 hf hno => ?_⟩
  obtain ⟨m, rfl⟩ : ∃ m, n = m + 1 := ⟨n - 1, by omega⟩
  have hfirst : ∀ k < m, dataOf (s.drawnFrame (16 * (k + 1))) ≠ 0xFF := fun k hk => hno (k + 1) (by omega) (by omega)
  refine ⟨_, exec_countDevices_ends (show m < 256 by omega) hf hfirst, ?_, ?_⟩
  · exact (((countStart_shows s).trans (dummies_shows _ _)).trans (closeLine_shows _)).setResult _
  · have h := dummies_countStart_eq m s
    generalize dummies (m + 1) (countStart s) = v at h
    rw [h]
    rfl

/-- The first transition of COUNT_DEVICES without a sentinel (R107, R108(c)). -/
theorem exec_countDevices_goesOn {s : State}
    (h : ∀ k, 1 ≤ k → k ≤ Config.countBudget → dataOf (s.drawnFrame (16 * k)) ≠ 0xFF) :
    ∃ t, exec .countDevices s = .next t ∧ t.activity = .counting (BitVec.ofNat 32 Config.countBudget) 0 ∧ t.en = true ∧
      Shows s t (.opened :: .sent 0x00FF :: List.replicate Config.countBudget (.sent 0x0000)) ∧
      SameConfig s t ∧ t.lat = s.lat ∧ t.pend = s.pend ∧ t.result = s.result := by
  obtain ⟨hcounting, hen, hshows, hconfig, hlat, hpend, hresult, -⟩ :=
    countLoop_goesOn Config.countBudget 0 (countStart s) fun k hk => by
      rw [countStart_dummyFrame]
      exact h (k + 1) k.succ_pos hk
  have hexec := exec_countDevices s
  generalize countLoop Config.countBudget 0 (countStart s) = t at *
  have quiet := countStart_quiet s
  refine ⟨t, hexec, ?_, hen.trans (countStart_en s), (countStart_shows s).trans hshows, quiet.config.trans hconfig,
    hlat.trans (countStart_lat s), hpend.trans (countStart_pend s), hresult.trans quiet.result⟩
  rw [hcounting]
  exact congrArg (Activity.counting · 0) (BitVec.zero_add _)

/-- A later transition without a sentinel. -/
theorem step_counting_goesOn {s : State} {c : Word} {e : Nat} (ha : s.activity = .counting c e) (hu : s.Undisturbed)
    (h : ∀ k < Config.countBudget, dataOf (s.drawnFrame (16 * k)) ≠ 0xFF) :
    ∃ t, step s = .next t ∧ t.activity = .counting (c + BitVec.ofNat 32 Config.countBudget) 0 ∧ t.en = s.en ∧
      Shows s t (List.replicate Config.countBudget (.sent 0x0000)) ∧
      SameConfig s t ∧ t.lat = s.lat ∧ t.pend = s.pend ∧ t.result = s.result := by
  obtain ⟨b, hstep⟩ := step_counting ha hu
  obtain ⟨hcounting, hen, hshows, hconfig, hlat, hpend, hresult, -⟩ := countLoop_goesOn Config.countBudget c s.retire h
  generalize countLoop Config.countBudget c s.retire = t at *
  exact ⟨withInbox b t, hstep, hcounting, hen, hshows.of_retire.withInbox b,
    ⟨hconfig.wrap, hconfig.cycleDelay, hconfig.glyph⟩, hlat, hpend, hresult⟩

/-- A later transition in which the dummy exchange after `n` others returns the sentinel. -/
theorem step_counting_ends {s : State} {c : Word} {e n : Nat} (ha : s.activity = .counting c e) (hu : s.Undisturbed)
    (hn : n < Config.countBudget) (hf : dataOf (s.drawnFrame (16 * n)) = 0xFF)
    (hno : ∀ k < n, dataOf (s.drawnFrame (16 * k)) ≠ 0xFF) :
    ∃ t, step s = .next t ∧ t.activity = .idle ∧ t.en = false ∧ t.loadN = true ∧
      Shows s t (List.replicate (n + 1) (.sent 0x0000) ++ [.closed]) ∧
      SameConfig s t ∧ t.lat = s.lat ∧ t.pend = s.pend ∧ t.result = c + BitVec.ofNat 32 (n + 1) := by
  obtain ⟨b, hstep⟩ := step_counting ha hu
  rw [countLoop_ends n _ c s.retire hn hf hno] at hstep
  have hshows := (dummies_shows (n + 1) s.retire).trans (closeLine_shows _)
  have hv := dummies_eq (n + 1) s.retire
  generalize dummies (n + 1) s.retire = v at *
  refine ⟨_, hstep, ?_, rfl, rfl, (hshows.setResult _).of_retire.withInbox b, ?_, ?_, ?_, rfl⟩
  all_goals rw [hv]
  exacts [rfl, ⟨rfl, rfl, rfl⟩, rfl, rfl]

/-- Settles O30: the first transition without a sentinel, a later one, and one that meets it. -/
theorem countDevicesGoesOn : Obligations.CountDevicesGoesOn :=
  ⟨fun _ h => exec_countDevices_goesOn h, fun _ _ _ ha hu h => step_counting_goesOn ha hu h,
    fun _ _ _ _ ha hu hn hf hno => step_counting_ends ha hu hn hf hno⟩

end Sys2Proof.Machine
end

section
/-! PROOFS. The chip-level commands, which read and write one chip of the mirror (41_chip_register_model.md R113 to R121). -/

namespace Sys2Proof.Machine
open Sys2Proof

/-! ### Command words of the chip-level commands -/

theorem encode_chipSetPending (scr : Byte) (frm : Frame) : encode (.chipSetPending scr frm) =
    0x20000000 ||| scr.setWidth 32 <<< 18 ||| frm.setWidth 32 := rfl

theorem encode_getPending (scr : Byte) : encode (.getPending scr) = 0x24000000 ||| scr.setWidth 32 <<< 18 := by
  simp [encode, cmdWord, matchWord]

theorem encode_chipLatch (scr : Byte) : encode (.chipLatch scr) = 0x28000000 ||| scr.setWidth 32 <<< 18 := by
  simp [encode, cmdWord, matchWord]

theorem encode_getLatched (scr adr : Byte) : encode (.getLatched scr adr) =
    0x2C000000 ||| scr.setWidth 32 <<< 18 ||| adr.setWidth 32 <<< 8 := by
  simp [encode, cmdWord, matchWord]

/-! ### The chip a device number names -/

theorem chipOf_eq (n : Nat) (scr : Byte) :
    chipOf n scr = if 1 ≤ scr.toNat ∧ scr.toNat ≤ n then scr.toNat - 1 else 0 := rfl

/-- `ChipOf` names a chip the block has (R113). -/
theorem State.Inv.chipOf_lt {s : State} (h : s.Inv) (scr : Byte) : chipOf s.par.n scr < s.par.n :=
  Machine.chipOf_lt h.legal.1.1 scr

/-! ### One pending register -/

/-- `SetPending(k, f)` of a chip the block has, as a read of any chip sees it (R116). -/
theorem pending_setPend (s : State) {k : Nat} (hk : k < s.pend.length) (f : Frame) (i : Nat) :
    State.pending { s with pend := s.pend.set k f } i = if i = k then f else s.pending i := by
  unfold State.pending
  split
  · next e => rw [e, List.getElem?_set_self hk, Option.getD_some]
  · next e => rw [List.getElem?_set_ne (Ne.symm e)]

/-- Settles O33: the chip named is one the block has, so the write lands, and only there (`pending_setPend`). -/
theorem chipSetPendingWritesOneChip : Obligations.ChipSetPendingWritesOneChip := by
  intro scr frm s h
  have hk : chipOf s.par.n scr < s.pend.length := h.pendCount.symm ▸ h.chipOf_lt scr
  exact ⟨encode_chipSetPending scr frm, _, rfl, List.length_set .., pending_setPend s hk frm, rfl⟩

/-- Settles O34: the read of the chip that `ChipOf` names, in RESULT. -/
theorem getPendingReadsOneChip : Obligations.GetPendingReadsOneChip :=
  fun scr _ => ⟨encode_getPending scr, rfl⟩

/-! ### The latched registers of one chip -/

/-- `Latch(k)` of a chip the block has, as a read of any chip and address sees it (R114). -/
theorem latchChip_latched_of_lt {s : State} {k : Nat} (hk : k < s.lat.length) (i : Nat) (a : Byte) :
    (latchChip k s).latched i a =
      if i = k ∧ addrOf (s.pending k) = a ∧ a.toNat ≤ 15 then s.pending k else s.latched i a := by
  have inRange : i = k → i < s.lat.length := fun e => e ▸ hk
  rw [latchChip_latched]
  exact if_congr (by simp only [← Nat.lt_succ_iff]; tauto) rfl rfl

/-- Settles O35: the chip named is one the block has, so its latch writes what `latchChip_latched_of_lt` says. -/
theorem chipLatchLatchesOneChip : Obligations.ChipLatchLatchesOneChip := by
  intro scr s h
  have hk : chipOf s.par.n scr < s.lat.length := h.latCount.symm ▸ h.chipOf_lt scr
  exact ⟨encode_chipLatch scr, latchChip _ s, _, chipOf_eq .., rfl, latchChip_latched_of_lt hk, rfl⟩

/-- Settles O36: the read of the chip that `ChipOf` names, which is 0 for an address above 15 (`latched_high`). -/
theorem getLatchedReadsOneRegister : Obligations.GetLatchedReadsOneRegister :=
  fun scr adr s => ⟨encode_getLatched scr adr, s.latched (chipOf s.par.n scr) adr, rfl,
    fun _ => congrArg (s.latched · adr) (chipOf_eq ..), fun high => latched_high s _ high⟩

end Sys2Proof.Machine
end

section
/-! PROOFS. The chain write of one register, the frames around the real one, and how many waits each command takes
(40_transport.md R93, R94; 42_chain_write.md R125 to R133; 44_scroll_config.md R166, R168;
70_reset_and_hazards.md R209). -/

namespace Sys2Proof.Machine
open Sys2Proof

/-! ### SET_REGISTER -/

theorem encode_setRegister (scr adr dat : Byte) : encode (.setRegister scr adr dat) =
    0x40000000 ||| scr.setWidth 32 <<< 18 ||| adr.setWidth 32 <<< 8 ||| dat.setWidth 32 := by
  simp [encode, cmdWord, matchWord]

theorem exec_setRegister (scr adr dat : Byte) (s : State) :
    exec (.setRegister scr adr dat) s = .next (writeChip scr.toNat adr dat s) := rfl

/-- Settles O37: the command is one `writeChip`, whose session, pending and latched registers are its laws. -/
theorem setRegisterWritesOneDevice : Obligations.SetRegisterWritesOneDevice := fun scr adr dat s h =>
  ⟨encode_setRegister scr adr dat, _, exec_setRegister scr adr dat s, writeChip_effect _ _ _ h.sized h.clkLow,
    fun _ hi => writeChip_pending _ _ _ h.sized hi, fun _ hi => writeChip_latched _ _ _ h.sized hi⟩

/-! ### The frames of a session that writes one device -/

/-- The devices nearer than the `k`-th get no-op frames (R54, R125). -/
theorem chipFrame_sends_nearer {m k : Nat} (f : Frame) (h : m < k) :
    (devicesDown m).map (fun j => LineAct.sent (chipFrame k f j)) = List.replicate m (.sent 0) := by
  have noop : ∀ j ∈ devicesDown m, LineAct.sent (chipFrame k f j) = .sent 0 := by
    intro j hj
    have : j ≠ k := by
      simp only [devicesDown, List.mem_reverse, List.mem_range'_1] at hj
      omega
    rw [chipFrame, if_neg this]
  rw [List.map_congr_left noop, List.map_const', devicesDown_length]

/-- The sends of a session that writes device `k` (R128). -/
theorem chipFrame_sends {k n : Nat} (f : Frame) (h1 : 1 ≤ k) (hn : k ≤ n) :
    (devicesDown n).map (fun j => LineAct.sent (chipFrame k f j)) =
      List.replicate (n - k) (.sent 0) ++ [.sent f] ++ List.replicate (k - 1) (.sent 0) := by
  induction n, hn using Nat.le_induction with
  | base =>
    obtain ⟨m, rfl⟩ : ∃ m, k = m + 1 := ⟨k - 1, by omega⟩
    rw [devicesDown_succ, List.map_cons, chipFrame_sends_nearer f m.lt_succ_self, chipFrame, if_pos rfl, Nat.sub_self]
    rfl
  | succ n hn ih =>
    rw [devicesDown_succ, List.map_cons, ih, chipFrame, if_neg (by omega), Nat.succ_sub hn, List.replicate_succ]
    rfl

/-- Settles O38: the session of SET_REGISTER, with its sends counted (`chipFrame_sends`). -/
theorem fillerFramesSurroundTheRealOne : Obligations.FillerFramesSurroundTheRealOne := by
  intro scr adr dat s h h1 hn
  refine ⟨_, exec_setRegister scr adr dat s, ?_⟩
  have shows := (writeChip_effect scr.toNat adr dat h.sized h.clkLow).shows
  rwa [sessionActs, chipFrame_sends _ h1 hn] at shows

/-! ### How many half-period waits a command takes -/

/-- The command answers, and what it shows on the line holds `k` half-period waits (R209). -/
def TakesPeriods (i : Instr) (s : State) (k : Nat) : Prop :=
  ∃ t acts, exec i s = .next t ∧ Shows s t acts ∧ actPeriods acts = k

theorem TakesPeriods.halfPeriods {i : Instr} {s t : State} {k : Nat} {evs : List Event} (h : TakesPeriods i s k)
    (e : exec i s = .next t) (ht : t.trace = evs ++ s.trace) : halfPeriods evs = k := by
  obtain ⟨u, acts, hu, shows, rfl⟩ := h
  obtain rfl := Host.Outcome.next.inj (e.symm.trans hu)
  exact shows.halfPeriods ht

/-- The commands that leave the line alone wait for nothing. -/
theorem halfPeriods_of_silent {i : Instr} {s t : State} {evs : List Event} (e : exec i s = .next t)
    (ht : t.trace = evs ++ s.trace) {f : Frame} {d a : Byte} {h w : Bool}
    (hi : i ∈ [.nop, .chipSetPending d f, .getPending d, .chipLatch d, .getLatched d a, .loadGlyph d h,
      .setCycle w, .getCycle, .setCycleDelay, .getCycleDelay]) : halfPeriods evs = 0 := by
  obtain ⟨-, -, -, -, same⟩ := exec_line e hi
  obtain rfl := List.self_eq_append_left.mp (same.symm.trans ht)
  rfl

theorem sessionOpen_takes (s : State) : TakesPeriods .sessionOpen s 0 := ⟨_, _, rfl, openLine_shows s, rfl⟩

theorem rawClose_takes (s : State) : TakesPeriods .rawClose s 2 := ⟨_, _, rfl, closeLine_shows s, rfl⟩

/-- The latch is no event (R99). -/
theorem chainClose_shows (s : State) : Shows s (chainClose s) [.closed] :=
  have h := closeLine_shows s
  ⟨h.trace, h.drawn, h.dinIn, h.dout⟩

theorem sessionClose_takes (s : State) : TakesPeriods .sessionClose s 2 := ⟨_, _, rfl, chainClose_shows s, rfl⟩

theorem rawExchange_takes (f : Frame) (s : State) : TakesPeriods (.rawExchange f) s 32 :=
  ⟨_, _, rfl, (exchange_shows f s).setResult _, rfl⟩

/-- The mirror's shift is no event (R98). -/
theorem chainSend_shows (f : Frame) (s : State) : Shows s (chainSend f s).2 [.sent f] := by
  have h := exchange_shows f s
  rw [exchange_eq] at h
  rw [chainSend_eq]
  exact ⟨h.trace, h.drawn, h.dinIn, h.dout⟩

theorem sessionSend_takes (f : Frame) (s : State) : TakesPeriods (.sessionSend f) s 32 :=
  ⟨_, _, rfl, (chainSend_shows f s).setResult _, rfl⟩

theorem actPeriods_cons (a : LineAct) (as : List LineAct) : actPeriods (a :: as) = actPeriods [a] + actPeriods as :=
  actPeriods_append [a] as

/-- The same activity over and over. -/
theorem actPeriods_replicate_flatten (n : Nat) (as : List LineAct) :
    actPeriods (List.replicate n as).flatten = n * actPeriods as := by
  induction n with
  | zero => simp [actPeriods]
  | succ n ih => rw [List.replicate_succ, List.flatten_cons, actPeriods_append, ih, Nat.succ_mul, Nat.add_comm]

theorem actPeriods_replicate_sent (n : Nat) (f : Frame) : actPeriods (List.replicate n (.sent f)) = 32 * n := by
  rw [actPeriods, List.map_replicate, List.sum_replicate, smul_eq_mul, Nat.mul_comm]

/-- COUNT_DEVICES: its start, `n` dummy exchanges and the close (R107). -/
theorem countDevices_takes {s : State} {n : Nat} (h1 : 1 ≤ n) (h256 : n ≤ 256)
    (hf : dataOf (s.drawnFrame (16 * n)) = 0xFF)
    (hno : ∀ k, 1 ≤ k → k < n → dataOf (s.drawnFrame (16 * k)) ≠ 0xFF) :
    TakesPeriods .countDevices s (32 * (n + 1) + 2) := by
  obtain ⟨t, ht, shows, -⟩ := countDevicesReturnsCount.2 s n h1 h256 hf hno
  refine ⟨t, _, ht, shows, ?_⟩
  rw [actPeriods_append, actPeriods_cons, actPeriods_cons (.sent _), actPeriods_replicate_sent]
  simp only [actPeriods, List.map_cons, List.map_nil, List.sum_cons, List.sum_nil]
  omega

/-- A command that is one write of a device's register takes one session (R125, R209). -/
theorem takes_of_writeChip {i : Instr} {s : State} {k : Nat} {a d : Byte} (hr : s.Ready)
    (e : exec i s = .next (writeChip k a d s)) : TakesPeriods i s (32 * s.par.n + 2) :=
  ⟨_, _, e, (writeChip_effect k a d hr.sized hr.clk).shows, actPeriods_sessionActs _ _⟩

theorem inOneToEight_iff {v : Byte} : inOneToEight v = true ↔ 1 ≤ v.toNat ∧ v.toNat ≤ 8 := by
  rw [inOneToEight, decide_eq_true_iff]

theorem setLed_takes {scr adr dat : Byte} {coord : Bool} {s : State} (hr : s.Ready) (ha : inOneToEight adr = true)
    (hd : coord = true → inOneToEight dat = true) :
    TakesPeriods (.setLed scr coord adr dat) s (32 * s.par.n + 2) := by
  cases coord with
  | false => exact takes_of_writeChip hr (if_pos ha)
  | true => exact takes_of_writeChip hr ((if_pos ha).trans (if_pos (hd rfl)))

theorem resetLedAt_takes {scr adr dat : Byte} {s : State} (hr : s.Ready) (ha : inOneToEight adr = true) :
    TakesPeriods (.resetLedAt scr adr dat) s (32 * s.par.n + 2) :=
  takes_of_writeChip hr (if_pos ha)

/-- Eight sessions of one device, whatever the frames (R147, R153). -/
theorem actPeriods_columns {cs : List Nat} (h : cs.length = 8) (n : Nat) (f : Nat → Nat → Frame) :
    actPeriods (cs.flatMap fun c => sessionActs n (f c)) = 256 * n + 16 := by
  rw [actPeriods_flatMap (fun c => actPeriods_sessionActs n (f c)), h]
  omega

theorem setRow_takes (scr dat : Byte) {s : State} (h : s.Inv) :
    TakesPeriods (.setRow scr dat) s (256 * s.par.n + 16) :=
  ⟨_, _, rfl, (setRow_columns h.legal h.ready scr dat).effect.shows, actPeriods_columns rfl _ _⟩

theorem setLetter_takes {scr dat : Byte} {s : State} (h : s.Inv) (hd : dat.toNat < s.par.n) :
    TakesPeriods (.setLetter scr dat) s (256 * s.par.n + 16) :=
  ⟨_, _, if_pos hd, (setLetterOn_columns h.legal h.ready scr.toNat _).effect.shows, actPeriods_columns rfl _ _⟩

/-- SET_WORD: eight sessions for each device of the trimmed word (R156). -/
theorem setWord_takes (dat : Byte) {s : State} (h : s.Inv) :
    TakesPeriods (.setWord dat) s (min dat.toNat s.par.n * (256 * s.par.n + 16)) := by
  have e : exec (.setWord dat) s = .next (wordTo (min dat.toNat s.par.n) (min dat.toNat s.par.n) s) := rfl
  generalize min dat.toNat s.par.n = len at e
  cases len with
  | zero => exact ⟨_, _, e, .refl s, (Nat.zero_mul _).symm⟩
  | succ k =>
    refine ⟨_, _, e, (wordTo_written s h.legal h.ready _ _ k.succ_pos (le_refl _)).eff.shows, ?_⟩
    rw [actPeriods_flatMap (fun j => actPeriods_columns rfl _ _), List.length_range']

/-- RESET_REGISTERS: sixteen sessions of N frames, and N of one frame (R131, R133). -/
theorem resetRegisters_takes {s : State} (h : s.Inv) : TakesPeriods .resetRegisters s (546 * s.par.n + 32) := by
  obtain ⟨t, ht, effect, -⟩ := resetRegistersEndState.2 s h
  refine ⟨t, _, ht, effect.shows, ?_⟩
  have flushOnce : actPeriods [.opened, .sent 0, .closed] = 34 := rfl
  rw [actPeriods_append, actPeriods_flatMap (fun a => actPeriods_sessionActs _ _), List.length_range,
    actPeriods_replicate_flatten, flushOnce]
  omega

/-! ### The waits of the scroll commands -/

/-- One or more scroll steps: the periods of each, and one inter-step wait between two of them (R166, R168). -/
theorem cycleStepsOf_waits (n : Nat) : ∀ {s : State}, s.par.Legal → s.Ready →
    ∃ acts, ChainEffect s (cycleStepsOf (n + 1) s) acts ∧ actPeriods acts = (n + 1) * (256 * s.par.n + 18) ∧
      actDelays acts = List.replicate n s.cycleDelay := by
  induction n with
  | zero =>
    intro s hl hr
    exact ⟨_, (scrollStep_spec hl hr).1, by rw [actPeriods_scrollActs, Nat.zero_add, Nat.one_mul],
      actDelays_scrollActs s⟩
  | succ n ih =>
    intro s hl hr
    have step := (scrollStep_spec hl hr).1
    have first := step.trans (waitDelay_effect step.en step.loadN step.clk)
    obtain ⟨acts, rest, periods, waits⟩ := ih (first.host.par.symm ▸ hl) (first.ready hr)
    refine ⟨_, first.trans rest, ?_, ?_⟩
    · have wait : ∀ d, actPeriods [.delay d] = 0 := fun _ => rfl
      rw [actPeriods_append, actPeriods_append, actPeriods_scrollActs, wait, periods, first.host.par]
      ring
    · rw [actDelays_append, actDelays_append, actDelays_scrollActs, waits, first.config.cycleDelay,
        step.config.cycleDelay]
      rfl

/-- The waits of a command of `m` scroll steps, at least one. -/
theorem waits_of_cycleStepsOf {s t : State} {m : Nat} {evs : List Event} (h : s.Inv) (hm : 1 ≤ m)
    (e : t = cycleStepsOf m s) (ht : t.trace = evs ++ s.trace) :
    halfPeriods evs = m * (256 * s.par.n + 18) ∧ delays evs = List.replicate (m - 1) s.cycleDelay := by
  obtain ⟨n, rfl⟩ : ∃ n, m = n + 1 := ⟨m - 1, by omega⟩
  obtain ⟨acts, effect, periods, waits⟩ := cycleStepsOf_waits n h.legal h.ready
  rw [← e] at effect
  exact ⟨(effect.shows.halfPeriods ht).trans periods,
    (effect.shows.delays ht).trans (by rw [waits, List.reverse_replicate]; rfl)⟩

/-! ### The table -/

/-- Settles O57: the line activity each command shows, with its waits counted, and the scroll commands by
`waits_of_cycleStepsOf`. -/
theorem commandDurations : Obligations.CommandDurations := by
  intro s t i evs h e ht N
  refine ⟨fun hi => ?_, fun w d a f g hi => ?_, fun f hi => ?_, fun hi => ?_, ?_, ?_, ?_, ?_, ?_, ?_, ?_, ?_, ?_, ?_⟩
  · rcases List.mem_append.mp (show i ∈ [.nop, .getCycle, .setCycleDelay, .getCycleDelay] ++ [.sessionOpen] from hi)
      with silent | opens
    · refine halfPeriods_of_silent e ht (f := 0) (d := 0) (a := 0) (h := false) (w := false) ?_
      simp only [List.mem_cons, List.not_mem_nil, or_false] at silent ⊢
      tauto
    · obtain rfl := List.mem_singleton.mp opens
      exact (sessionOpen_takes s).halfPeriods e ht
  · refine halfPeriods_of_silent e ht (f := f) (d := d) (a := a) (h := g) (w := w) ?_
    simp only [List.mem_cons, List.not_mem_nil, or_false] at hi ⊢
    tauto
  · simp only [List.mem_cons, List.not_mem_nil, or_false] at hi
    rcases hi with rfl | rfl
    · exact (sessionSend_takes f s).halfPeriods e ht
    · exact (rawExchange_takes f s).halfPeriods e ht
  · simp only [List.mem_cons, List.not_mem_nil, or_false] at hi
    rcases hi with rfl | rfl
    · exact (sessionClose_takes s).halfPeriods e ht
    · exact (rawClose_takes s).halfPeriods e ht
  · rintro n rfl h1 h256 hf hno
    exact (countDevices_takes h1 h256 hf hno).halfPeriods e ht
  · rintro scr adr dat rfl
    exact (takes_of_writeChip h.ready (exec_setRegister scr adr dat s)).halfPeriods e ht
  · rintro scr coord adr dat rfl h1 h8 hd
    exact (setLed_takes h.ready (inOneToEight_iff.mpr ⟨h1, h8⟩) fun k => inOneToEight_iff.mpr (hd k)).halfPeriods e ht
  · rintro scr adr dat rfl h1 h8
    exact (resetLedAt_takes h.ready (inOneToEight_iff.mpr ⟨h1, h8⟩)).halfPeriods e ht
  · rintro scr dat rfl
    exact (setRow_takes scr dat h).halfPeriods e ht
  · rintro scr dat rfl hd
    exact (setLetter_takes h hd).halfPeriods e ht
  · rintro dat rfl
    exact (setWord_takes dat h).halfPeriods e ht
  · rintro rfl
    exact (resetRegisters_takes h).halfPeriods e ht
  · rintro rfl harg
    exact waits_of_cycleStepsOf h harg (Host.Outcome.next.inj e).symm ht
  · rintro rfl
    exact waits_of_cycleStepsOf h (Nat.mul_pos (by decide) h.legal.1.1) (Host.Outcome.next.inj e).symm ht

end Sys2Proof.Machine
end

section
/-! PROOFS. The commands that write one pixel or column, a row of pixels, or a word of glyphs (43_pixel_glyph.md R140 to
R148, R151, R155 to R157). -/

namespace Sys2Proof.Machine
open Sys2Proof

/-! ### Command words of the pixel and word commands -/

theorem encode_setLed (scr : Byte) (coord : Bool) (adr dat : Byte) : encode (.setLed scr coord adr dat) =
    0x60000000 ||| scr.setWidth 32 <<< 18 ||| (BitVec.ofBool coord).setWidth 32 <<< 16
      ||| adr.setWidth 32 <<< 8 ||| dat.setWidth 32 := by
  simp [encode, cmdWord, matchWord]

theorem encode_resetLedAt (scr adr dat : Byte) : encode (.resetLedAt scr adr dat) =
    0x64000000 ||| scr.setWidth 32 <<< 18 ||| adr.setWidth 32 <<< 8 ||| dat.setWidth 32 := by
  simp [encode, cmdWord, matchWord]

theorem encode_setRow (scr dat : Byte) :
    encode (.setRow scr dat) = 0x68000000 ||| scr.setWidth 32 <<< 18 ||| dat.setWidth 32 := by
  simp [encode, cmdWord, matchWord]

theorem encode_setWord (dat : Byte) : encode (.setWord dat) = 0x74000000 ||| dat.setWidth 32 := by
  simp [encode, cmdWord, matchWord]

/-! ### One column byte -/

theorem not_inOneToEight {v : Byte} (h : v.toNat < 1 ∨ 8 < v.toNat) : ¬ inOneToEight v = true := by
  rw [inOneToEight_iff]
  omega

/-- The column byte of a device that is in the chain (R140). -/
theorem lowByteAt_col (s : State) {scr : Byte} (h1 : 1 ≤ scr.toNat) (hn : scr.toNat ≤ s.par.n) (c : Nat) :
    s.lowByteAt scr (col s.par c) = s.columnOf (scr.toNat - 1) c :=
  if_pos ⟨h1, hn⟩

/-- One column write: what the line shows, what is pending, and what the mirror holds (R125 to R127). -/
theorem writeColumn_spec {s : State} (h : s.Inv) (k : Nat) {c : Nat} (h1 : 1 ≤ c) (h8 : c ≤ 8) (byte : Byte) :
    ChainEffect s (writeChip k (col s.par c) byte s)
      (sessionActs s.par.n fun j => if j = k then pack (col s.par c) byte else 0) ∧
    (∀ i < s.par.n, (writeChip k (col s.par c) byte s).pending i = if i + 1 = k then pack (col s.par c) byte else 0) ∧
    ColumnsWritten s (writeChip k (col s.par c) byte s) k [c] (fun _ => byte) :=
  ⟨writeChip_effect k (col s.par c) byte h.sized h.clkLow,
    fun _ hi => writeChip_pending k (col s.par c) byte h.sized hi,
    writeChip_columns h.legal h.sized k h1 h8 fun _ => byte⟩

/-! ### SET_LED and RESET_LED_AT -/

theorem exec_setLed_of_column_out {scr adr dat : Byte} {coord : Bool} {s : State} (h : adr.toNat < 1 ∨ 8 < adr.toNat) :
    exec (.setLed scr coord adr dat) s = .next s :=
  if_neg (not_inOneToEight h)

theorem exec_setLed_of_row_out {scr adr dat : Byte} {s : State} (h : dat.toNat < 1 ∨ 8 < dat.toNat) :
    exec (.setLed scr true adr dat) s = .next s := by
  by_cases column : adr.toNat < 1 ∨ 8 < adr.toNat
  · exact exec_setLed_of_column_out column
  · exact (if_pos (inOneToEight_iff.mpr (by omega))).trans (if_neg (not_inOneToEight h))

/-- Settles O41: the command is one `writeChip`, of the byte it was given or of the byte read with one bit set. -/
theorem setLedWritesColumn : Obligations.SetLedWritesColumn := by
  intro scr adr dat coord s h
  refine ⟨encode_setLed scr coord adr dat, exec_setLed_of_column_out, ?_, fun h1 h8 row => ?_⟩
  · rintro rfl out
    exact exec_setLed_of_row_out out
  · have column := inOneToEight_iff.mpr ⟨h1, h8⟩
    cases coord with
    | false => exact ⟨_, dat, if_pos column, fun _ => rfl, nofun, writeColumn_spec h scr.toNat h1 h8 dat⟩
    | true =>
      have rowIn := inOneToEight_iff.mpr (row rfl)
      refine ⟨_, _, (if_pos column).trans (if_pos rowIn), nofun, fun _ s1 sn j hj => ?_,
        writeColumn_spec h scr.toNat h1 h8 _⟩
      rw [BitVec.getLsbD_or, lowByteAt_col s s1 sn, rowMask_getLsbD rowIn hj]

/-- Settles O42: the command is one `writeChip`, of zero or of the byte read with one bit cleared. -/
theorem resetLedAtClears : Obligations.ResetLedAtClears := by
  intro scr adr dat s h
  refine ⟨encode_resetLedAt scr adr dat, fun out => if_neg (not_inOneToEight out), fun h1 h8 => ?_⟩
  refine ⟨_, _, if_pos (inOneToEight_iff.mpr ⟨h1, h8⟩), fun out => if_neg (not_inOneToEight out),
    fun r1 r8 s1 sn j hj => ?_, writeColumn_spec h scr.toNat h1 h8 _⟩
  have row := inOneToEight_iff.mpr ⟨r1, r8⟩
  rw [if_pos row, BitVec.getLsbD_and, BitVec.getLsbD_not, lowByteAt_col s s1 sn, rowMask_getLsbD row hj,
    decide_eq_true hj, Bool.true_and]

/-! ### SET_ROW -/

/-- Bit 0 alone takes the pixel of the row (R147). -/
theorem setWidth_ofBool_getLsbD (b : Bool) (j : Nat) :
    ((BitVec.ofBool b).setWidth 8).getLsbD j = (decide (j = 0) && b) := by
  rw [BitVec.getLsbD_setWidth, BitVec.getLsbD_ofBool]
  by_cases hj : j = 0
  · simp [hj]
  · simp [hj]

/-- Settles O43: the eight writes of `setRow_columns`, whose last column is 8. -/
theorem setRowBuildsRow : Obligations.SetRowBuildsRow := by
  intro scr dat s h
  have written := setRow_columns h.legal h.ready scr dat
  refine ⟨encode_setRow scr dat, _, _, rfl, fun s1 sn c _ _ j _ => ?_, written.effect,
    fun i hi => written.pending i hi 8 rfl, written.columns⟩
  rw [BitVec.getLsbD_or, lowByteAt_col s s1 sn, setWidth_ofBool_getLsbD]

/-! ### The default glyph map and SET_WORD -/

theorem columnByte_of_byDefault {p : Params} (h : p.render = .byDefault) (g : Glyph) (c : Nat) :
    columnByte p g c = defaultColumnByte g c := by
  rw [columnByte, h]

/-- Settles O45: under the default map the column byte is `defaultColumnByte`, whose bits are known. -/
theorem defaultRenderIsRowMajor : Obligations.DefaultRenderIsRowMajor := by
  intro p g c y byDefault _ _ hy
  rw [columnByte_of_byDefault byDefault, defaultColumnByte_getLsbD g c hy]

/-- Settles O47: the trimmed length is 0 only for the length 0, and otherwise the loop has written every device of the word. -/
theorem setWordWritesGlyphs : Obligations.SetWordWritesGlyphs := by
  intro dat s h
  refine ⟨encode_setWord dat, ?_, fun nonzero => ?_⟩
  · rintro rfl
    have len : min (0 : Byte).toNat s.par.n = 0 := Nat.zero_min _
    rw [exec, execSetWord, len, wordTo]
  · have given : dat.toNat ≠ 0 := fun e => nonzero (BitVec.eq_of_toNat_eq e)
    have devices : 1 ≤ s.par.n := h.legal.1.1
    have w := wordTo_written s h.legal h.ready (min dat.toNat s.par.n) _ (by omega) (le_refl _)
    refine ⟨_, _, rfl, rfl, w.eff, w.cols, ?_, w.noop, w.rest⟩
    simpa only [Nat.sub_self] using w.pend

end Sys2Proof.Machine
end

section
/-! PROOFS. The scroll commands and the configuration of the scroll (44_scroll_config.md R160 to R174). -/

namespace Sys2Proof.Machine
open Sys2Proof

/-! ### WRAP and CYCLE_DELAY -/

theorem encode_setCycle (wrap : Bool) : encode (.setCycle wrap) = 0x88000000 ||| (BitVec.ofBool wrap).setWidth 32 := by
  cases wrap <;> rfl

theorem setWidth_ofBool (b : Bool) : (BitVec.ofBool b).setWidth 32 = if b then 1 else 0 := by
  cases b <;> rfl

/-- Settles O52: the two arms, WRAP zero-extended being 1 or 0. -/
theorem wrapFlagCommands : Obligations.WrapFlagCommands := by
  refine ⟨fun wrap s => ⟨encode_setCycle wrap, rfl⟩, rfl, fun s => ?_⟩
  rw [exec, execGetCycle, setWidth_ofBool]

/-- CYCLE_DELAY takes ARG, or 0 where ARG has its sign bit set (R173). -/
theorem exec_setCycleDelay (s : State) :
    exec .setCycleDelay s = .next { s with cycleDelay := if 2 ^ 31 ≤ s.arg.toNat then 0 else s.arg } := by
  have negative : s.arg.toInt < 0 ↔ 2 ^ 31 ≤ s.arg.toNat := by rw [BitVec.toInt_neg_iff]; omega
  rw [exec, execSetCycleDelay]
  simp only [negative]

/-- Settles O53: `exec_setCycleDelay` on either side of 2^31. -/
theorem cycleDelayCommands : Obligations.CycleDelayCommands := by
  refine ⟨rfl, rfl, fun s small => ?_, fun s large => ?_, fun _ => rfl⟩
  · rw [exec_setCycleDelay, if_neg (Nat.not_le.mpr small)]
  · rw [exec_setCycleDelay, if_pos large]

/-! ### How many scroll steps a command takes -/

theorem exec_cycleSteps {s : State} {m : Nat} (h : s.arg.toNat = m) : exec .cycleSteps s = .next (cycleStepsOf m s) := by
  rw [exec, execCycleSteps, h]

/-- The count is read before the first step, and ARG is carried through (R168). -/
theorem exec_cycleSteps_withArg (v : Word) (s : State) :
    exec .cycleSteps (withArg v s) = .next (withArg v (cycleStepsOf v.toNat s)) := by
  rw [exec_cycleSteps rfl, withArg_cycleStepsOf]
  rfl

theorem exec_cycleSteps_one {s : State} (h : s.arg = 1) : exec .cycleSteps s = .next (scrollStep s) :=
  exec_cycleSteps (m := 1) (by rw [h]; rfl)

theorem exec_cycleSet (s : State) : exec .cycleSet s = .next (cycleStepsOf (8 * s.par.n) s) := rfl

/-- Giving ARG another value and then its own again. -/
theorem withArg_withArg_self {v w : Word} {s : State} (h : s.arg = w) : withArg w (withArg v s) = s := by
  rw [← h]; rfl

/-! ### One scroll step -/

/-- The frames of a scroll step carry the column bytes it leaves (R163). -/
theorem scrollActs_eq {s : State} (hl : s.par.Legal) (hr : s.Ready) :
    scrollActs s = columns.flatMap (fun c => sessionActs s.par.n fun j =>
      pack (col s.par c) ((scrollStep s).columnOf (j - 1) c)) ++ [.opened, .closed] := by
  rw [scrollActs]
  refine congrArg (· ++ _) (List.flatMap_congr fun c hc => sessionActs_congr fun j h1 hn => ?_)
  obtain ⟨c1, c8⟩ := columns_range c hc
  rw [scrollStep_columnOf hl hr (by omega) c1 c8]

/-- Settles O48: the step as `scrollStep_spec` has it, the new column bytes read bit by bit. -/
theorem scrollStepShiftsColumns : Obligations.ScrollStepShiftsColumns := by
  intro s h one
  obtain ⟨effect, latched, pending, other⟩ := scrollStep_spec h.legal h.ready
  have byte {i c : Nat} (hi : i < s.par.n) (h1 : 1 ≤ c) (h8 : c ≤ 8) := scrollStep_columnOf h.legal h.ready hi h1 h8
  refine ⟨_, exec_cycleSteps_one one, scrollActs_eq h.legal h.ready ▸ effect,
    fun i hi c h1 h8 => ⟨?_, fun b b1 b8 => ?_, ?_⟩, fun i hi => ?_, fun i hi a ha => other a ha i hi⟩
  · rw [latched i hi c h1 h8, byte hi h1 h8]
  · obtain ⟨b, rfl⟩ : ∃ k, b = k + 1 := ⟨b - 1, by omega⟩
    rw [byte hi h1 h8, scrolledByte_getLsbD_succ _ _ _ (by omega), Nat.add_sub_cancel,
      columnOf_getLsbD _ _ _ _ (by omega)]
  · rw [byte hi h1 h8, scrolledByte_getLsbD_zero, columnOf_getLsbD _ _ _ _ (by decide),
      columnOf_getLsbD _ _ _ _ (by decide)]
  · rw [pending i hi, byte hi (by decide) (le_refl 8)]

/-! ### The lit pixels -/

/-- Bit 7 of a column byte: what a scroll step moves to the next farther device, or drops at the farthest (R162). -/
def State.topBit (s : State) (i c : Nat) : Bool := (s.columnOf i c).getLsbD 7

/-- What enters bit 0 of a column byte in a scroll step (R160, R162). -/
def State.carryBit (s : State) (i c : Nat) : Bool :=
  if 1 ≤ i then s.topBit (i - 1) c else s.wrap && s.topBit (s.par.n - 1) c

theorem State.carryBit_zero (s : State) (c : Nat) : s.carryBit 0 c = (s.wrap && s.topBit (s.par.n - 1) c) := rfl

theorem State.carryBit_succ (s : State) (i c : Nat) : s.carryBit (i + 1) c = s.topBit i c := rfl

/-- The lit pixels of one device's column: the top bit leaves, the next nearer device's enters (R162). -/
theorem litBits_scrollStep {s : State} (hl : s.par.Legal) (hr : s.Ready) {i c : Nat} (hi : i < s.par.n) (h1 : 1 ≤ c)
    (h8 : c ≤ 8) : litBits ((scrollStep s).columnOf i c) + (s.topBit i c).toNat =
      litBits (s.columnOf i c) + (s.carryBit i c).toNat := by
  rw [scrollStep_columnOf hl hr hi h1 h8, State.topBit, litBits_scrolled, scrolledByte_getLsbD_zero]
  simp only [State.carryBit, State.topBit, columnOf_getLsbD _ _ _ 7 (by decide)]

/-- Two sums over a chain of `n` devices, where each device but the nearest has in `g` what the next nearer one has in
`f`: they differ by the farthest `f` and the nearest `g`. -/
theorem sum_range_shifted (f g : Nat → Nat) {n : Nat} (hn : 1 ≤ n) (h : ∀ i, g (i + 1) = f i) :
    ((List.range n).map g).sum + f (n - 1) = ((List.range n).map f).sum + g 0 := by
  obtain ⟨n, rfl⟩ : ∃ k, n = k + 1 := ⟨n - 1, by omega⟩
  have shifted : (List.range n).map (fun i => g (i + 1)) = (List.range n).map f := List.map_congr_left fun i _ => h i
  rw [List.sum_range_succ', List.sum_range_succ, Nat.add_sub_cancel, shifted]
  omega

/-- The lit pixels of a column over all devices: the farthest top bit leaves the chain, and comes back with WRAP
(R164). -/
theorem columnLit_scrollStep {s : State} (hl : s.par.Legal) (hr : s.Ready) {c : Nat} (h1 : 1 ≤ c) (h8 : c ≤ 8) :
    ((List.range s.par.n).map fun i => litBits ((scrollStep s).columnOf i c)).sum + (s.topBit (s.par.n - 1) c).toNat =
    ((List.range s.par.n).map fun i => litBits (s.columnOf i c)).sum + (s.wrap && s.topBit (s.par.n - 1) c).toNat := by
  have moved := congrArg List.sum (List.map_congr_left (l := List.range s.par.n)
    fun i hi => litBits_scrollStep hl hr (List.mem_range.mp hi) h1 h8)
  have carried := sum_range_shifted (fun i => (s.topBit i c).toNat) (fun i => (s.carryBit i c).toNat) hl.1.1
    fun i => congrArg Bool.toNat (s.carryBit_succ i c)
  rw [sum_map_add, sum_map_add] at moved
  rw [s.carryBit_zero c] at carried
  omega

theorem sum_toNat_eq_countP (l : List Nat) (p : Nat → Bool) : (l.map fun c => (p c).toNat).sum = l.countP p := by
  induction l with
  | nil => rfl
  | cons c l ih =>
    have one : (p c).toNat = if p c then 1 else 0 := by cases p c <;> rfl
    rw [List.map_cons, List.sum_cons, ih, List.countP_cons, one, Nat.add_comm]

theorem litCount_eq_sum_columns (s : State) :
    s.litCount = (columns.map fun c => ((List.range s.par.n).map fun i => litBits (s.columnOf i c)).sum).sum :=
  sum_map_comm ..

/-- The balance of R164 over the whole chain. -/
theorem litCount_scrollStep {s : State} (hl : s.par.Legal) (hr : s.Ready) :
    (scrollStep s).litCount + columns.countP (s.topBit (s.par.n - 1)) =
      s.litCount + columns.countP (fun c => s.wrap && s.topBit (s.par.n - 1) c) := by
  rw [litCount_eq_sum_columns, litCount_eq_sum_columns, (scrollStep_spec hl hr).1.host.par, ← sum_toNat_eq_countP,
    ← sum_toNat_eq_countP, ← sum_map_add, ← sum_map_add]
  refine congrArg List.sum (List.map_congr_left fun c hc => ?_)
  exact columnLit_scrollStep hl hr (columns_range c hc).1 (columns_range c hc).2

/-- Settles O51: the balance of `litCount_scrollStep`, where WRAP brings back every top bit or none. -/
theorem scrollStepLitCount : Obligations.ScrollStepLitCount := by
  intro s h one
  have balance := litCount_scrollStep h.legal h.ready
  refine ⟨_, exec_cycleSteps_one one, fun wrap => ?_, fun noWrap => ?_⟩
  · simp only [wrap, Bool.true_and] at balance
    exact Nat.add_right_cancel balance
  · simp only [noWrap, Bool.false_and, List.countP_false] at balance
    exact balance

/-! ### Several scroll steps -/

/-- Bit `p` of a column's shift register when every bit has moved `m` places (R162). -/
def State.movedBit (s : State) (m c p : Nat) : Bool :=
  if s.wrap then s.ringBit c ((p + 8 * s.par.n - m % (8 * s.par.n)) % (8 * s.par.n))
  else decide (m ≤ p) && s.ringBit c (p - m)

/-- One place back round a ring of M bits. -/
theorem ring_index_one {M p : Nat} (hM : 8 ≤ M) (hp : p < M) :
    (p + M - 1 % M) % M = if p = 0 then M - 1 else p - 1 := by
  rw [Nat.mod_eq_of_lt (show 1 < M by omega)]
  split
  · rw [Nat.mod_eq_of_lt (by omega)]; omega
  · rw [show p + M - 1 = p - 1 + M by omega, Nat.add_mod_right, Nat.mod_eq_of_lt (by omega)]

theorem scrollStep_ringBit_eq_movedBit {s : State} (hl : s.par.Legal) (hr : s.Ready) {c : Nat} (h1 : 1 ≤ c)
    (h8 : c ≤ 8) {p : Nat} (hp : p < 8 * s.par.n) : (scrollStep s).ringBit c p = s.movedBit 1 c p := by
  have devices := hl.1.1
  rw [scrollStep_ringBit hl hr h1 h8 hp, State.movedBit, ring_index_one (by omega) hp]
  cases s.wrap with
  | true => by_cases first : p = 0 <;> simp [first]
  | false =>
    by_cases first : p = 0
    · simp [first]
    · simp [first, show 1 ≤ p by omega]

/-- Moving one place and then `m + 1` places is moving `m + 2` places: `t` has the columns a scroll step left. -/
theorem movedBit_scrollStep {s t : State} (hl : s.par.Legal) (hr : s.Ready) (par : t.par = s.par)
    (wrap : t.wrap = s.wrap) (ring : ∀ c p, t.ringBit c p = (scrollStep s).ringBit c p) (m : Nat) {c : Nat}
    (h1 : 1 ≤ c) (h8 : c ≤ 8) {p : Nat} (hp : p < 8 * s.par.n) : t.movedBit (m + 1) c p = s.movedBit (m + 2) c p := by
  have devices := hl.1.1
  simp only [State.movedBit, par, wrap, ring]
  cases w : s.wrap with
  | true =>
    rw [if_pos rfl, if_pos rfl, scrollStep_ringBit hl hr h1 h8 (Nat.mod_lt _ (by omega)), w, Bool.true_and,
      ring_index_succ _ m p (by omega) hp, apply_ite (s.ringBit c)]
  | false =>
    rw [if_neg Bool.false_ne_true, if_neg Bool.false_ne_true, scrollStep_ringBit hl hr h1 h8 (by omega), w,
      Bool.false_and]
    by_cases last : p - (m + 1) = 0
    · simp [last, show ¬ m + 2 ≤ p by omega]
    · simp [last, show m + 1 ≤ p by omega, show m + 2 ≤ p by omega, Nat.sub_sub]

/-- What one or more scroll steps have done, `m` of them (R162, R163, R168). -/
structure ScrolledTimes (s t : State) (m : Nat) : Prop where
  line : ∃ acts, ChainEffect s t acts ∧ sentCount acts = m * (8 * s.par.n) ∧
    actDelays acts = List.replicate (m - 1) s.cycleDelay
  ring : ∀ c, 1 ≤ c → c ≤ 8 → ∀ p < 8 * s.par.n, t.ringBit c p = s.movedBit m c p
  tagged : ∀ i < s.par.n, ∀ c, 1 ≤ c → c ≤ 8 → t.latched i (col s.par c) = pack (col s.par c) (t.columnOf i c)
  pending : ∀ i < s.par.n, t.pending i = pack (col s.par 8) (t.columnOf i 8)
  other : ∀ i < s.par.n, ∀ a, (∀ c, 1 ≤ c → c ≤ 8 → a ≠ col s.par c) → t.latched i a = s.latched i a

theorem sentCount_scrollActs (s : State) : sentCount (scrollActs s) = 8 * s.par.n := by
  rw [scrollActs, sentCount_append, sentCount_sessions]
  rfl

theorem scrollStep_scrolledTimes {s : State} (hl : s.par.Legal) (hr : s.Ready) : ScrolledTimes s (scrollStep s) 1 := by
  obtain ⟨effect, latched, pending, other⟩ := scrollStep_spec hl hr
  refine ⟨⟨_, effect, ?_, actDelays_scrollActs s⟩, fun c h1 h8 p => scrollStep_ringBit_eq_movedBit hl hr h1 h8,
    fun i hi c h1 h8 => ?_, fun i hi => ?_, fun i hi a ha => other a ha i hi⟩
  · rw [sentCount_scrollActs, Nat.one_mul]
  · rw [latched i hi c h1 h8, scrollStep_columnOf hl hr hi h1 h8]
  · rw [pending i hi, scrollStep_columnOf hl hr hi (by decide) (le_refl 8)]

/-- A scroll step and the wait, then further steps (R168). -/
theorem ScrolledTimes.after_scrollStep {s t : State} {m : Nat} (hl : s.par.Legal) (hr : s.Ready)
    (h : ScrolledTimes (waitDelay (scrollStep s)) t (m + 1)) : ScrolledTimes s t (m + 2) := by
  obtain ⟨step, -, -, other⟩ := scrollStep_spec hl hr
  have first := step.trans (waitDelay_effect step.en step.loadN step.clk)
  have par := first.host.par
  obtain ⟨⟨acts, effect, sent, waits⟩, ring, tagged, pending, rest⟩ := h
  rw [par] at sent ring tagged pending rest
  refine ⟨⟨_, first.trans effect, ?_, ?_⟩, fun c h1 h8 p hp => ?_, tagged, pending,
    fun i hi a ha => ((rest i hi a ha).trans (waitDelay_latched _ i a)).trans (other a ha i hi)⟩
  · have wait : ∀ d, sentCount [.delay d] = 0 := fun _ => rfl
    rw [sentCount_append, sentCount_append, sentCount_scrollActs, wait, sent]
    ring
  · rw [actDelays_append, actDelays_append, actDelays_scrollActs, waits, first.config.cycleDelay,
      step.config.cycleDelay]
    rfl
  · rw [ring c h1 h8 p hp,
      movedBit_scrollStep hl hr par first.config.wrap (waitDelay_ringBit _) m h1 h8 hp]

theorem cycleStepsOf_succ_succ (m : Nat) (s : State) :
    cycleStepsOf (m + 2) s = cycleStepsOf (m + 1) (waitDelay (scrollStep s)) := rfl

theorem cycleStepsOf_scrolledTimes (m : Nat) {s : State} (hl : s.par.Legal) (hr : s.Ready) :
    ScrolledTimes s (cycleStepsOf (m + 1) s) (m + 1) := by
  induction m generalizing s with
  | zero => exact scrollStep_scrolledTimes hl hr
  | succ m ih =>
    have step := (scrollStep_spec hl hr).1
    have par : s.par = (waitDelay (scrollStep s)).par := ((waitDelay_par _).trans step.host.par).symm
    rw [cycleStepsOf_succ_succ]
    exact .after_scrollStep hl hr (ih (par ▸ hl) (waitDelay_ready (step.ready hr)))

theorem State.Inv.scrolledTimes {s : State} (h : s.Inv) {m : Nat} (hm : m ≠ 0) :
    ScrolledTimes s (cycleStepsOf m s) m := by
  obtain ⟨k, rfl⟩ := Nat.exists_eq_succ_of_ne_zero hm
  exact cycleStepsOf_scrolledTimes k h.legal h.ready

/-- Recording a wait of CYCLE_DELAY and giving ARG a new value (R168, R169). -/
theorem withArg_waitDelay_eq {s : State} {d : Word} (h : s.cycleDelay = d) (v w : Word) :
    { withArg w s with arg := v, trace := .waitDelay d :: (withArg w s).trace } = withArg v (waitDelay s) := by
  rw [← h]; rfl

/-- The recurrence of R168 as commands: one step, the wait, and the other steps. -/
theorem exec_cycleSteps_recurrence {s : State} {n : Nat} (h : s.arg.toNat = n + 2) :
    ∃ u t, exec .cycleSteps { s with arg := 1 } = .next u ∧
      exec .cycleSteps { u with arg := BitVec.ofNat 32 (n + 1), trace := .waitDelay s.cycleDelay :: u.trace } = .next t ∧
      exec .cycleSteps s = .next { t with arg := s.arg } := by
  have count : (BitVec.ofNat 32 (n + 1)).toNat = n + 1 := Nat.mod_eq_of_lt (by have := s.arg.isLt; omega)
  refine ⟨withArg 1 (scrollStep s), withArg (BitVec.ofNat 32 (n + 1)) (cycleStepsOf (n + 2) s), ?_, ?_, ?_⟩
  · rw [← withArg_scrollStep]
    exact exec_cycleSteps_one (s := withArg 1 s) rfl
  · rw [withArg_waitDelay_eq (scrollStep_quiet s).config.cycleDelay, exec_cycleSteps_withArg, count,
      ← cycleStepsOf_succ_succ]
  · rw [exec_cycleSteps h]
    exact congrArg _ (withArg_withArg_self (cycleStepsOf_quiet (n + 2) s).host.arg).symm

/-- Settles O49: the recurrence of the loop with ARG carried through, and what the steps have done together
(`ScrolledTimes`). -/
theorem cycleStepsMoveBits : Obligations.CycleStepsMoveBits := by
  refine ⟨rfl, fun s h => ⟨fun zero => ?_, fun n hn => exec_cycleSteps_recurrence hn, fun nonzero => ?_⟩⟩
  · exact exec_cycleSteps (m := 0) (by rw [zero]; rfl)
  · have steps : s.arg.toNat ≠ 0 := fun e => nonzero (BitVec.eq_of_toNat_eq e)
    obtain ⟨⟨acts, effect, -, waits⟩, ring, tagged, pending, other⟩ := h.scrolledTimes steps
    exact ⟨_, acts, exec_cycleSteps rfl, effect, waits, ring, tagged, pending, other⟩

/-! ### A full cycle -/

theorem columnOf_getLsbD_eq_ringBit (s : State) (i c : Nat) {j : Nat} (hj : j < 8) :
    (s.columnOf i c).getLsbD j = s.ringBit c (8 * i + j) := by
  rw [State.ringBit, show (8 * i + j) / 8 = i by omega, show (8 * i + j) % 8 = j by omega]

/-- All the way round, each bit is back; off the end, none is left (R167). -/
theorem movedBit_full (s : State) (c : Nat) {p : Nat} (hp : p < 8 * s.par.n) :
    s.movedBit (8 * s.par.n) c p = (s.wrap && s.ringBit c p) := by
  rw [State.movedBit, Nat.mod_self, Nat.sub_zero, Nat.add_mod_right, Nat.mod_eq_of_lt hp,
    decide_eq_false (Nat.not_le.mpr hp)]
  cases s.wrap <;> rfl

theorem ScrolledTimes.columnOf_full {s t : State} (h : ScrolledTimes s t (8 * s.par.n)) {i : Nat} (hi : i < s.par.n)
    {c : Nat} (h1 : 1 ≤ c) (h8 : c ≤ 8) : t.columnOf i c = if s.wrap then s.columnOf i c else 0 := by
  refine BitVec.eq_of_getLsbD_eq fun j hj => ?_
  have p : 8 * i + j < 8 * s.par.n := by omega
  rw [columnOf_getLsbD_eq_ringBit t i c hj, h.ring c h1 h8 _ p, movedBit_full s c p,
    ← columnOf_getLsbD_eq_ringBit s i c hj]
  cases s.wrap <;> simp

/-- Settles O50: 8N scroll steps are CYCLE_STEPS with that count, and bring every bit all the way round
(`columnOf_full`). -/
theorem cycleSetIsAFullCycle : Obligations.CycleSetIsAFullCycle := by
  refine ⟨rfl, fun s h => ?_⟩
  have devices : 1 ≤ s.par.n ∧ s.par.n ≤ 255 := h.legal.1
  have count : (BitVec.ofNat 32 (8 * s.par.n)).toNat = 8 * s.par.n := Nat.mod_eq_of_lt (by omega)
  have done := h.scrolledTimes (m := 8 * s.par.n) (by omega)
  obtain ⟨acts, effect, sent, -⟩ := done.line
  refine ⟨_, _, acts, exec_cycleSet s, exec_cycleSteps_withArg _ s, ?_, effect, sent,
    fun i hi c h1 h8 => ⟨done.columnOf_full hi h1 h8, done.tagged i hi c h1 h8⟩, done.pending, done.other⟩
  rw [count]
  exact (withArg_withArg_self effect.host.arg).symm

end Sys2Proof.Machine
end
